-- ==== Sys2Proof/Word.lean ====
section
/-! DEFINITION. The words of the FSCV block: bytes, 16-bit field patterns, operation codes, the 88-bit frame word, the
11-byte frame buffer, and the small records built from them (spec 00_scope.md R7, 30_encoding.md R50, R51). -/

namespace Sys2Proof

/-- One byte of the input stream or of a frame, bit 0 least significant (R7). -/
abbrev Byte := BitVec 8

/-- The 16-bit pattern of a payload field X, Y or Z (R54). A pattern, not an integer: the frame kind fixes how it is read. -/
abbrev Field16 := BitVec 16

/-- The operation select code `OP[2:0]` (R60). -/
abbrev OpCode := BitVec 3

/-- The frame word `W` of R51: frame byte `i` at bits `8i+7:8i`. -/
abbrev FrameWord := BitVec 88

/-- Eleven frame bytes in arrival order, `BUF[0]` first (R7, R10). -/
abbrev FrameBuf := Vector Byte 11

/-- The frame kinds (R9, R58): a closed enumeration. -/
inductive Kind where
  | acc
  | gyro
  | angle
  | unknown
deriving DecidableEq, Repr

/-- Three field patterns of one frame, and one `RAW[k]` latch group (R16). -/
structure Fields where
  x : Field16
  y : Field16
  z : Field16
deriving DecidableEq, Repr

/-- Frame bytes 2 to 10 as the operands of a frame: three fields, two reserved bytes and the checksum byte (R50). -/
structure Payload where
  x : Field16
  y : Field16
  z : Field16
  rsv0 : Byte
  rsv1 : Byte
  csum : Byte
deriving DecidableEq, Repr

/-- The three fields of a payload. -/
def Payload.fields (p : Payload) : Fields := ⟨p.x, p.y, p.z⟩

/-- The zero vector, the document's (0, 0, 0) (R20). -/
def Fields.zero : Fields := ⟨0, 0, 0⟩

end Sys2Proof
end

