-- ==== Sys2Proof/Config.lean ====
section
/-! DEFINITION. What an implementation fixes (the constants of R5 and the open parameters of R6) and the free values, which
nothing in Lean can evaluate. -/

namespace Sys2Proof

namespace Config

/-- `MARKER`: the start marker, frame byte 0 (R5, R53). -/
def marker : Byte := 0x55

/-- `HDR_ACC` (R5, R58). -/
def hdrAcc : Byte := 0x51

/-- `HDR_GYRO` (R5, R58). -/
def hdrGyro : Byte := 0x52

/-- `HDR_ANGLE` (R5, R58). -/
def hdrAngle : Byte := 0x53

/-- `BODY_LEN`: the bytes read after the marker (R5, R74). -/
def bodyLen : Nat := 10

/-- `POLL_THRESHOLD`: the least buffered byte count at which a poll cycle runs (R5, R122). -/
def pollThreshold : Nat := 44

/-- `POLL_MAX_FRAMES`: the reader invocations of one poll cycle (R5, R123). -/
def pollMaxFrames : Nat := 4

/-- FREE VALUE (log entry 4). The integer reading of a field pattern of an UNKNOWN frame: R104 says it is undefined, U14 `any value`. -/
opaque unknownReading : Field16 → Int

/-- FREE VALUE (log entry 3). The bytes a reset input leaves in `BUF`: R20 and R160 leave them unspecified, U13 `any value`.
The counter `State.draws` says which draw it is. -/
opaque freeByte : Nat → Byte

end Config

/-- `POLL_RETURN_MODE` (R6, R126): what the Boolean result of `POLL` reports. -/
inductive PollReturnMode where
  | cycleRan
  | frameApplied
deriving DecidableEq, Repr

/-- The open parameters of R6. They are fixed for one block: no step writes them, and a claim about every state is a claim
about every setting. -/
structure Params where
  /-- `POLL_STOP_ON_NODATA` (R125). -/
  stopOnNoData : Bool
  /-- `POLL_RETURN_MODE` (R126). -/
  returnMode : PollReturnMode
  /-- `HUNT_LIMIT` (R92); `none` is the document's unbounded hunt, and R92 asks `n ≥ 1` of `some n`. -/
  huntLimit : Option Nat
deriving DecidableEq, Repr

/-- The defaults of R6. -/
def Params.default : Params := ⟨false, .cycleRan, none⟩

end Sys2Proof
end

