-- ==== Sys2Proof/Syntax.lean ====
section
/-! DEFINITION. The instructions: one constructor per row of spec/opcode_table.json, the four frame rows of format FRAME11
and the eight operation rows of format OP3 (30_encoding.md R58, R60, R63). -/

namespace Sys2Proof

/-- A frame row is a candidate: 11 bytes that begin with the marker, its checksum byte an operand like any other, because a
row's match and mask only classify (R63); whether the candidate is accepted is part of its meaning (R57). -/
inductive Instr where
  /-- `FRAME.ACC`, header 0x51 (R106). -/
  | frameAcc (p : Payload)
  /-- `FRAME.GYRO`, header 0x52 (R107). -/
  | frameGyro (p : Payload)
  /-- `FRAME.ANGLE`, header 0x53 (R108). -/
  | frameAngle (p : Payload)
  /-- `FRAME.UNKNOWN`, any other header (R109). -/
  | frameUnknown (hdr : Byte) (p : Payload)
  /-- `READ_FRAME`, `OP = 1` (R70). -/
  | readFrame
  /-- `POLL`, `OP = 2` (R120). -/
  | poll
  /-- `GET_ACC`, `OP = 4` (R128). -/
  | getAcc
  /-- `GET_GYRO`, `OP = 5` (R129). -/
  | getGyro
  /-- `GET_ANGLE`, `OP = 6` (R130). -/
  | getAngle
  /-- `RESERVED_OP0`, `OP = 0` (R61). -/
  | reservedOp0
  /-- `RESERVED_OP3`, `OP = 3` (R61). -/
  | reservedOp3
  /-- `RESERVED_OP7`, `OP = 7` (R61). -/
  | reservedOp7
deriving DecidableEq, Repr

end Sys2Proof
end

