-- ==== Sys2Proof/WellFormed.lean ====
section
/-! DEFINITION. Which instruction terms have an encoding of their own: an UNKNOWN frame carries none of the three recognized
headers (R58, and the priority of the table's rows, R63). -/

namespace Sys2Proof

/-- The header is one of the 253 values that R58 calls Unknown. -/
def unmappedHeader (h : Byte) : Bool :=
  h != Config.hdrAcc && h != Config.hdrGyro && h != Config.hdrAngle

/-- Every term is well formed but an UNKNOWN frame that carries a recognized header: its bytes belong to another row (R63). -/
def Instr.wf : Instr → Bool
  | .frameAcc _ => true
  | .frameGyro _ => true
  | .frameAngle _ => true
  | .frameUnknown h _ => unmappedHeader h
  | .readFrame => true
  | .poll => true
  | .getAcc => true
  | .getGyro => true
  | .getAngle => true
  | .reservedOp0 => true
  | .reservedOp3 => true
  | .reservedOp7 => true

end Sys2Proof
end

