-- ==== Sys2Proof/Decode.lean ====
section
/-! DEFINITION. The decoder, total on any bytes, and the encoder, both from 30_encoding.md (R50, R51, R54, R58, R60) and
41_frame_decoder.md (R100, R103); the opcode table as data (R63). -/

namespace Sys2Proof

/-! ### Fields of a frame -/

/-- The 16-bit pattern `{hi, lo}`: the byte that arrives first is the less significant (R35, R54). -/
def pair (lo hi : Byte) : Field16 := hi ++ lo

/-- Bits 7:0 of a field. -/
def loByte (v : Field16) : Byte := v.extractLsb' 0 8

/-- Bits 15:8 of a field. -/
def hiByte (v : Field16) : Byte := v.extractLsb' 8 8

/-- `Classify(h)` (R100): exact 8-bit equalities, every other value Unknown. -/
def classify (h : Byte) : Kind :=
  if h = Config.hdrAcc then .acc
  else if h = Config.hdrGyro then .gyro
  else if h = Config.hdrAngle then .angle
  else .unknown

/-- `(X(b), Y(b), Z(b))` (R103): the byte offsets [2:4), [4:6), [6:8), little-endian. -/
def fieldsOf (b : FrameBuf) : Fields := ⟨pair b[2] b[3], pair b[4] b[5], pair b[6] b[7]⟩

/-- `Decode(b)` (R102): the kind and the three fields, computed for an UNKNOWN frame too (R103); a function of bytes 1 to 7 alone
(R112). -/
def decodeFields (b : FrameBuf) : Kind × Fields := (classify b[1], fieldsOf b)

/-- The sum of frame bytes 0 to 9 modulo 256 (R56, R75): a plain 8-bit sum that drops carries, the reserved bytes among
the bytes summed (R55, R112). -/
def checksum (b : FrameBuf) : Byte :=
  b[0] + b[1] + b[2] + b[3] + b[4] + b[5] + b[6] + b[7] + b[8] + b[9]

/-- `IsFrame(b)` (R57). -/
def isFrame (b : FrameBuf) : Bool := b[0] == Config.marker && b[10] == checksum b

/-! ### Bytes of a frame and its operands -/

/-- The 11 bytes of a frame with header `h`, in arrival order (R50). -/
def frameBytes (h : Byte) (p : Payload) : FrameBuf :=
  #v[Config.marker, h, loByte p.x, hiByte p.x, loByte p.y, hiByte p.y, loByte p.z, hiByte p.z, p.rsv0, p.rsv1, p.csum]

/-- Frame bytes 2 to 10 as operands (R50, R54). -/
def payloadOf (b : FrameBuf) : Payload :=
  ⟨pair b[2] b[3], pair b[4] b[5], pair b[6] b[7], b[8], b[9], b[10]⟩

/-- The frame word `W` (R51): frame byte `i` at bits `8i+7:8i`. -/
def frameWord (b : FrameBuf) : FrameWord :=
  b[10] ++ b[9] ++ b[8] ++ b[7] ++ b[6] ++ b[5] ++ b[4] ++ b[3] ++ b[2] ++ b[1] ++ b[0]

/-! ### The decoder -/

/-- The instruction of a candidate whose byte 0 is the marker: the header alone selects the row (R58, R100). -/
def decodeFrame (b : FrameBuf) : Instr :=
  match classify b[1] with
  | .acc => .frameAcc (payloadOf b)
  | .gyro => .frameGyro (payloadOf b)
  | .angle => .frameAngle (payloadOf b)
  | .unknown => .frameUnknown b[1] (payloadOf b)

/-- The operation a select code names (R60); codes 0, 3 and 7 are the reserved rows (R61). -/
def decodeOp (c : OpCode) : Instr :=
  match c.toNat with
  | 1 => .readFrame
  | 2 => .poll
  | 4 => .getAcc
  | 5 => .getGyro
  | 6 => .getAngle
  | 0 => .reservedOp0
  | 3 => .reservedOp3
  | _ => .reservedOp7

/-- Why bytes are no instruction. -/
inductive DecodeError where
  /-- There is no byte. -/
  | noBytes
  /-- The first byte is neither the marker (R53) nor an operation code with bits 7:3 zero (R60). -/
  | notAnInstruction (b : Byte)
  /-- A marker with fewer than 10 bytes after it: a short candidate (R59). `present` bytes are there, the marker among them. -/
  | shortFrame (present : Nat)
deriving DecidableEq, Repr

/-- The decoder over bytes. A frame is its 11 bytes in arrival order (R50); an operation stands as one byte that holds
`OP[2:0]` in bits 2:0 (log entry 9: the caller's select lines and the stream are different places on the hardware, and the two
formats share no first byte). -/
def decode : List Byte → Except DecodeError (Instr × List Byte)
  | [] => .error .noBytes
  | b :: rest =>
    if b = Config.marker then
      match rest with
      | b1 :: b2 :: b3 :: b4 :: b5 :: b6 :: b7 :: b8 :: b9 :: b10 :: rest' =>
        .ok (decodeFrame #v[b, b1, b2, b3, b4, b5, b6, b7, b8, b9, b10], rest')
      | _ => .error (.shortFrame (rest.length + 1))
    else if b.toNat < 8 then .ok (decodeOp (b.setWidth 3), rest)
    else .error (.notAnInstruction b)

/-- The bytes of a table word: byte `i` is bits `8i+7:8i`, as R51 packs a frame, with zeros above `nbits`, up to the longest
instruction, a frame's 11 bytes. -/
def tableBytes (nbits w : Nat) : List Byte :=
  (List.range 11).map fun i => BitVec.ofNat 8 ((w % 2 ^ nbits) / 2 ^ (8 * i))

/-- The instruction the decoder reads from a word of spec/opcode_table.json. -/
def decodeTableWord (nbits w : Nat) : Option Instr :=
  match decode (tableBytes nbits w) with
  | .ok (i, _) => some i
  | .error _ => none

/-! ### The encoder -/

/-- The bytes of an instruction: the wire format of R50 for a frame, the code of R60 in one byte for an operation. -/
def encode : Instr → List Byte
  | .frameAcc p => (frameBytes Config.hdrAcc p).toList
  | .frameGyro p => (frameBytes Config.hdrGyro p).toList
  | .frameAngle p => (frameBytes Config.hdrAngle p).toList
  | .frameUnknown h p => (frameBytes h p).toList
  | .readFrame => [1]
  | .poll => [2]
  | .getAcc => [4]
  | .getGyro => [5]
  | .getAngle => [6]
  | .reservedOp0 => [0]
  | .reservedOp3 => [3]
  | .reservedOp7 => [7]

/-! ### The opcode table (R63) -/

/-- One row of spec/opcode_table.json: a word `w` of the row's format matches when `w` and `mask` agree with `pattern`. -/
structure TableRow where
  mnemonic : String
  /-- Width of the format in bits: 88 for FRAME11, 3 for OP3. -/
  width : Nat
  pattern : Nat
  mask : Nat
deriving DecidableEq, Repr

/-- The rows, in the table's order: the three known-kind rows stand before the UNKNOWN row, whose mask covers only the marker. -/
def opcodeTable : List TableRow :=
  [ ⟨"FRAME.ACC", 88, 0x5155, 0xFFFF⟩, ⟨"FRAME.GYRO", 88, 0x5255, 0xFFFF⟩, ⟨"FRAME.ANGLE", 88, 0x5355, 0xFFFF⟩,
    ⟨"FRAME.UNKNOWN", 88, 0x55, 0xFF⟩, ⟨"READ_FRAME", 3, 1, 7⟩, ⟨"POLL", 3, 2, 7⟩, ⟨"GET_ACC", 3, 4, 7⟩,
    ⟨"GET_GYRO", 3, 5, 7⟩, ⟨"GET_ANGLE", 3, 6, 7⟩, ⟨"RESERVED_OP0", 3, 0, 7⟩, ⟨"RESERVED_OP3", 3, 3, 7⟩,
    ⟨"RESERVED_OP7", 3, 7, 7⟩ ]

/-- The first row of a format that a word matches: the table's priority (R63). -/
def tableRowOf (width w : Nat) : Option TableRow :=
  opcodeTable.find? fun r => r.width == width && (w &&& r.mask) == r.pattern

/-- The table's name of an instruction. -/
def Instr.mnemonic : Instr → String
  | .frameAcc _ => "FRAME.ACC"
  | .frameGyro _ => "FRAME.GYRO"
  | .frameAngle _ => "FRAME.ANGLE"
  | .frameUnknown _ _ => "FRAME.UNKNOWN"
  | .readFrame => "READ_FRAME"
  | .poll => "POLL"
  | .getAcc => "GET_ACC"
  | .getGyro => "GET_GYRO"
  | .getAngle => "GET_ANGLE"
  | .reservedOp0 => "RESERVED_OP0"
  | .reservedOp3 => "RESERVED_OP3"
  | .reservedOp7 => "RESERVED_OP7"

end Sys2Proof
end

