-- ==== Sys2Proof/Machine/State.lean ====
section
/-! DEFINITION. The state of the FSCV block (10_state.md), of its environment (20_memory.md R30 to R34) and of its caller, as
plain data; the reasons a step can stop; the state after reset (R20, R160). -/

namespace Sys2Proof.Machine

/-! ### Registers of the block -/

/-- `MODE`, the reader's phase (R13). Code 3 is never taken, so the type has no such value (U17). -/
inductive Mode where
  | idle
  | hunt
  | collect
deriving DecidableEq, Repr

/-- `STATUS`, the result of the last completed `READ_FRAME` (R14). -/
inductive Status where
  | noData
  | underrun
  | badChecksum
  | frame
deriving DecidableEq, Repr

/-- The nine `RAW[k][a]` latches, three per known kind (R16). -/
structure Raw where
  acc : Fields
  gyro : Fields
  angle : Fields
deriving DecidableEq, Repr

/-- The registers of the block (R10 to R16, R19). -/
structure Block where
  /-- `BUF[0..10]` (R10). -/
  buf : FrameBuf
  /-- `SUM` (R11). -/
  sum : Byte
  /-- `IDX`, legal values 0 to 10 (R12). -/
  idx : Fin 11
  /-- `MODE` (R13). -/
  mode : Mode
  /-- `HUNT_CNT` (R19); it counts only where `HUNT_LIMIT` is set. -/
  huntCnt : Nat
  /-- `STATUS` (R14). -/
  status : Status
  /-- `POLL_RESULT` (R15). -/
  pollResult : Bool
  /-- `PCNT`, values 0 to 4 (R15). -/
  pcnt : Fin 5
  /-- `APPLIED` (R15). -/
  applied : Bool
  /-- `RAW` (R16). -/
  raw : Raw
  /-- MODEL'S OWN (log entry 5): a `POLL` has passed its gate and has not ended, so that the reader at work serves it. -/
  polling : Bool
  /-- MODEL'S OWN (log entry 12): a `READ_FRAME` has ended since the last `READ_FRAME` or `POLL` started, so that `BUF` is that of the
  last result and the decoder's outputs may be read after a frame (R178). -/
  outValid : Bool
deriving DecidableEq, Repr

/-! ### The environment -/

/-- One use of an environment primitive and its answer (R31 to R33). -/
inductive Exchange where
  | linkUp (up : Bool)
  | rxCount (n : Nat)
  | rxRead (answer : Option Byte)
deriving DecidableEq, Repr

/-- The environment behind `RxRead`, `RxCount` and `LinkUp` (R30 to R34), MODEL'S OWN as data (log entries 6 and 7). While the
connection is open it obeys E1 and E2 of R34 by its form, and nothing more is assumed of it; a closed connection answers no data
(R33, R155). -/
structure Env where
  /-- The bytes the receiver holds, oldest first (R30); their number is `RxCount()` (R32). -/
  fifo : List Byte
  /-- The answers to the coming read attempts on an empty receiver (E3): a byte that arrives while the read waits, or no data. -/
  waits : List (Option Byte)
  /-- The answer to every read attempt on an empty receiver after those: no data for ever, or the same byte for ever (R92). -/
  tail : Option Byte
  /-- Whether the connection is open at the coming link samples and read attempts, one entry for each, where it changes while an
  operation runs (R33). -/
  links : List Bool
  /-- Whether the connection is open now, and stays so when `links` is empty. -/
  link : Bool
  /-- Every exchange so far, newest first. -/
  log : List Exchange
deriving DecidableEq, Repr

/-! ### The caller -/

/-- What the world outside does to the machine in one step: the caller's start strobes and reset (R60, R160), and the
environment's own moves between exchanges (R33, R40). -/
inductive Input where
  /-- Nothing: the block goes on with what it is doing. -/
  | quiet
  /-- The caller issues an operation and waits for its completion (R42): the operation level of R8, one step. -/
  | issue (op : OpCode)
  /-- The caller strobes `start` and the model watches the operation from exchange to exchange: the byte-step level of R80. -/
  | strobe (op : OpCode)
  /-- The reset input (R160 to R162). -/
  | reset
  /-- A byte arrives at the receiver (R40). -/
  | arrive (b : Byte)
  /-- The connection opens or goes away (R33). -/
  | setLink (up : Bool)
deriving DecidableEq, Repr

/-- What an operation returns to the caller. -/
inductive Reply where
  /-- `READ_FRAME` (R70): `STATUS`, and the 11 bytes exactly when it is `FRAME`. -/
  | read (status : Status) (frame : Option FrameBuf)
  /-- `POLL` (R120): `POLL_RESULT`. -/
  | poll (result : Bool)
  /-- `GET_ACC`, `GET_GYRO`, `GET_ANGLE` (R128 to R130): three field patterns, with the kind that fixes their reading. -/
  | fields (kind : Kind) (value : Fields)
deriving DecidableEq, Repr

/-- The caller's side, MODEL'S OWN (log entry 8). -/
structure Caller where
  /-- The coming inputs, one a step; after them nothing more is done to the machine. -/
  inputs : List Input
  /-- The result of the last operation that returned one; `none` while a `READ_FRAME` or `POLL` is under way. -/
  reply : Option Reply
deriving DecidableEq, Repr

/-! ### The machine -/

/-- The whole machine: the block, what surrounds it, and the parameters of R6. -/
structure State where
  blk : Block
  env : Env
  caller : Caller
  params : Params
  /-- MODEL'S OWN (log entry 3): how many free bytes have been drawn. -/
  draws : Nat
deriving DecidableEq, Repr

/-- No fault exists: "A model gives every operation a total meaning on its inputs; it has no fault outcome and no stuck state
of the block itself" (R140). The type is empty, so nothing can raise one. -/
inductive Fault where
deriving DecidableEq, Repr

/-- The reasons a step has no meaning. -/
inductive Refusal where
  /-- Raised by an arm of `exec` whose instruction has no meaning yet; no arm does. Safe: the run stops where the block goes on. -/
  | notModelled (mnemonic : String)
  /-- Raised by every operation started while another runs: outside the spec, "a model gives it no meaning (refuses it) rather
  than choosing an interleaving" (R170, U15). Safe: the run stops. -/
  | startWhileBusy
deriving DecidableEq, Repr

/-! ### Reset -/

/-- The registers at reset, `BUF` apart (the table of R20). -/
def Block.atReset (buf : FrameBuf) : Block where
  buf := buf
  sum := 0x00
  idx := 0
  mode := .idle
  huntCnt := 0
  status := .noData
  pollResult := false
  pcnt := 0
  applied := false
  raw := ⟨.zero, .zero, .zero⟩
  polling := false
  outValid := false

/-- An environment in which nothing has arrived and nothing will, with the link up (DESIGN CHOICE, log entry 2): R161 leaves
the environment to itself, and the spec's own vectors start from a live link. -/
def Env.quiet : Env := ⟨[], [], none, [], true, []⟩

/-- The machine right after reset (R20, R160): `BUF`, which the spec leaves unspecified, is zero here (DESIGN CHOICE, log
entry 1), and the parameters have their defaults (R6). -/
def State.reset : State where
  blk := .atReset (Vector.replicate 11 0)
  env := .quiet
  caller := ⟨[], none⟩
  params := .default
  draws := 0

end Sys2Proof.Machine
end

