-- ==== Sys2Proof/Machine/Flags.lean ====
section
/-! DEFINITION. The status codes and the flag computations. `STATUS` is the only status flag (R14): there is no carry, zero,
overflow or sign flag. `POLL_RESULT` and `APPLIED` are the poll's own (R15, R126). -/

namespace Sys2Proof.Machine

/-- The 2-bit code of `MODE` (R13). -/
def Mode.code : Mode → BitVec 2
  | .idle => 0
  | .hunt => 1
  | .collect => 2

/-- The 2-bit code of `STATUS` (R14). -/
def Status.code : Status → BitVec 2
  | .noData => 0
  | .underrun => 1
  | .badChecksum => 2
  | .frame => 3

/-- `FRAME_VALID` (R14, R18). -/
def Block.frameValid (k : Block) : Bool := k.status == .frame

/-- An operation is under way: the reader is at work, or a poll is between iterations (the `busy` of D3). -/
def Block.busy (k : Block) : Bool := k.mode != .idle || k.polling

/-- The outcome of a complete candidate (R76): its last byte against the sum, 8-bit equality. -/
def verdict (last sum : Byte) : Status := if last = sum then .frame else .badChecksum

/-- The Boolean of a cycle that ran (R126). -/
def cycleResult (mode : PollReturnMode) (applied : Bool) : Bool :=
  match mode with
  | .cycleRan => true
  | .frameApplied => applied

end Sys2Proof.Machine
end

