-- ==== Sys2Proof/Machine/Operands.lean ====
section
/-! DEFINITION. Readings of a frame's fields (R104) and the outputs computed from the state (R18). -/

namespace Sys2Proof.Machine

/-- The `KIND` code (R58). -/
def kindCode : Kind → BitVec 2
  | .acc => 0
  | .gyro => 1
  | .angle => 2
  | .unknown => 3

/-- `signed16` (R7): two's complement. -/
def signed16 (v : Field16) : Int := if v.toNat < 32768 then v.toNat else (v.toNat : Int) - 65536

/-- `unsigned16` (R7). -/
def unsigned16 (v : Field16) : Int := v.toNat

/-- `FieldValue(kind, v)` (R104). Angles are unsigned, and stay so (U6); an UNKNOWN frame's reading is undefined, a free value
(log entry 4). -/
def fieldValue (kind : Kind) (v : Field16) : Int :=
  match kind with
  | .acc => signed16 v
  | .gyro => signed16 v
  | .angle => unsigned16 v
  | .unknown => Config.unknownReading v

/-- `FIELD_SIGNED` of a kind (R18). -/
def fieldSigned : Kind → Bool
  | .acc => true
  | .gyro => true
  | .angle => false
  | .unknown => false

/-- The decoder's outputs to the caller (R18). -/
structure Outputs where
  frame : FrameWord
  kind : BitVec 2
  x : Field16
  y : Field16
  z : Field16
  fieldSigned : Bool
deriving DecidableEq, Repr

/-- `FRAME`, `KIND`, `X`, `Y`, `Z`, `FIELD_SIGNED` (R18) where the caller may read them: while `STATUS = FRAME` and until the next
`READ_FRAME` or `POLL` starts, a `POLL` that is then deferred among them (R178, D21). Elsewhere they are unspecified (R101, U5), and
the model gives no output there (DESIGN CHOICE, log entry 12). -/
def Block.outputs (k : Block) : Option Outputs :=
  if k.frameValid && k.outValid && !k.busy then
    some ⟨frameWord k.buf, kindCode (decodeFields k.buf).1, (fieldsOf k.buf).x, (fieldsOf k.buf).y, (fieldsOf k.buf).z,
      fieldSigned (decodeFields k.buf).1⟩
  else none

/-- `RAW[k]` of a kind; an UNKNOWN frame has no latch group (R16). -/
def Raw.get (r : Raw) : Kind → Option Fields
  | .acc => some r.acc
  | .gyro => some r.gyro
  | .angle => some r.angle
  | .unknown => none

/-- The three latches of one kind written in one step, the other six kept, so that writes of different kinds
commute; nothing for an UNKNOWN frame (R110, R112). -/
def Raw.store (r : Raw) (kind : Kind) (v : Fields) : Raw :=
  match kind with
  | .acc => ⟨v, r.gyro, r.angle⟩
  | .gyro => ⟨r.acc, v, r.angle⟩
  | .angle => ⟨r.acc, r.gyro, v⟩
  | .unknown => r

end Sys2Proof.Machine
end

