-- ==== Sys2Proof/Machine/Ops.lean ====
section
/-! DEFINITION. The named operations over the environment and the registers: the three environment primitives (R31 to R33),
the register updates of the reader and the poll, `finish` (R78), which is what a condition does in place of an exception
(R150), and the start of an operation (R170). -/

namespace Sys2Proof.Machine

/-! ### Environment primitives -/

/-- The connection as the coming exchange finds it (R33). -/
def Env.tick (e : Env) : Env :=
  match e.links with
  | up :: rest => { e with links := rest, link := up }
  | [] => e

/-- A read attempt on an open connection (R31): the oldest byte of the receiver, or what a read on an empty receiver gets (E3); every
successful read is destructive (R36). -/
def Env.receive (e : Env) : Option Byte × Env :=
  match e.fifo with
  | b :: rest => (some b, { e with fifo := rest, log := .rxRead (some b) :: e.log })
  | [] =>
    match e.waits with
    | a :: rest => (a, { e with waits := rest, log := .rxRead a :: e.log })
    | [] => (e.tail, { e with log := .rxRead e.tail :: e.log })

/-- `RxRead()` (R31): on a connection that has gone away, no data, and nothing is removed (R33, R155). -/
def Env.rxRead (e : Env) : Option Byte × Env :=
  if e.tick.link then e.tick.receive else (none, { e.tick with log := .rxRead none :: e.log })

/-- `RxCount()` (R32): how many bytes the receiver holds. -/
def Env.rxCount (e : Env) : Nat × Env := (e.fifo.length, { e with log := .rxCount e.fifo.length :: e.log })

/-- `LinkUp()` (R33): the environment's answer at this moment. -/
def Env.linkUp (e : Env) : Bool × Env := (e.tick.link, { e.tick with log := .linkUp e.tick.link :: e.log })

/-- The answers of `n` successive read attempts and the environment after them: the sequence `a` of R93. -/
def Env.reads : Nat → Env → List (Option Byte) × Env
  | 0, e => ([], e)
  | n + 1, e => (e.rxRead.1 :: (Env.reads n e.rxRead.2).1, (Env.reads n e.rxRead.2).2)

/-- A byte arrives behind those already there (R40). -/
def Env.arrive (b : Byte) (e : Env) : Env := { e with fifo := e.fifo ++ [b] }

/-- The connection opens or closes, and stays so (R33, R155). -/
def Env.setLink (up : Bool) (e : Env) : Env := { e with links := [], link := up }

/-! ### The reader's registers -/

/-- `finish(s)` (R78): `STATUS <- s; MODE <- IDLE; IDX <- 0`. Every condition of R141 that the reader meets ends here, and
saves nothing else (R150). -/
def Block.finish (st : Status) (k : Block) : Block := { k with status := st, mode := .idle, idx := 0, outValid := true }

/-- The start of every `READ_FRAME` (R70, R74): nothing is carried over from an earlier operation, and the
outputs of the last result end (R178). -/
def Block.beginHunt (k : Block) : Block := { k with mode := .hunt, idx := 0, sum := 0, huntCnt := 0, outValid := false }

/-- The marker becomes frame byte 0 (R73). -/
def Block.markerFound (k : Block) : Block :=
  { k with buf := k.buf.set 0 Config.marker, sum := Config.marker, idx := 1, mode := .collect }

/-- `HUNT_CNT <- HUNT_CNT + 1` where `HUNT_LIMIT` is set (R84, R92). -/
def Block.countDiscard (limit : Option Nat) (k : Block) : Block :=
  match limit with
  | none => k
  | some _ => { k with huntCnt := k.huntCnt + 1 }

/-- Whether the count of discarded bytes has reached the limit (R92). -/
def Block.limitReached (limit : Option Nat) (k : Block) : Bool := limit == some k.huntCnt

/-- `BUF[IDX] <- b` (R37, R74). -/
def Block.store (b : Byte) (k : Block) : Block := { k with buf := k.buf.set k.idx.val b k.idx.isLt }

/-- `SUM <- (SUM + b) mod 256` (R75). -/
def Block.accumulate (b : Byte) (k : Block) : Block := { k with sum := k.sum + b }

/-- The index after `IDX`; `IDX` never holds 11 (R12). -/
def nextIdx (i : Fin 11) : Fin 11 := if h : i.val + 1 < 11 then ⟨i.val + 1, h⟩ else 0

/-- `IDX <- IDX + 1` (R12). -/
def Block.advance (k : Block) : Block := { k with idx := nextIdx k.idx }

/-- The registers after all 11 bytes `b` of a candidate: as the marker and ten collected bytes leave them, then step 4 of the
reader (R73 to R76). -/
def Block.takeCandidate (b : FrameBuf) (k : Block) : Block :=
  { k with buf := b, sum := checksum b }.finish (verdict b[10] (checksum b))

/-! ### The poll's registers -/

/-- `Apply(kind, x, y, z)` (R110), the only writer of the latches besides reset; applies of different kinds commute, and without one
the latches are constant (R112). -/
def Block.apply (kind : Kind) (v : Fields) (k : Block) : Block :=
  match kind with
  | .unknown => k
  | kind => { k with raw := k.raw.store kind v, applied := true }

/-- Decode and apply after a reader invocation, where it ended with a frame (R120, R124). -/
def Block.applyRead (k : Block) : Block :=
  match k.status with
  | .frame => k.apply (decodeFields k.buf).1 (decodeFields k.buf).2
  | _ => k

/-- `PCNT <- 0; APPLIED <- 0` (R120); the outputs of the last result end (R178). -/
def Block.beginPoll (k : Block) : Block := { k with pcnt := 0, applied := false, outValid := false }

/-- The gate is passed: the cycle runs. -/
def Block.openCycle (k : Block) : Block := { k with polling := true }

/-- A deferred poll: `POLL_RESULT <- false` and no more (R121, R122). -/
def Block.defer (k : Block) : Block := { k with pollResult := false }

/-- `PCNT` after one more invocation; it never exceeds 4 (R15). -/
def nextPcnt (n : Fin 5) : Fin 5 := if h : n.val + 1 < 5 then ⟨n.val + 1, h⟩ else n

/-- `PCNT <- PCNT + 1` (R120). -/
def Block.countRead (k : Block) : Block := { k with pcnt := nextPcnt k.pcnt }

/-- The early end that `POLL_STOP_ON_NODATA` allows (R125). -/
def Block.stopsEarly (p : Params) (k : Block) : Bool := p.stopOnNoData && k.status == .noData

/-- The end of a cycle: `POLL_RESULT` by `POLL_RETURN_MODE`, then `PCNT <- 0` (R120, R126). -/
def Block.endCycle (p : Params) (k : Block) : Block :=
  { k with pollResult := cycleResult p.returnMode k.applied, pcnt := 0, polling := false }

/-! ### The machine -/

/-- The block and the environment after an operation's exchanges. -/
def State.put (s : State) (r : Block × Env) : State := { s with blk := r.1, env := r.2 }

/-- The block alone changes. -/
def State.setBlk (s : State) (k : Block) : State := { s with blk := k }

/-- The environment alone changes. -/
def State.setEnv (s : State) (e : Env) : State := { s with env := e }

/-- What the caller holds as the last result. -/
def State.setReply (s : State) (r : Option Reply) : State := { s with caller := ⟨s.caller.inputs, r⟩ }

/-- The inputs still to come. -/
def State.setInputs (s : State) (l : List Input) : State := { s with caller := ⟨l, s.caller.reply⟩ }

/-- Every operation is started here: one started while another runs has no meaning (R170, U15). -/
def whenIdle (s : State) (f : State → State) : Host.Outcome State Fault Refusal :=
  if s.blk.busy then .refused .startWhileBusy else .next (f s)

/-- The 11 free bytes of the `n`-th draw (log entry 3). -/
def freeBuf (n : Nat) : FrameBuf := Vector.ofFn fun i : Fin 11 => Config.freeByte (n + i.val)

/-- The reset input (R160 to R162): every register at the value of R20, `BUF` left unspecified, the environment and the
parameters untouched, and no result for an operation it cuts short (U19). -/
def State.resetInput (s : State) : State :=
  { s with blk := .atReset (freeBuf s.draws), draws := s.draws + 11, caller := ⟨s.caller.inputs, none⟩ }

end Sys2Proof.Machine
end

