-- ==== Sys2Proof/Machine/Reader.lean ====
section
/-! DEFINITION. `READ_FRAME` at the operation level, the sequential pseudocode of R70, and its meaning. -/

namespace Sys2Proof.Machine

/-- How a hunt ends (R72). -/
inductive HuntEnd where
  /-- The marker was read. -/
  | found (k : Block) (e : Env)
  /-- The operation ended: no data, or `HUNT_LIMIT` reached (R92). -/
  | over (k : Block) (e : Env)
  /-- No answer the environment will ever give ends it: the hunt still runs (R92, R173, U18). -/
  | going (k : Block) (e : Env)
deriving DecidableEq, Repr

/-- The hunt loop of R70, for at most `n` read attempts. -/
def hunt (p : Params) : Nat → Block → Env → HuntEnd
  | 0, k, e => .going k e
  | n + 1, k, e =>
    match e.rxRead with
    | (none, e') => .over (k.finish .noData) e'
    | (some b, e') =>
      if b = Config.marker then .found k e'
      else if (k.countDiscard p.huntLimit).limitReached p.huntLimit then
        .over ((k.countDiscard p.huntLimit).finish .noData) e'
      else hunt p n (k.countDiscard p.huntLimit) e'

/-- So many read attempts decide a hunt: every listed answer and change of the connection, one more that shows what the source
answers for ever after, and the bytes `HUNT_LIMIT` allows (log entry 7). A hunt that outlasts them never ends by itself. -/
def huntBound (p : Params) (e : Env) : Nat := e.fifo.length + e.waits.length + e.links.length + p.huntLimit.getD 0 + 1

/-- The collect loop of R70, from `IDX` up to 10, and the comparison of step 4 (R74 to R77), for at most `n` read attempts. -/
def collect : Nat → Block → Env → Block × Env
  | 0, k, e => (k, e)
  | n + 1, k, e =>
    match e.rxRead with
    | (none, e') => (k.finish .underrun, e')
    | (some b, e') =>
      if k.idx.val ≤ 9 then collect n ((k.store b).accumulate b).advance e'
      else ((k.store b).finish (verdict (k.store b).buf[10] (k.store b).sum), e')

/-- `READ_FRAME()` (R70). `MODE` is `IDLE` afterwards exactly when the operation has ended; a hunt that never ends leaves the
block hunting. -/
def readFrame (p : Params) (k : Block) (e : Env) : Block × Env :=
  match e.linkUp with
  | (false, e') => (k.beginHunt.finish .noData, e')
  | (true, e') =>
    match hunt p (huntBound p e') k.beginHunt e' with
    | .found k' e'' => collect Config.bodyLen k'.markerFound e''
    | .over k' e'' => (k', e'')
    | .going k' e'' => (k', e'')

/-- The result of a completed `READ_FRAME` (R70): `STATUS`, and the frame exactly when it is `FRAME`. -/
def readReply (k : Block) : Reply := .read k.status (if k.frameValid then some k.buf else none)

/-- A `READ_FRAME` that has ended answers the caller; one still hunting does not. -/
def closeRead (s : State) : State :=
  match s.blk.mode with
  | .idle => s.setReply (some (readReply s.blk))
  | _ => s

/-- `READ_FRAME` (R70). -/
def execReadFrame (s : State) : Host.Outcome State Fault Refusal :=
  whenIdle s fun s => closeRead ((s.setReply none).put (readFrame s.params s.blk s.env))

end Sys2Proof.Machine
end

