-- ==== Sys2Proof/Machine/Poll.lean ====
section
/-! DEFINITION. `POLL` at the operation level, the sequential pseudocode of R120, and its meaning. -/

namespace Sys2Proof.Machine

/-- The loop of R120 for at most `n` iterations, then the end of the cycle. An iteration whose hunt never ends leaves the cycle
running (R173). -/
def pollLoop (p : Params) : Nat → Block → Env → Block × Env
  | 0, k, e => (k.endCycle p, e)
  | n + 1, k, e =>
    if k.pcnt.val < Config.pollMaxFrames then
      match (readFrame p k e).1.mode with
      | .idle =>
        let k' := (readFrame p k e).1.countRead.applyRead
        if k'.stopsEarly p then (k'.endCycle p, (readFrame p k e).2) else pollLoop p n k' (readFrame p k e).2
      | _ => readFrame p k e
    else (k.endCycle p, e)

/-- The gate of R120: the link, then the threshold (R121, R122). It says whether the cycle runs. -/
def pollGate (k : Block) (e : Env) : Bool × Block × Env :=
  match e.linkUp with
  | (false, e') => (false, k.beginPoll.defer, e')
  | (true, e') =>
    if e'.rxCount.1 < Config.pollThreshold then (false, k.beginPoll.defer, e'.rxCount.2)
    else (true, k.beginPoll.openCycle, e'.rxCount.2)

/-- `POLL()` (R120). -/
def poll (p : Params) (k : Block) (e : Env) : Block × Env :=
  match pollGate k e with
  | (false, r) => r
  | (true, k', e') => pollLoop p Config.pollMaxFrames k' e'

/-- A `POLL` that has ended answers the caller (R126); one still hunting does not. -/
def closePoll (s : State) : State :=
  match s.blk.polling with
  | false => s.setReply (some (.poll s.blk.pollResult))
  | true => s

/-- `POLL` (R120). -/
def execPoll (s : State) : Host.Outcome State Fault Refusal :=
  whenIdle s fun s => closePoll ((s.setReply none).put (poll s.params s.blk s.env))

/-- The rest of one iteration once its reader invocation has ended and its frame, if any, is applied: `PCNT` counts it, and the
fourth, or an early stop, ends the cycle (R120, R123, R125). -/
def afterIteration (s : State) : State :=
  if s.blk.countRead.pcnt.val = Config.pollMaxFrames ∨ s.blk.countRead.stopsEarly s.params = true then
    closePoll (s.setBlk (s.blk.countRead.endCycle s.params))
  else s.setBlk s.blk.countRead

end Sys2Proof.Machine
end

