-- ==== Sys2Proof/Machine/ByteStep.lean ====
section
/-! DEFINITION. The byte-step level (R80 to R87): the reader one exchange at a time, and the start of an operation that is
watched so. -/

namespace Sys2Proof.Machine

/-- The start step (R81), of a strobed `READ_FRAME` and of every iteration of a strobed `POLL`: no read attempt. -/
def startRead (k : Block) (e : Env) : Block × Env :=
  match e.linkUp with
  | (false, e') => ({ k with sum := 0, idx := 0, huntCnt := 0, outValid := false }.finish .noData, e')
  | (true, e') => ({ k with sum := 0, idx := 0, huntCnt := 0, outValid := false, mode := .hunt }, e')

/-- A byte met while hunting (R83, R84). -/
def huntByte (p : Params) (b : Byte) (k : Block) : Block :=
  if b = Config.marker then { k with buf := k.buf.set 0 Config.marker, sum := Config.marker, idx := 1, mode := .collect }
  else
    let k' := k.countDiscard p.huntLimit
    if k'.limitReached p.huntLimit then k'.finish .noData else k'

/-- A byte met while collecting (R86). -/
def collectByte (b : Byte) (k : Block) : Block :=
  if k.idx.val ≤ 9 then ((k.store b).accumulate b).advance
  else (k.store b).finish (if b = k.sum then .frame else .badChecksum)

/-- The reader's registers after one answer (R82 to R86). -/
def answerStep (p : Params) (r : Option Byte) (k : Block) : Block :=
  match k.mode, r with
  | .idle, _ => k
  | .hunt, none => k.finish .noData
  | .hunt, some b => huntByte p b k
  | .collect, none => k.finish .underrun
  | .collect, some b => collectByte b k

/-- One exchange of the reader: one answer of the environment, unless it is idle (R80). -/
def readerStep (p : Params) (m : Block × Env) : Block × Env :=
  match m.1.mode with
  | .idle => m
  | _ => (answerStep p m.2.rxRead.1 m.1, m.2.rxRead.2)

/-- What a busy block does next: between two iterations of a poll cycle the start step of the next one (R81), and else one exchange
of the reader. -/
def exchange (p : Params) (m : Block × Env) : Block × Env :=
  match m.1.mode with
  | .idle => startRead m.1 m.2
  | _ => readerStep p m

/-- The end of a reader invocation: a stand-alone `READ_FRAME` answers the caller, an iteration of a poll cycle is counted (R120). -/
def closeReader (s : State) : State := if s.blk.polling then afterIteration s else closeRead s

/-- A start strobe of `READ_FRAME`, watched from exchange to exchange (R80, R81). -/
def strobeReadFrame (s : State) : Host.Outcome State Fault Refusal :=
  whenIdle s fun s => closeRead ((s.setReply none).put (startRead s.blk s.env))

/-- A start strobe of `POLL`: the gate, and the cycle left to the steps that follow (R120). -/
def strobePoll (s : State) : Host.Outcome State Fault Refusal :=
  whenIdle s fun s => closePoll ((s.setReply none).put (pollGate s.blk s.env).2)

/-- What a reader invocation that has ended has fetched: a whole candidate, whose 11 bytes stand in `BUF`, or none. -/
def fetched (k : Block) : Option Instr :=
  match k.status with
  | .frame => some (decodeFrame k.buf)
  | .badChecksum => some (decodeFrame k.buf)
  | .noData => none
  | .underrun => none

/-- The state in which the next instruction of the machine is the frame whose bytes are `bs`: a poll cycle in its first iteration, the
connection open, ten of the bytes collected and the eleventh first in the receiver. -/
def State.withFrameBytes (s : State) (bs : List Byte) : State :=
  let b : FrameBuf := Vector.ofFn fun i => bs.getD i.val 0
  { s with
    blk := { s.blk with
      buf := b.set 10 s.blk.buf[10], sum := checksum b, idx := 10, mode := .collect, polling := true, pcnt := 0, outValid := false }
    env := { s.env with fifo := b[10] :: s.env.fifo, links := [], link := true }
    caller := ⟨.quiet :: s.caller.inputs, s.caller.reply⟩ }

/-- The state in which the next instruction of the machine is the operation `c`: the block idle, and the caller about to issue it. -/
def State.withOp (s : State) (c : OpCode) : State :=
  { s with
    blk := { s.blk with mode := .idle, polling := false }
    caller := ⟨.issue c :: s.caller.inputs, s.caller.reply⟩ }

end Sys2Proof.Machine
end

