-- ==== Sys2Proof/Machine/Accessors.lean ====
section
/-! DEFINITION. The accessors `GET_ACC`, `GET_GYRO`, `GET_ANGLE` (R128 to R131). They read the latches and write no state of the
block; what they return goes to the caller. -/

namespace Sys2Proof.Machine

/-- `GET_ACC` (R128). -/
def execGetAcc (s : State) : Host.Outcome State Fault Refusal :=
  whenIdle s fun s => s.setReply (some (.fields .acc s.blk.raw.acc))

/-- `GET_GYRO` (R129). -/
def execGetGyro (s : State) : Host.Outcome State Fault Refusal :=
  whenIdle s fun s => s.setReply (some (.fields .gyro s.blk.raw.gyro))

/-- `GET_ANGLE` (R130). -/
def execGetAngle (s : State) : Host.Outcome State Fault Refusal :=
  whenIdle s fun s => s.setReply (some (.fields .angle s.blk.raw.angle))

end Sys2Proof.Machine
end

