-- ==== Sys2Proof/Machine/Frames.lean ====
section
/-! DEFINITION. The four frame rows (R106 to R109): what the block does with a candidate, the 11 bytes the reader has taken from
the stream. Accepted or discarded, it fills `BUF` and `SUM` and decides `STATUS`; accepted while a poll cycle runs, it is applied
(R110: a stand-alone `READ_FRAME` does not apply). -/

namespace Sys2Proof.Machine

/-- The block after the candidate with header `h`, whose row is of kind `kind` (R59, R76, R110, R124). -/
def runFrame (h : Byte) (kind : Kind) (p : Payload) (k : Block) : Block :=
  let k' := k.takeCandidate (frameBytes h p)
  if k'.frameValid && k'.polling then k'.apply kind p.fields else k'

/-- `FRAME.ACC` (R106). -/
def execFrameAcc (p : Payload) (s : State) : Host.Outcome State Fault Refusal :=
  .next (s.setBlk (runFrame Config.hdrAcc .acc p s.blk))

/-- `FRAME.GYRO` (R107). -/
def execFrameGyro (p : Payload) (s : State) : Host.Outcome State Fault Refusal :=
  .next (s.setBlk (runFrame Config.hdrGyro .gyro p s.blk))

/-- `FRAME.ANGLE` (R108). -/
def execFrameAngle (p : Payload) (s : State) : Host.Outcome State Fault Refusal :=
  .next (s.setBlk (runFrame Config.hdrAngle .angle p s.blk))

/-- `FRAME.UNKNOWN` (R109): accepted like any other, and nothing is applied. -/
def execFrameUnknown (hdr : Byte) (p : Payload) (s : State) : Host.Outcome State Fault Refusal :=
  .next (s.setBlk (runFrame hdr .unknown p s.blk))

end Sys2Proof.Machine
end

