-- ==== Sys2Proof/Machine/Reserved.lean ====
section
/-! DEFINITION. The reserved operation codes 0, 3 and 7 (R61): each completes at once, reads nothing from the environment and
changes no state. -/

namespace Sys2Proof.Machine

/-- `OP = 0` (R61). -/
def execReservedOp0 (s : State) : Host.Outcome State Fault Refusal := whenIdle s fun s => s

/-- `OP = 3` (R61). -/
def execReservedOp3 (s : State) : Host.Outcome State Fault Refusal := whenIdle s fun s => s

/-- `OP = 7` (R61). -/
def execReservedOp7 (s : State) : Host.Outcome State Fault Refusal := whenIdle s fun s => s

end Sys2Proof.Machine
end

