-- ==== Sys2Proof/Machine/Dispatch.lean ====
section
/-! DEFINITION. One arm per instruction, each one call of its meaning. -/

namespace Sys2Proof.Machine

def exec (i : Instr) (s : State) : Host.Outcome State Fault Refusal :=
  match i with
  | .frameAcc p => Sys2Proof.Machine.execFrameAcc p s
  | .frameGyro p => Sys2Proof.Machine.execFrameGyro p s
  | .frameAngle p => Sys2Proof.Machine.execFrameAngle p s
  | .frameUnknown hdr p => Sys2Proof.Machine.execFrameUnknown hdr p s
  | .readFrame => Sys2Proof.Machine.execReadFrame s
  | .poll => Sys2Proof.Machine.execPoll s
  | .getAcc => Sys2Proof.Machine.execGetAcc s
  | .getGyro => Sys2Proof.Machine.execGetGyro s
  | .getAngle => Sys2Proof.Machine.execGetAngle s
  | .reservedOp0 => Sys2Proof.Machine.execReservedOp0 s
  | .reservedOp3 => Sys2Proof.Machine.execReservedOp3 s
  | .reservedOp7 => Sys2Proof.Machine.execReservedOp7 s

end Sys2Proof.Machine
end

