-- ==== Sys2Proof/Machine/Cycle.lean ====
section
/-! DEFINITION. How an operation that was strobed goes on (R80): exchange by exchange, and at the end of a reader invocation the
decode and execution of what it has fetched. -/

namespace Sys2Proof.Machine

/-- After an exchange: a reader that goes on is left to the next step; one that has ended has fetched a candidate, which is decoded
and executed (R76, R124), or none, and the invocation is closed. -/
def conclude (s : State) : Host.Outcome State Fault Refusal :=
  match s.blk.mode with
  | .idle =>
    match fetched s.blk with
    | none => .next (closeReader s)
    | some i =>
      match exec i s with
      | .next t => .next (closeReader t)
      | .fault f => .fault f
      | .refused r => .refused r
  | _ => .next s

/-- The block goes on by itself: a busy block makes one exchange (R80, R81, R123), and an idle one keeps all state (R154). -/
def carryOn (s : State) : Host.Outcome State Fault Refusal :=
  if s.blk.busy then conclude (s.put (exchange s.params (s.blk, s.env))) else .next s

/-- A start strobe (R80): `READ_FRAME` and `POLL` are begun and left running, every other operation completes at once. -/
def strobe (c : OpCode) (s : State) : Host.Outcome State Fault Refusal :=
  match decodeOp c with
  | .readFrame => strobeReadFrame s
  | .poll => strobePoll s
  | i => exec i s

end Sys2Proof.Machine
end

