-- ==== Sys2Proof/Machine/Step.lean ====
section
/-! DEFINITION. One step of the machine. The next input decides: an operation issued by the caller runs whole (the operation
level, which is normative, R8), a strobed one is begun, reset and the environment's moves happen, and otherwise the block goes on
with what it is doing. -/

namespace Sys2Proof.Machine

/-- One step. -/
def step (s : State) : Host.Outcome State Fault Refusal :=
  match s.caller.inputs with
  | [] => carryOn s
  | .quiet :: rest => carryOn (s.setInputs rest)
  | .issue c :: rest => exec (decodeOp c) (s.setInputs rest)
  | .strobe c :: rest => strobe c (s.setInputs rest)
  | .reset :: rest => .next (s.setInputs rest).resetInput
  | .arrive b :: rest => .next ((s.setInputs rest).setEnv (s.env.arrive b))
  | .setLink up :: rest => .next ((s.setInputs rest).setEnv (s.env.setLink up))

/-- The state whose next step fetches and runs the instruction of a table word: an operation is what the caller issues next, a
frame is the candidate that the first iteration of a poll cycle is about to complete (log entry 10). -/
def State.withFetchWord (s : State) (nbits w : Nat) : State :=
  let bs := tableBytes nbits w
  let b := bs.headD 0
  if b.toNat < 8 then s.withOp (b.setWidth 3) else s.withFrameBytes bs

end Sys2Proof.Machine
end

