-- ==== Sys2Proof/Safety.lean ====
section
/-! DEFINITION. What the claims call a sound state: the invariants of R22, the history behind the latches, and the functional
form of the reader (R93). -/

namespace Sys2Proof.Machine

/-- The modulo-256 sum of the first `n` bytes of a buffer. -/
def partialSum (b : FrameBuf) (n : Nat) : Byte := (b.toList.take n).foldl (· + ·) 0

/-- R22 (a), (b) and (c). Clause (b) is stated of a reader at rest: while a candidate is being collected `STATUS` is still that
of the operation before (R14), and `BUF` already changes (R78, R178). Outside an operation `PCNT = 0`; inside a poll cycle the
count between steps is below 4. -/
abbrev Block.Inv (k : Block) : Prop :=
  (k.polling = false → k.pcnt = 0) ∧ (k.polling = true → k.pcnt.val < 4) ∧
  (k.mode = .idle → k.idx = 0) ∧
  (k.mode = .hunt → k.idx = 0 ∧ k.sum = 0) ∧
  (k.mode = .collect → 1 ≤ k.idx.val ∧ k.buf[0] = Config.marker ∧ k.sum = partialSum k.buf k.idx.val) ∧
  (k.mode = .idle → k.status = .frame → isFrame k.buf = true)

/-- The first `n` bytes of a buffer as successive successful reads, newest first, as they stand in `Env.log`. -/
def readsOf (b : FrameBuf) (n : Nat) : List Exchange :=
  ((b.toList.take n).map fun x => Exchange.rxRead (some x)).reverse

/-- An accepted frame of kind `kind` with fields `v` was read, byte after byte, from the stream. -/
def Delivered (log : List Exchange) (kind : Kind) (v : Fields) : Prop :=
  ∃ b : FrameBuf, isFrame b = true ∧ classify b[1] = kind ∧ fieldsOf b = v ∧ readsOf b 11 <:+: log

/-- R22 (d): every latch group is zero or holds the three fields of an accepted frame of its kind that the stream delivered;
with what makes it inductive, that the bytes of a candidate under collection are the newest reads. -/
structure State.Genuine (s : State) : Prop where
  blockInv : s.blk.Inv
  latch : ∀ kind v, s.blk.raw.get kind = some v → v = Fields.zero ∨ Delivered s.env.log kind v
  collecting : s.blk.mode = .collect → readsOf s.blk.buf s.blk.idx.val <+: s.env.log

/-- A step that goes wrong in no way the spec rules out: it has a next state, or the caller broke the rule of R170. -/
def SafeStep (s : State) : Prop :=
  (∃ t, step s = .next t) ∨
    (step s = .refused .startWhileBusy ∧ s.blk.busy = true ∧
      ∃ c rest, s.caller.inputs = .issue c :: rest ∨ s.caller.inputs = .strobe c :: rest)

/-- `n` steps, as far as they go. -/
def run : Nat → State → Host.Outcome State Fault Refusal
  | 0, s => .next s
  | n + 1, s =>
    match step s with
    | .next t => run n t
    | .fault f => .fault f
    | .refused r => .refused r

/-- `ReadFrame(a)` of R93 on the answers listed so far: the status, the frame if any, and the number of read attempts; `none` where
these answers do not yet decide the operation. -/
def readFrameForm (a : List (Option Byte)) : Option (Status × Option (List Byte) × Nat) :=
  let g := (a.takeWhile fun r => r != none && r != some Config.marker).length
  match a.drop g with
  | [] => none
  | none :: _ => some (.noData, none, g + 1)
  | some _ :: c =>
    match (c.take 10).findIdx? (· == none) with
    | some j => some (.underrun, none, g + j + 2)
    | none =>
      if c.length < 10 then none
      else
        let b := Config.marker :: (c.take 10).reduceOption
        if b.getLastD 0 = (b.take 10).foldl (· + ·) 0 then some (.frame, some b, g + 11)
        else some (.badChecksum, none, g + 11)

/-! ### Premises and measures of the claims -/

/-- No byte of `g` is the start marker: what a hunt discards (R72). -/
def Garbage (g : List Byte) : Prop := ∀ b ∈ g, b ≠ Config.marker

/-- `HUNT_LIMIT` lets a hunt discard `n` bytes and go on (R92). -/
def LimitAllows (p : Params) (n : Nat) : Prop := ∀ m, p.huntLimit = some m → n < m

/-- `HUNT_CNT` after `n` discarded bytes: it counts only where `HUNT_LIMIT` is set (R19). -/
def countAfter (p : Params) (n : Nat) : Nat := if p.huntLimit.isSome then n else 0

/-- How many times `LinkUp()` was read: once per `READ_FRAME` and once per `POLL` (R33). -/
def linkSamples (log : List Exchange) : Nat := log.countP fun x => match x with | .linkUp _ => true | _ => false

/-- How many read attempts were made (R90). -/
def readAttempts (log : List Exchange) : Nat := log.countP fun x => match x with | .rxRead _ => true | _ => false

/-- How many times `RxCount()` was read (R32). -/
def countSamples (log : List Exchange) : Nat := log.countP fun x => match x with | .rxCount _ => true | _ => false

/-- The connection is open and stays open while the operations to come make their exchanges (R33). -/
def Env.StaysOpen (e : Env) : Prop := (∀ up ∈ e.links, up = true) ∧ (e.links = [] → e.link = true)

/-- The bytes that successful reads returned, oldest first. -/
def bytesRead (log : List Exchange) : List Byte := log.reverse.filterMap fun x => match x with | .rxRead a => a | _ => none

/-- What the exchanges between two environments left and returned: the new reads returned exactly the oldest bytes held and then the
oldest waiting answers, in order, and after all of those what the source answers for ever; nothing else was removed, and a coming
change of the connection was used up, in order, or is still to come (R30, R33, R36, R40). -/
def ReadOnly (e e' : Env) : Prop :=
  ∃ (new : List Exchange) (held : List Byte) (waited : List (Option Byte)) (m : Nat) (changes : List Bool),
    e'.log = new ++ e.log ∧ e.fifo = held ++ e'.fifo ∧ e.waits = waited ++ e'.waits ∧ e.links = changes ++ e'.links ∧
    e'.link = changes.getLastD e.link ∧ e'.tail = e.tail ∧
    bytesRead new = held ++ waited.reduceOption ++ (List.replicate m e.tail).reduceOption ∧
    (waited ≠ [] → e'.fifo = []) ∧ (m ≠ 0 → e'.fifo = [] ∧ e'.waits = [])

/-- Nothing is done to the machine in the next step, and `rest` is to come. -/
def QuietNext (s : State) (rest : List Input) : Prop :=
  s.caller.inputs = .quiet :: rest ∨ (s.caller.inputs = [] ∧ rest = [])

/-- `READ_FRAME`, the count and the apply, one turn of the loop of R120 on the block and its environment. -/
def iteration (p : Params) (m : Block × Env) : Block × Env :=
  ((readFrame p m.1 m.2).1.countRead.applyRead, (readFrame p m.1 m.2).2)

/-- An iteration whose reader left this block is the last of its cycle for want of data (R125). -/
def StopsForNoData (p : Params) (k : Block) : Prop := p.stopOnNoData = true ∧ k.status = .noData

/-- From `s`, where the reader invocation of an iteration has ended and its frame, if any, is applied, to `t`, where the iteration is
counted: the fourth, or one that stops for want of data, ends the cycle and answers the caller, and after any other the cycle goes on
(R120, R123, R125, R126). -/
def IterationCounted (s t : State) : Prop :=
  (s.blk.pcnt.val + 1 = 4 ∨ StopsForNoData s.params s.blk →
    t = { s with
      blk := { s.blk with pollResult := cycleResult s.params.returnMode s.blk.applied, pcnt := 0, polling := false }
      caller := ⟨s.caller.inputs, some (.poll (cycleResult s.params.returnMode s.blk.applied))⟩ }) ∧
  (s.blk.pcnt.val + 1 < 4 → ¬ StopsForNoData s.params s.blk →
    t = { s with blk := { s.blk with pcnt := t.blk.pcnt } } ∧ t.blk.pcnt.val = s.blk.pcnt.val + 1)

/-- A `READ_FRAME` on the environment `e` that ends with `st` and no whole candidate after `n` exchanges, the last leaving `e'`: a
dead link, a hunt that runs dry, `HUNT_LIMIT` reached, or an underrun (R71, R72, R77, R92). -/
def EndsWithoutCandidate (p : Params) (e : Env) (n : Nat) (st : Status) (e' : Env) : Prop :=
  (n = 1 ∧ st = .noData ∧ e.linkUp = (false, e')) ∨
  ∃ (e1 : Env) (g : List Byte), e.linkUp = (true, e1) ∧ Garbage g ∧
    ((n = g.length + 2 ∧ st = .noData ∧ LimitAllows p g.length ∧ e1.reads (g.length + 1) = (g.map some ++ [none], e')) ∨
     (n = g.length + 1 ∧ st = .noData ∧ 1 ≤ g.length ∧ p.huntLimit = some g.length ∧ e1.reads g.length = (g.map some, e')) ∨
     ∃ c : List Byte, n = g.length + c.length + 3 ∧ st = .underrun ∧ LimitAllows p g.length ∧ c.length ≤ 9 ∧
       e1.reads (g.length + c.length + 2) = (g.map some ++ some Config.marker :: (c.map some ++ [none]), e'))

end Sys2Proof.Machine
end

