-- ==== Sys2Proof/Certificates/Slice0/Obligations.lean ====
section
/-! DEFINITION. The statements for the provers, from the numbered rules of spec/. -/

open Sys2Proof Sys2Proof.Machine

/-! ### Encoding -/

/-- Decode after encode is the identity, for every instruction and every operand value its encoding admits (R50, R51, R54, R58, R60). -/
def Obligations.DecodeOfEncodeIsTheInstruction : Prop :=
  ∀ (i : Instr) (rest : List Byte), i.wf = true → decode (encode i ++ rest) = .ok (i, rest)

/-- Encode after decode is the identity: whatever is decoded is well formed and its bytes are its encoding, so no two instructions
share an encoding and no bit of one is dropped. -/
def Obligations.DecodedBytesAreTheEncoding : Prop :=
  ∀ (bs : List Byte) (i : Instr) (rest : List Byte), decode bs = .ok (i, rest) → i.wf = true ∧ bs = encode i ++ rest

/-- Bytes that begin neither with the marker nor with an operation code are no instruction, and a marker with fewer than 10 bytes
after it is a short candidate (R53, R59, R60). That operations stand in bytes beside frames is the model's choice (log entry 9). -/
def Obligations.DecoderRefusesOtherBytes : Prop :=
  decode [] = .error .noBytes ∧
  ∀ (b : Byte) (rest : List Byte),
    (b ≠ Config.marker → 8 ≤ b.toNat → decode (b :: rest) = .error (.notAnInstruction b)) ∧
    (b = Config.marker → rest.length < 10 → decode (b :: rest) = .error (.shortFrame (rest.length + 1)))

/-- The decoder classifies every frame word, and every operation code, as the first matching row of the opcode table does (R63). -/
def Obligations.DecoderFollowsTableRows : Prop :=
  (∀ w : FrameWord, w.extractLsb' 0 8 = Config.marker →
    ∃ i r, decodeTableWord 88 w.toNat = some i ∧ tableRowOf 88 w.toNat = some r ∧ r.mnemonic = i.mnemonic) ∧
  (∀ c : OpCode, ∃ r, decodeTableWord 8 c.toNat = some (decodeOp c) ∧ tableRowOf 3 c.toNat = some r ∧
    r.mnemonic = (decodeOp c).mnemonic)

/-- Frame words written out byte by byte from 30_encoding.md R50 and R58, and the operation codes of R60, of every family of the table.
That a 3-bit operation code is read from one byte is the model's choice (log entry 9). -/
def Obligations.SampleWordsDecode : Prop :=
  decode [0x55, 0x51, 0x10, 0x00, 0xF0, 0xFF, 0x00, 0x08, 0xAA, 0x0B, 0x62]
      = .ok (.frameAcc ⟨0x0010, 0xFFF0, 0x0800, 0xAA, 0x0B, 0x62⟩, []) ∧
  decode [0x55, 0x52, 0x00, 0x01, 0x00, 0xFF, 0x01, 0x80, 0x12, 0x34, 0x6E]
      = .ok (.frameGyro ⟨0x0100, 0xFF00, 0x8001, 0x12, 0x34, 0x6E⟩, []) ∧
  decode [0x55, 0x53, 0x00, 0x40, 0x00, 0x80, 0xFF, 0xFF, 0x00, 0x00, 0x66]
      = .ok (.frameAngle ⟨0x4000, 0x8000, 0xFFFF, 0x00, 0x00, 0x66⟩, []) ∧
  decode [0x55, 0x54, 0x34, 0x12, 0x78, 0x56, 0xBC, 0x9A, 0x00, 0x00, 0x13]
      = .ok (.frameUnknown 0x54 ⟨0x1234, 0x5678, 0x9ABC, 0x00, 0x00, 0x13⟩, []) ∧
  decode [1] = .ok (.readFrame, []) ∧ decode [2] = .ok (.poll, []) ∧ decode [5] = .ok (.getGyro, []) ∧
  decode [7] = .ok (.reservedOp7, [])

/-- The packing of a frame into the frame word (R51): byte `i` at bits `8i+7:8i`, so that each field is a contiguous slice. -/
def Obligations.FrameWordPacksBytesInOrder : Prop :=
  ∀ b : FrameBuf,
    (∀ i (h : i < 11), (frameWord b).extractLsb' (8 * i) 8 = b[i]) ∧
    (frameWord b).extractLsb' 16 16 = (fieldsOf b).x ∧
    (frameWord b).extractLsb' 32 16 = (fieldsOf b).y ∧
    (frameWord b).extractLsb' 48 16 = (fieldsOf b).z

/-- Field extraction (R103): the three 16-bit fields from byte offsets [2:4), [4:6), [6:8), little-endian, whatever the kind. -/
def Obligations.FieldsAreLittleEndian : Prop :=
  ∀ b : FrameBuf,
    (decodeFields b).2.x.toNat = b[3].toNat * 256 + b[2].toNat ∧
    (decodeFields b).2.y.toNat = b[5].toNat * 256 + b[4].toNat ∧
    (decodeFields b).2.z.toNat = b[7].toNat * 256 + b[6].toNat

/-- Classification (R100): exact equality with three constants, every other header Unknown, and the kind is that of byte 1 alone;
the code of `KIND` is 0 to 3. -/
def Obligations.HeaderAloneSelectsTheKind : Prop :=
  (∀ h : Byte,
    (classify h = .acc ↔ h = 0x51) ∧ (classify h = .gyro ↔ h = 0x52) ∧ (classify h = .angle ↔ h = 0x53) ∧
    (classify h = .unknown ↔ h ≠ 0x51 ∧ h ≠ 0x52 ∧ h ≠ 0x53)) ∧
  (∀ b b' : FrameBuf, b[1] = b'[1] → (decodeFields b).1 = (decodeFields b').1 ∧ (decodeFields b).1 = classify b[1]) ∧
  kindCode .acc = 0 ∧ kindCode .gyro = 1 ∧ kindCode .angle = 2 ∧ kindCode .unknown = 3

/-- Readings of a field (R104): two's complement for ACC and GYRO, unsigned for ANGLE, each a 17-bit two's complement number. An
UNKNOWN frame's reading is a free value, of which nothing is said. -/
def Obligations.FieldReadingFollowsTheKind : Prop :=
  ∀ v : Field16,
    fieldValue .acc v = (if v.toNat ≤ 0x7FFF then (v.toNat : Int) else (v.toNat : Int) - 65536) ∧
    fieldValue .gyro v = fieldValue .acc v ∧ fieldValue .angle v = (v.toNat : Int) ∧
    fieldValue .acc v = (v.signExtend 17).toInt ∧ fieldValue .angle v = (v.zeroExtend 17).toInt ∧
    -32768 ≤ fieldValue .acc v ∧ fieldValue .acc v ≤ 32767 ∧ 0 ≤ fieldValue .angle v ∧ fieldValue .angle v ≤ 65535

/-- The decoder reads bytes 1 to 7 only (R105, R112 (a)): no value of the marker, the reserved bytes or the checksum byte changes
the kind, a field, or what an apply does to a latch. -/
def Obligations.DecoderReadsBytesOneToSeven : Prop :=
  ∀ (b : FrameBuf) (m r0 r1 c : Byte) (k : Block),
    let b' := (((b.set 0 m).set 8 r0).set 9 r1).set 10 c
    decodeFields b' = decodeFields b ∧
    k.apply (decodeFields b').1 (decodeFields b').2 = k.apply (decodeFields b).1 (decodeFields b).2

/-- The checksum (R56): the plain sum of the ten bytes before it, modulo 256, marker and header among them, and the validity
predicate of R57. -/
def Obligations.ChecksumIsTheSumModulo256 : Prop :=
  ∀ b : FrameBuf,
    (checksum b).toNat = (b[0].toNat + b[1].toNat + b[2].toNat + b[3].toNat + b[4].toNat + b[5].toNat + b[6].toNat +
      b[7].toNat + b[8].toNat + b[9].toNat) % 256 ∧
    (isFrame b = true ↔ b[0].toNat = 0x55 ∧
      b[10].toNat = (b[0].toNat + b[1].toNat + b[2].toNat + b[3].toNat + b[4].toNat + b[5].toNat + b[6].toNat +
        b[7].toNat + b[8].toNat + b[9].toNat) % 256)

/-- Changing only the reserved bytes changes the required checksum and nothing else (R112 (b)). -/
def Obligations.ReservedBytesMoveOnlyTheChecksum : Prop :=
  ∀ (h : Byte) (p : Payload) (r0 r1 : Byte),
    checksum (frameBytes h { p with rsv0 := r0, rsv1 := r1 }) = checksum (frameBytes h p) - p.rsv0 - p.rsv1 + r0 + r1 ∧
    decodeFields (frameBytes h { p with rsv0 := r0, rsv1 := r1 }) = decodeFields (frameBytes h p)

/-! ### The reader, one byte per step -/

/-- The start step (R81), of a strobed `READ_FRAME` and of an iteration of a strobed `POLL`: `SUM`, `IDX`, `HUNT_CNT` cleared, the link
sampled, no read attempt; the link down ends the reader, which answers the caller, or is counted as an iteration. The strobe as an
input, and that the step that ends the reader counts its iteration too, are the model's choices (log entry 8). -/
def Obligations.StartStepMakesNoReadAttempt : Prop :=
  ∀ (s : State) (rest : List Input) (up : Bool) (e : Env), s.env.linkUp = (up, e) →
    let begun := { s with
      blk := { s.blk with sum := 0, idx := 0, huntCnt := 0, mode := .hunt, outValid := false }, env := e, caller := ⟨rest, none⟩ }
    let dead := { s with
      blk := { s.blk with sum := 0, idx := 0, huntCnt := 0, status := .noData, mode := .idle, outValid := true }, env := e }
    readAttempts e.log = readAttempts s.env.log ∧ e.fifo = s.env.fifo ∧
    (s.caller.inputs = .strobe 1 :: rest → s.blk.busy = false →
      (up = true → step s = .next begun) ∧
      (up = false → step s = .next { dead with caller := ⟨rest, some (.read .noData none)⟩ })) ∧
    (QuietNext s rest → s.blk.mode = .idle → s.blk.polling = true →
      (up = true → step s = .next { begun with caller := ⟨rest, s.caller.reply⟩ }) ∧
      (up = false → ∃ t, step s = .next t ∧ IterationCounted { dead with caller := ⟨rest, s.caller.reply⟩ } t))

/-- The hunting steps (R82, R83, R84). -/
def Obligations.HuntingByteSteps : Prop :=
  ∀ (p : Params) (k : Block) (e e' : Env) (r : Option Byte), k.mode = .hunt → e.rxRead = (r, e') →
    (r = none → readerStep p (k, e) = (k.finish .noData, e')) ∧
    (r = some 0x55 → readerStep p (k, e) = ({ k with buf := k.buf.set 0 0x55, sum := 0x55, idx := 1, mode := .collect }, e')) ∧
    (∀ b, r = some b → b ≠ 0x55 →
      (p.huntLimit = none → readerStep p (k, e) = (k, e')) ∧
      (∀ n, 1 ≤ n → p.huntLimit = some n → k.huntCnt + 1 ≠ n → readerStep p (k, e) = ({ k with huntCnt := k.huntCnt + 1 }, e')) ∧
      (∀ n, p.huntLimit = some n → k.huntCnt + 1 = n →
        readerStep p (k, e) = ({ k with huntCnt := k.huntCnt + 1 }.finish .noData, e')))

/-- The collecting steps (R85, R86). -/
def Obligations.CollectingByteSteps : Prop :=
  ∀ (p : Params) (k : Block) (e e' : Env) (r : Option Byte), k.mode = .collect → e.rxRead = (r, e') →
    (r = none → readerStep p (k, e) = (k.finish .underrun, e')) ∧
    (∀ b, r = some b →
      (∀ h : k.idx.val ≤ 9, readerStep p (k, e) =
        ({ k with buf := k.buf.set k.idx.val b k.idx.isLt, sum := k.sum + b, idx := ⟨k.idx.val + 1, by omega⟩ }, e')) ∧
      (k.idx.val = 10 → b = k.sum → readerStep p (k, e) = ({ k with buf := k.buf.set 10 b }.finish .frame, e')) ∧
      (k.idx.val = 10 → b ≠ k.sum → readerStep p (k, e) = ({ k with buf := k.buf.set 10 b }.finish .badChecksum, e')))

/-- What the block does where nothing is done to the machine. Idle, it keeps all state, and the environment is not asked anything
(R154). A reader at work takes one answer of the environment per step (R80): while it goes on, the registers are those of the answer and
nothing else changes; where the answer ends a stand-alone reader, the caller gets the result; where it ends the reader of a poll
cycle, its frame, if any, is applied and the iteration is counted (R124). That an exchange is a step, and that the very step that ends
the reader of a cycle also applies, counts and, where it is the last, ends the cycle, is the model's choice (log entry 8). The block with
a reader at work is one that meets the register invariants. -/
def Obligations.RunningReaderTakesOneAnswerAStep : Prop :=
  (∀ (s : State) (rest : List Input), QuietNext s rest → s.blk.busy = false →
    step s = .next { s with caller := ⟨rest, s.caller.reply⟩ }) ∧
  (∀ (s : State) (rest : List Input), QuietNext s rest → s.blk.mode ≠ .idle → s.blk.Inv →
    let k := answerStep s.params s.env.rxRead.1 s.blk
    let s' := { s with blk := k, env := s.env.rxRead.2, caller := ⟨rest, s.caller.reply⟩ }
    (k.mode ≠ .idle → step s = .next s') ∧
    (k.mode = .idle → s.blk.polling = false → step s = .next { s' with
      caller := ⟨rest, some (.read k.status (if k.status = .frame then some k.buf else none))⟩ }) ∧
    (k.mode = .idle → s.blk.polling = true → ∃ t, step s = .next t ∧ IterationCounted { s' with blk := k.applyRead } t))

/-- The two levels agree (R87): the byte steps, fed the answers the pseudocode of R70 receives, end with it, in the same
registers, after the same exchanges. A hunt that never ends is compared at the point where the operation level leaves it (log entry
7). -/
def Obligations.ByteStepsAgreeWithReadFrame : Prop :=
  ∀ (p : Params) (k : Block) (e : Env), ∃ n,
    (readerStep p)^[n] (startRead k e) = readFrame p k e ∧
    ∀ m < n, ((readerStep p)^[m] (startRead k e)).1.mode ≠ .idle

/-! ### READ_FRAME -/

/-- Link down (R71): `NO_DATA` with no read attempt and nothing consumed. That `SUM` and `HUNT_CNT` are cleared there too is read from
R70 and R81 (log entry 20). -/
def Obligations.ReadFrameWithLinkDown : Prop :=
  ∀ (s : State) (e : Env), s.blk.busy = false → s.env.linkUp = (false, e) →
    exec .readFrame s = .next { s with
      blk := { s.blk with sum := 0, idx := 0, huntCnt := 0, mode := .idle, status := .noData, outValid := true }
      env := e
      caller := ⟨s.caller.inputs, some (.read .noData none)⟩ } ∧
    e.log = .linkUp false :: s.env.log ∧ e.fifo = s.env.fifo ∧ e.waits = s.env.waits

/-- The hunt runs dry (R72, R90, R142): the garbage and the empty attempt are consumed, `BUF` and the latches are not written. -/
def Obligations.ReadFrameRunsDry : Prop :=
  ∀ (s : State) (e e' : Env) (g : List Byte), s.blk.busy = false → s.env.linkUp = (true, e) → Garbage g →
    LimitAllows s.params g.length → e.reads (g.length + 1) = (g.map some ++ [none], e') →
    exec .readFrame s = .next { s with
      blk := { s.blk with sum := 0, idx := 0, huntCnt := countAfter s.params g.length, mode := .idle, status := .noData, outValid := true }
      env := e'
      caller := ⟨s.caller.inputs, some (.read .noData none)⟩ }

/-- `HUNT_LIMIT = some n` (R92, R90): the hunt ends with `NO_DATA` after discarding `n` bytes, and consumes those. -/
def Obligations.ReadFrameReachesHuntLimit : Prop :=
  ∀ (s : State) (e e' : Env) (g : List Byte), s.blk.busy = false → s.env.linkUp = (true, e) → Garbage g →
    s.params.huntLimit = some g.length → 1 ≤ g.length → e.reads g.length = (g.map some, e') →
    exec .readFrame s = .next { s with
      blk := { s.blk with sum := 0, idx := 0, huntCnt := g.length, mode := .idle, status := .noData, outValid := true }
      env := e'
      caller := ⟨s.caller.inputs, some (.read .noData none)⟩ }

/-- Underrun (R77, R90, R143): a read without data after the marker and `c`, at most nine bytes, ends the operation; what was read
is consumed, `BUF[0..m]` holds it, and the rest of `BUF` is as before. The bytes of `BUF`, which the caller must not use there (R10, U5),
are the model's choice (log entry 12). -/
def Obligations.ReadFrameUnderruns : Prop :=
  ∀ (s : State) (e e' : Env) (g c : List Byte), s.blk.busy = false → s.env.linkUp = (true, e) → Garbage g →
    LimitAllows s.params g.length → c.length ≤ 9 →
    e.reads (g.length + c.length + 2) = (g.map some ++ some Config.marker :: (c.map some ++ [none]), e') →
    ∃ buf : FrameBuf, exec .readFrame s = .next { s with
        blk := { s.blk with
          buf := buf, sum := (Config.marker :: c).foldl (· + ·) 0, idx := 0
          huntCnt := countAfter s.params g.length, mode := .idle, status := .underrun, outValid := true }
        env := e'
        caller := ⟨s.caller.inputs, some (.read .underrun none)⟩ } ∧
      buf.toList = Config.marker :: c ++ s.blk.buf.toList.drop (c.length + 1)

/-- A whole candidate (R73 to R76, R90): after the garbage `g` the 11 bytes `b` fill `BUF`, whatever their values after the marker
(R88, R91), `SUM` is their checksum, and the eleventh byte alone decides between `FRAME` and `BAD_CHECKSUM`; `g` and `b` are
consumed and nothing else, and no latch changes (R110). That `BUF` holds the candidate after `BAD_CHECKSUM`, where the caller must not use
it (R10, U5), is the model's choice (log entry 12). -/
def Obligations.ReadFrameCompletesCandidate : Prop :=
  ∀ (s : State) (e e' : Env) (g : List Byte) (b : FrameBuf), s.blk.busy = false → s.env.linkUp = (true, e) → Garbage g →
    LimitAllows s.params g.length → b[0] = Config.marker →
    e.reads (g.length + 11) = (g.map some ++ b.toList.map some, e') →
    exec .readFrame s = .next { s with
      blk := { s.blk with
        buf := b, sum := checksum b, idx := 0, huntCnt := countAfter s.params g.length, mode := .idle
        status := if b[10] = checksum b then .frame else .badChecksum, outValid := true }
      env := e'
      caller := ⟨s.caller.inputs,
        some (if b[10] = checksum b then .read .frame (some b) else .read .badChecksum none)⟩ }

/-- The functional form of the reader (R93): with the link up and no `HUNT_LIMIT`, whatever `ReadFrame` says of the answers the
environment would give is what the operation does: its status, its frame, and the attempts it makes, the rest being left. -/
def Obligations.ReadFrameIsItsFunctionalForm : Prop :=
  ∀ (s : State) (e : Env) (n : Nat) (st : Status) (fr : Option (List Byte)) (att : Nat),
    s.blk.busy = false → s.env.linkUp = (true, e) → s.params.huntLimit = none →
    readFrameForm (e.reads n).1 = some (st, fr, att) →
    ∃ t, exec .readFrame s = .next t ∧ t.blk.status = st ∧ t.blk.mode = .idle ∧ t.env = (e.reads att).2 ∧
      t.caller.reply = some (.read st (if st = .frame then some t.blk.buf else none)) ∧
      (∀ b, fr = some b → t.blk.buf.toList = b) ∧ (fr.isSome = true ↔ st = .frame)

/-- An endless hunt (R92, R173, U18): against a source that for ever answers with bytes other than the marker, `READ_FRAME` never
ends: the block hunts on after every further number of steps. -/
def Obligations.EndlessHuntNeverEnds : Prop :=
  ∀ (s : State) (e : Env), s.blk.busy = false → s.caller.inputs = [] → s.env.linkUp = (true, e) → s.params.huntLimit = none →
    (∀ n, ∀ a ∈ (e.reads n).1, ∃ b, a = some b ∧ b ≠ Config.marker) →
    ∃ t, exec .readFrame s = .next t ∧ t.blk.mode = .hunt ∧ t.caller.reply = none ∧
      ∀ n, ∃ u, Sys2Proof.Machine.run n t = .next u ∧ u.blk.mode = .hunt ∧ u.caller.reply = none

/-- What `READ_FRAME` leaves alone (R21, R78, R110): the latches, `POLL_RESULT`, `PCNT`, `APPLIED` and the parameters; and it ends
where the source falls silent or `HUNT_LIMIT` is set. That a `READ_FRAME` that never ends (R92) has a next state too, in which the block
still hunts, is the model's choice (log entry 7). -/
def Obligations.ReadFrameLeavesLatchesAndPollRegisters : Prop :=
  ∀ s : State, s.blk.busy = false →
    ∃ t, exec .readFrame s = .next t ∧ t.blk.raw = s.blk.raw ∧ t.blk.pollResult = s.blk.pollResult ∧
      t.blk.pcnt = s.blk.pcnt ∧ t.blk.applied = s.blk.applied ∧ t.blk.polling = false ∧ t.params = s.params ∧
      t.draws = s.draws ∧ t.caller.inputs = s.caller.inputs ∧
      (s.env.tail = none ∨ (∃ n, 1 ≤ n ∧ s.params.huntLimit = some n) → t.blk.mode = .idle)

/-- The caller reads the decoder's outputs only after a frame (R18, R101, R178): after a `READ_FRAME` that ended with one they are its
word, kind, fields and signedness, so they are after a `POLL` whose last iteration ended with one, and they end where the next
`READ_FRAME` or `POLL` starts, a `POLL` that is then deferred among them. That there is no output elsewhere, where the spec allows any
value, is the model's choice (log entry 12). -/
def Obligations.OutputsAfterReadFrame : Prop :=
  let ofFrame := fun b : FrameBuf => Outputs.mk (frameWord b) (kindCode (classify b[1])) (fieldsOf b).x (fieldsOf b).y (fieldsOf b).z
    (fieldSigned (classify b[1]))
  (∀ s t : State, exec .readFrame s = .next t →
    (t.blk.mode = .idle → t.blk.status = .frame → t.blk.outputs = some (ofFrame t.blk.buf)) ∧
    (t.blk.mode ≠ .idle ∨ t.blk.status ≠ .frame → t.blk.outputs = none)) ∧
  (∀ s t : State, exec .poll s = .next t →
    (s.env.linkUp.1 = false ∨ s.env.fifo.length ≤ 43 → t.blk.outputs = none) ∧
    (s.env.linkUp.1 = true → 44 ≤ s.env.fifo.length → t.blk.polling = false → t.blk.status = .frame →
      t.blk.outputs = some (ofFrame t.blk.buf)) ∧
    (t.blk.polling = true ∨ t.blk.status ≠ .frame → t.blk.outputs = none)) ∧
  (∀ (s t : State) (c : OpCode) (rest : List Input), s.caller.inputs = .strobe c :: rest → c = 1 ∨ c = 2 → step s = .next t →
    t.blk.outputs = none) ∧
  (∀ k : Block, k.busy = true → k.outputs = none)

/-- The codes of `MODE` and `STATUS`, and the outputs computed from the status and the kind (R13, R14, R18). -/
def Obligations.CodesOfPhaseStatusAndSign : Prop :=
  (Mode.code .idle = 0 ∧ Mode.code .hunt = 1 ∧ Mode.code .collect = 2 ∧ ∀ m : Mode, m.code ≠ 3) ∧
  (Status.code .noData = 0 ∧ Status.code .underrun = 1 ∧ Status.code .badChecksum = 2 ∧ Status.code .frame = 3) ∧
  (∀ k : Block, k.frameValid = true ↔ k.status.code = 3) ∧
  (∀ kind : Kind, fieldSigned kind = true ↔ kind = .acc ∨ kind = .gyro)

/-! ### POLL -/

/-- Link down (R121): `POLL_RESULT` false, no `RxCount`, no read attempt; `STATUS`, `BUF` and `RAW` keep their values. -/
def Obligations.PollWithLinkDown : Prop :=
  ∀ (s : State) (e : Env), s.blk.busy = false → s.env.linkUp = (false, e) →
    exec .poll s = .next { s with
      blk := { s.blk with pcnt := 0, applied := false, pollResult := false, outValid := false }
      env := e
      caller := ⟨s.caller.inputs, some (.poll false)⟩ } ∧
    e.log = .linkUp false :: s.env.log ∧ e.fifo = s.env.fifo ∧ e.waits = s.env.waits

/-- Below the threshold (R122): with 43 bytes or fewer, `POLL_RESULT` false, the count read once and no byte consumed. -/
def Obligations.PollBelowThreshold : Prop :=
  ∀ (s : State) (e : Env), s.blk.busy = false → s.env.linkUp = (true, e) → e.fifo.length ≤ 43 →
    exec .poll s = .next { s with
      blk := { s.blk with pcnt := 0, applied := false, pollResult := false, outValid := false }
      env := { e with log := .rxCount e.fifo.length :: .linkUp true :: s.env.log }
      caller := ⟨s.caller.inputs, some (.poll false)⟩ } ∧
    e.fifo = s.env.fifo

/-- The result of a `POLL` that has ended (R126): true exactly when the link was up and 44 bytes were buffered, and under
`FRAME_APPLIED` also a frame was applied; it is what the caller gets, and `PCNT = 0`, `MODE = IDLE` (R127). A `POLL` around a hunt that
never ends does not end (R173): that it has a next state, in which the block still hunts and the caller has no reply, is the model's
choice (log entry 7). -/
def Obligations.PollResultSaysTheCycleRan : Prop :=
  ∀ s : State, s.blk.busy = false →
    ∃ t, exec .poll s = .next t ∧
      (t.blk.polling = false →
        (t.blk.pollResult = true ↔
          s.env.linkUp.1 = true ∧ 44 ≤ s.env.fifo.length ∧ (s.params.returnMode = .cycleRan ∨ t.blk.applied = true)) ∧
        t.caller.reply = some (.poll t.blk.pollResult) ∧ t.blk.pcnt = 0 ∧ t.blk.mode = .idle) ∧
      (t.blk.polling = true → t.blk.mode = .hunt ∧ t.caller.reply = none) ∧
      (s.env.tail = none ∨ (∃ n, 1 ≤ n ∧ s.params.huntLimit = some n) → t.blk.polling = false)

/-- A clean cycle (R120, R123, R124, R127): with the link up and four accepted frames first in the receiver, one `POLL` reads
exactly those four, whatever follows, applies each in order, leaves the last in `BUF`, and answers the caller. -/
def Obligations.PollAppliesFourFramesInOrder : Prop :=
  ∀ (s : State) (b0 b1 b2 b3 : FrameBuf) (rest : List Byte), s.blk.busy = false → s.env.link = true → s.env.links = [] →
    isFrame b0 = true → isFrame b1 = true → isFrame b2 = true → isFrame b3 = true →
    s.env.fifo = b0.toList ++ b1.toList ++ b2.toList ++ b3.toList ++ rest →
    let put := fun (r : Raw) (b : FrameBuf) => r.store (decodeFields b).1 (decodeFields b).2
    let applied := [b0, b1, b2, b3].any fun b => (decodeFields b).1 != .unknown
    ∃ t, exec .poll s = .next t ∧
      t.blk = { s.blk with
        buf := b3, sum := checksum b3, idx := 0, mode := .idle, huntCnt := 0, status := .frame
        pollResult := cycleResult s.params.returnMode applied, pcnt := 0, applied := applied
        raw := put (put (put (put s.blk.raw b0) b1) b2) b3, outValid := true } ∧
      t.env.fifo = rest ∧ t.env.waits = s.env.waits ∧ readAttempts t.env.log = readAttempts s.env.log + 44 ∧
      t.caller.reply = some (.poll t.blk.pollResult)

/-- The number of reader invocations (R123, R125): a cycle that has ended made exactly four with the default parameter, whatever
each returned, and otherwise one to four; each samples the link once, the gate once before, and the count is read once (R122). -/
def Obligations.PollInvokesTheReaderFourTimes : Prop :=
  ∀ s t : State, exec .poll s = .next t → t.blk.polling = false → s.env.linkUp.1 = true → 44 ≤ s.env.fifo.length →
    countSamples t.env.log = countSamples s.env.log + 1 ∧
    (s.params.stopOnNoData = false → linkSamples t.env.log = linkSamples s.env.log + 5) ∧
    linkSamples s.env.log + 2 ≤ linkSamples t.env.log ∧ linkSamples t.env.log ≤ linkSamples s.env.log + 5

/-- Early stop (R125). Whatever the gate has let through, the cycle ends after the first of its iterations that ended with `NO_DATA`,
where the parameter is set, and else after the fourth: no other end of a reader, an `UNDERRUN` or a `BAD_CHECKSUM` among them, ends it
early, whichever iteration it is and however its `NO_DATA` came about. Where a first hunt in vain so ends it, what it leaves is said in
full: no latch has changed, and the caller is told that the cycle ran, or that nothing was applied. -/
def Obligations.PollStopsOnNoData : Prop :=
  (∀ (s : State) (j : Nat), s.blk.busy = false → s.env.linkUp.1 = true → 44 ≤ s.env.fifo.length → 1 ≤ j → j ≤ 4 →
    let m := fun i => (iteration s.params)^[i]
      ({ s.blk with pcnt := 0, applied := false, outValid := false, polling := true }, s.env.linkUp.2.rxCount.2)
    (∀ i, 1 ≤ i → i ≤ j → (m i).1.mode = .idle) → (∀ i, 1 ≤ i → i < j → ¬ StopsForNoData s.params (m i).1) →
    (j = 4 ∨ StopsForNoData s.params (m j).1) →
    exec .poll s = .next { s with
      blk := { (m j).1 with pollResult := cycleResult s.params.returnMode (m j).1.applied, pcnt := 0, polling := false }
      env := (m j).2
      caller := ⟨s.caller.inputs, some (.poll (cycleResult s.params.returnMode (m j).1.applied))⟩ }) ∧
  (∀ (s : State) (e e' : Env) (g : List Byte), s.blk.busy = false → s.params.stopOnNoData = true →
    s.env.link = true → s.env.links = [] → 44 ≤ s.env.fifo.length → Garbage g → LimitAllows s.params g.length →
    e = { s.env with log := .linkUp true :: .rxCount s.env.fifo.length :: .linkUp true :: s.env.log } →
    e.reads (g.length + 1) = (g.map some ++ [none], e') →
    exec .poll s = .next { s with
      blk := { s.blk with
        sum := 0, idx := 0, huntCnt := countAfter s.params g.length, mode := .idle, status := .noData
        pollResult := cycleResult s.params.returnMode false, pcnt := 0, applied := false, outValid := true }
      env := e'
      caller := ⟨s.caller.inputs, some (.poll (cycleResult s.params.returnMode false))⟩ })

/-- A `POLL` that applied nothing leaves every latch as it was (R124, R131). That a `POLL` around a hunt that never ends (R173) has a next
state too is the model's choice (log entry 7). -/
def Obligations.PollThatAppliesNothingKeepsLatches : Prop :=
  ∀ s : State, s.blk.busy = false →
    ∃ t, exec .poll s = .next t ∧ (t.blk.applied = false → t.blk.raw = s.blk.raw) ∧ t.params = s.params ∧
      t.draws = s.draws ∧ t.caller.inputs = s.caller.inputs

/-- `Apply` (R110): the three latches of a known kind together and `APPLIED`, the other six kept; nothing for an UNKNOWN frame. -/
def Obligations.ApplyWritesOneLatchGroup : Prop :=
  ∀ (v : Fields) (k : Block),
    k.apply .acc v = { k with raw := { k.raw with acc := v }, applied := true } ∧
    k.apply .gyro v = { k with raw := { k.raw with gyro := v }, applied := true } ∧
    k.apply .angle v = { k with raw := { k.raw with angle := v }, applied := true } ∧
    k.apply .unknown v = k

/-- Applies of different kinds commute, and of two of the same kind the later stays (R112 (c)); applying twice is applying once
(R110). -/
def Obligations.AppliesOfDifferentKindsCommute : Prop :=
  ∀ (i j : Kind) (u v : Fields) (k : Block),
    (i ≠ j → (k.apply i u).apply j v = (k.apply j v).apply i u) ∧
    (k.apply i u).apply i v = k.apply i v

/-- A strobed `POLL`, stepped through exchange by exchange with each frame decoded and executed as its last byte comes in, comes to the
very state of the issued one, which is atomic (R8, R42, R120, R124). The two granularities are the model's own (log entry 8). -/
def Obligations.StrobedPollEqualsIssuedPoll : Prop :=
  ∀ s : State, s.blk.busy = false → s.caller.inputs = [] →
    ∃ t, exec .poll s = .next t ∧
      ∃ n, Sys2Proof.Machine.run n { s with caller := ⟨[.strobe 2], s.caller.reply⟩ } = .next t

/-- A strobed `READ_FRAME`, carried on one exchange a step, comes to the very state of the issued one (R8, R87). The two
granularities are the model's own (log entry 8). -/
def Obligations.StrobedReadFrameEqualsIssuedReadFrame : Prop :=
  ∀ s : State, s.blk.busy = false → s.caller.inputs = [] →
    ∃ t, exec .readFrame s = .next t ∧
      ∃ n, Sys2Proof.Machine.run n { s with caller := ⟨[.strobe 1], s.caller.reply⟩ } = .next t

/-! ### Frames -/

/-- An accepted ACC, GYRO or ANGLE frame in a poll cycle (R106, R107, R108): `BUF` and `SUM` hold it, `STATUS` is `FRAME`, the three
latches of its kind take its fields and the other six keep theirs, and nothing else of the machine changes. -/
def Obligations.KnownFrameIsAppliedInAPoll : Prop :=
  ∀ (p : Payload) (s : State), s.blk.polling = true →
    (isFrame (frameBytes 0x51 p) = true → exec (.frameAcc p) s = .next { s with
      blk := { s.blk with
        buf := frameBytes 0x51 p, sum := p.csum, idx := 0, mode := .idle, status := .frame, applied := true, outValid := true
        raw := { s.blk.raw with acc := ⟨p.x, p.y, p.z⟩ } } }) ∧
    (isFrame (frameBytes 0x52 p) = true → exec (.frameGyro p) s = .next { s with
      blk := { s.blk with
        buf := frameBytes 0x52 p, sum := p.csum, idx := 0, mode := .idle, status := .frame, applied := true, outValid := true
        raw := { s.blk.raw with gyro := ⟨p.x, p.y, p.z⟩ } } }) ∧
    (isFrame (frameBytes 0x53 p) = true → exec (.frameAngle p) s = .next { s with
      blk := { s.blk with
        buf := frameBytes 0x53 p, sum := p.csum, idx := 0, mode := .idle, status := .frame, applied := true, outValid := true
        raw := { s.blk.raw with angle := ⟨p.x, p.y, p.z⟩ } } })

/-- An accepted UNKNOWN frame (R109): accepted, and no latch and not `APPLIED` changes, in a poll cycle or out of it. That a frame row is
executed outside a cycle too is the model's reading (log entry 14). -/
def Obligations.UnknownFrameChangesNoLatch : Prop :=
  ∀ (h : Byte) (p : Payload) (s : State), (Instr.frameUnknown h p).wf = true → isFrame (frameBytes h p) = true →
    exec (.frameUnknown h p) s = .next { s with
      blk := { s.blk with buf := frameBytes h p, sum := p.csum, idx := 0, mode := .idle, status := .frame, outValid := true } }

/-- A candidate whose last byte is not its checksum (R76, R144): discarded with `BAD_CHECKSUM`, whatever its header, and nothing of
it is applied. That `BUF` holds the candidate there, where the caller must not use it (R10, U5), is the model's choice (log entry 12), and
that a frame row is executed outside a poll cycle too is its reading (log entry 14). -/
def Obligations.BadChecksumDiscardsTheFrame : Prop :=
  ∀ (h : Byte) (p : Payload) (s : State), p.csum ≠ checksum (frameBytes h p) →
    let t := State.setBlk s { s.blk with
      buf := frameBytes h p, sum := checksum (frameBytes h p), idx := 0, mode := .idle, status := .badChecksum, outValid := true }
    (h = 0x51 → exec (.frameAcc p) s = .next t) ∧ (h = 0x52 → exec (.frameGyro p) s = .next t) ∧
    (h = 0x53 → exec (.frameAngle p) s = .next t) ∧
    (h ≠ 0x51 → h ≠ 0x52 → h ≠ 0x53 → exec (.frameUnknown h p) s = .next t)

/-- An accepted frame outside a poll cycle, met by a stand-alone reader (R21, R110): `BUF`, `SUM` and `STATUS` as in a cycle, and
no latch and not `APPLIED` changes. That a frame row is executed outside a cycle too is the model's reading (log entry 14). -/
def Obligations.FrameOutsideAPollIsNotApplied : Prop :=
  ∀ (p : Payload) (s : State), s.blk.polling = false →
    (isFrame (frameBytes 0x51 p) = true → exec (.frameAcc p) s = .next { s with
      blk := { s.blk with buf := frameBytes 0x51 p, sum := p.csum, idx := 0, mode := .idle, status := .frame, outValid := true } }) ∧
    (isFrame (frameBytes 0x52 p) = true → exec (.frameGyro p) s = .next { s with
      blk := { s.blk with buf := frameBytes 0x52 p, sum := p.csum, idx := 0, mode := .idle, status := .frame, outValid := true } }) ∧
    (isFrame (frameBytes 0x53 p) = true → exec (.frameAngle p) s = .next { s with
      blk := { s.blk with buf := frameBytes 0x53 p, sum := p.csum, idx := 0, mode := .idle, status := .frame, outValid := true } })

/-- An iteration of a running cycle, from the start step on (R124, R125). Where the reader meets a whole candidate, garbage `g` and then
the 11 bytes `b`, the frame that `b` decodes to is executed and the iteration counted. Where it ends with no candidate, by a dead link,
a dry hunt, `HUNT_LIMIT` or an underrun, no latch and not `APPLIED` changes, and the iteration is counted too. Nothing is said of
`BUF` after an underrun (log entry 12). That the exchanges are steps is the model's choice (log entry 8). -/
def Obligations.PollStepExecutesTheNextFrame : Prop :=
  (∀ (s : State) (e e' : Env) (g : List Byte) (b : FrameBuf) (i : Instr), s.caller.inputs = [] →
    s.blk.mode = .idle → s.blk.polling = true → s.env.linkUp = (true, e) → Garbage g → LimitAllows s.params g.length →
    e.reads (g.length + 11) = (g.map some ++ b.toList.map some, e') → decode b.toList = .ok (i, []) →
    ∃ t u, exec i { s with blk := { s.blk with huntCnt := countAfter s.params g.length }, env := e' } = .next t ∧
      Sys2Proof.Machine.run (g.length + 12) s = .next u ∧ IterationCounted t u) ∧
  (∀ (s : State) (n : Nat) (st : Status) (e' : Env), s.caller.inputs = [] → s.blk.mode = .idle → s.blk.polling = true →
    EndsWithoutCandidate s.params s.env n st e' →
    ∃ (buf : FrameBuf) (sum : Byte) (cnt : Nat) (u : State), Sys2Proof.Machine.run n s = .next u ∧
      IterationCounted { s with
        blk := { s.blk with buf := buf, sum := sum, huntCnt := cnt, idx := 0, mode := .idle, status := st, outValid := true }
        env := e' } u ∧
      (st = .noData → buf = s.blk.buf))

/-- The last byte of a candidate: the step that takes it decodes the 11 bytes and executes the frame they are, in a stand-alone
`READ_FRAME`, which then answers the caller, and in a poll cycle, which counts the iteration (R76, R110, R124). That the one step that
takes the byte also decodes, executes and counts is the model's choice (log entry 8), and that it executes a frame row in a stand-alone
`READ_FRAME` too is the model's reading (log entry 14). -/
def Obligations.LastByteExecutesTheFrame : Prop :=
  ∀ (s : State) (rest : List Input) (x : Byte) (e : Env) (i : Instr), QuietNext s rest → s.blk.mode = .collect → s.blk.idx = 10 →
    s.env.rxRead = (some x, e) → decode (s.blk.buf.set 10 x).toList = .ok (i, []) →
    ∃ t, exec i { s with env := e, caller := ⟨rest, s.caller.reply⟩ } = .next t ∧
      (s.blk.polling = false → step s = .next { t with
        caller := ⟨rest, some (.read t.blk.status (if t.blk.status = .frame then some t.blk.buf else none))⟩ }) ∧
      (s.blk.polling = true → ∃ u, step s = .next u ∧ IterationCounted t u)

/-- A step runs the operation the caller issues: the code's bits decode to the instruction, and the step is its meaning (R42, R60).
A strobe comes to the same for every operation but `READ_FRAME` and `POLL`, which it only begins (log entry 8). -/
def Obligations.StepRunsTheIssuedOperation : Prop :=
  ∀ (s : State) (c : OpCode) (rest : List Input) (i : Instr), decode [c.setWidth 8] = .ok (i, []) →
    (s.caller.inputs = .issue c :: rest → step s = exec i { s with caller := ⟨rest, s.caller.reply⟩ }) ∧
    (s.caller.inputs = .strobe c :: rest → i ≠ .readFrame → i ≠ .poll →
      step s = exec i { s with caller := ⟨rest, s.caller.reply⟩ })

/-- A table word placed where the machine fetches is the next instruction (R60, R63): an operation code is what the caller issues of
an idle block, and a frame word is the candidate that the first iteration of a poll cycle completes and executes, its last byte taken
from the receiver; that iteration is then counted. How it is placed (log entry 10), and that the step that takes its last byte also
executes it and counts the iteration (log entry 8), are the model's choices. -/
def Obligations.FetchWordIsTheNextInstruction : Prop :=
  (∀ (s : State) (c : OpCode), decodeTableWord 8 c.toNat = some (decodeOp c) ∧
    step (s.withFetchWord 8 c.toNat) = exec (decodeOp c) { s with blk := { s.blk with mode := .idle, polling := false } }) ∧
  (∀ (s : State) (b : FrameBuf), b[0] = Config.marker → ∃ (i : Instr) (t : State),
    decodeTableWord 88 (frameWord b).toNat = some i ∧
    exec i { s with
      blk := { s.blk with polling := true, pcnt := 0 }
      env := { s.env with links := [], link := true, log := .rxRead (some b[10]) :: s.env.log } } = .next t ∧
    t.blk.buf = b ∧ step (s.withFetchWord 88 (frameWord b).toNat) = .next { t with blk := { t.blk with pcnt := 1 } })

/-! ### Accessors and reserved codes -/

/-- The accessors (R128, R129, R130): each returns its three latches, works with the link down and before any frame, and writes no
state and reads no environment; after reset each returns (0, 0, 0). -/
def Obligations.AccessorsReturnTheLatches : Prop :=
  (∀ s : State, s.blk.busy = false →
    exec .getAcc s = .next { s with caller := ⟨s.caller.inputs, some (.fields .acc s.blk.raw.acc)⟩ } ∧
    exec .getGyro s = .next { s with caller := ⟨s.caller.inputs, some (.fields .gyro s.blk.raw.gyro)⟩ } ∧
    exec .getAngle s = .next { s with caller := ⟨s.caller.inputs, some (.fields .angle s.blk.raw.angle)⟩ }) ∧
  State.reset.blk.raw = ⟨⟨0, 0, 0⟩, ⟨0, 0, 0⟩, ⟨0, 0, 0⟩⟩

/-- The reserved codes (R61): each completes at once, reads nothing and changes no state. -/
def Obligations.ReservedCodesChangeNothing : Prop :=
  ∀ s : State, s.blk.busy = false →
    exec .reservedOp0 s = .next s ∧ exec .reservedOp3 s = .next s ∧ exec .reservedOp7 s = .next s

/-! ### The whole machine -/

/-- Every step of every state goes on, but for a start while an operation runs (R140, R170): there is no fault. -/
def Obligations.OnlyAStartWhileBusyIsRefused : Prop := ∀ s : State, SafeStep s

/-- A start while an operation runs has no meaning, whichever operation it is and however it is watched (R170, U15). -/
def Obligations.StartWhileBusyIsRefused : Prop :=
  ∀ (s : State) (c : OpCode) (rest : List Input), s.blk.busy = true →
    (s.caller.inputs = .issue c :: rest ∨ s.caller.inputs = .strobe c :: rest) → step s = .refused .startWhileBusy

/-- The reset input, at rest or in the middle of an operation (R160, R161, R162): every register of R20 at its value, `BUF` of any
value, the environment and the parameters untouched, and no result for what it cuts short. -/
def Obligations.ResetInputClearsTheBlock : Prop :=
  ∀ (s : State) (rest : List Input), s.caller.inputs = .reset :: rest →
    ∃ t, step s = .next t ∧ t.env = s.env ∧ t.params = s.params ∧ t.caller = ⟨rest, none⟩ ∧
      t.blk = { t.blk with
        sum := 0x00, idx := 0, mode := .idle, huntCnt := 0, status := .noData, pollResult := false, pcnt := 0, applied := false
        raw := ⟨⟨0, 0, 0⟩, ⟨0, 0, 0⟩, ⟨0, 0, 0⟩⟩, polling := false, outValid := false } ∧ t.blk.frameValid = false

/-- The state after reset (R20, R160), `BUF` apart: the registers' values, `FRAME_VALID = 0`, and each accessor returns (0, 0, 0).
That `BUF` is zero there is the model's choice (log entry 1) and is not stated. -/
def Obligations.ResetStateHasTheTableValues : Prop :=
  State.reset.blk = { State.reset.blk with
      sum := 0x00, idx := 0, mode := .idle, huntCnt := 0, status := .noData, pollResult := false, pcnt := 0, applied := false
      raw := ⟨⟨0, 0, 0⟩, ⟨0, 0, 0⟩, ⟨0, 0, 0⟩⟩ } ∧
  State.reset.blk.frameValid = false ∧
  (∃ t, exec .getAcc State.reset = .next t ∧ t.caller.reply = some (.fields .acc ⟨0, 0, 0⟩)) ∧
  (∃ t, exec .getGyro State.reset = .next t ∧ t.caller.reply = some (.fields .gyro ⟨0, 0, 0⟩)) ∧
  (∃ t, exec .getAngle State.reset = .next t ∧ t.caller.reply = some (.fields .angle ⟨0, 0, 0⟩))

/-- The register invariants of R22 (a), (b), (c) hold at reset. -/
def Obligations.ResetMeetsTheRegisterInvariants : Prop := State.reset.blk.Inv

/-- The register invariants of R22 (a), (b), (c) are kept by every step, from every state that meets them. -/
def Obligations.StepKeepsTheRegisterInvariants : Prop :=
  ∀ s t : State, s.blk.Inv → step s = .next t → t.blk.Inv

/-- The latches are genuine at reset (R22 (d)). -/
def Obligations.ResetLatchesAreGenuine : Prop := State.reset.Genuine

/-- The latches hold nothing but zeros and delivered frames (R16, R22 (d)): if each latch group is zero or the fields of an accepted
frame of its kind whose 11 bytes the stream delivered one after the other, then so it is after every step. -/
def Obligations.StepKeepsLatchesGenuine : Prop :=
  ∀ s t : State, s.Genuine → step s = .next t → t.Genuine

/-- Who writes the latches (R16, R17, R21): a step that changes a latch is a `POLL` issued, a poll cycle going on, or a reset. -/
def Obligations.OnlyPollAndResetWriteLatches : Prop :=
  ∀ s t : State, step s = .next t → t.blk.raw ≠ s.blk.raw →
    s.blk.polling = true ∨ (∃ rest, s.caller.inputs = .issue 2 :: rest) ∨ (∃ rest, s.caller.inputs = .reset :: rest)

/-- The parameters are fixed (R6), and only a reset draws free bytes: no step changes either otherwise. -/
def Obligations.StepKeepsParameters : Prop :=
  ∀ s t : State, step s = .next t →
    t.params = s.params ∧ (t.draws = s.draws ∨ ∃ rest, s.caller.inputs = .reset :: rest)

/-- The stream is read only, in order, byte by byte (R30, R36, R40, R43): whatever the block does in a step, the reads return the oldest
bytes and answers in their order and nothing else is removed. The environment's own moves: a byte that arrives stands behind those held,
and a connection that closes gives no data to a reader at work, which so ends (R33, R155), and is down for the operations to come; the
block does not change by either. That the bytes held stay held when the connection closes, and that setting the connection drops its
coming changes, are the model's choices (log entry 6, unsafe). -/
def Obligations.StepOnlyReadsTheStream : Prop :=
  ∀ s t : State, step s = .next t →
    ((∀ b rest, s.caller.inputs ≠ .arrive b :: rest) → (∀ u rest, s.caller.inputs ≠ .setLink u :: rest) → ReadOnly s.env t.env) ∧
    (∀ b rest, s.caller.inputs = .arrive b :: rest →
      t = { s with env := { s.env with fifo := s.env.fifo ++ [b] }, caller := ⟨rest, s.caller.reply⟩ }) ∧
    (∀ u rest, s.caller.inputs = .setLink u :: rest →
      t = { s with env := { s.env with links := [], link := u }, caller := ⟨rest, s.caller.reply⟩ } ∧ t.env.linkUp.1 = u ∧
      (u = false → t.env.rxRead.1 = none ∧ t.env.rxRead.2.fifo = s.env.fifo ∧ t.env.rxRead.2.waits = s.env.waits) ∧
      (u = false → s.blk.mode ≠ .idle → ∀ rest', QuietNext t rest' → ∃ v, step t = .next v ∧ v.blk.mode = .idle ∧
        v.blk.status = (if s.blk.mode = .hunt then .noData else .underrun) ∧ v.blk.raw = s.blk.raw ∧ v.env.fifo = s.env.fifo))

/-- Buffered bytes are readable (R32, R34 E2, R36): while the connection stays open, the next `n` attempts, for `n` up to `RxCount()`,
return the oldest `n` bytes and lower the count by `n`. On a connection that has gone away every attempt gets no data and removes nothing
(R33, R155): that E2 so holds of an open connection is the model's reading (log entry 6). -/
def Obligations.BufferedBytesAreReadable : Prop :=
  (∀ (e : Env) (n : Nat), e.StaysOpen → n ≤ e.rxCount.1 →
    (e.reads n).1 = (e.fifo.take n).map some ∧ (e.reads n).2.rxCount.1 = e.rxCount.1 - n ∧ (e.reads n).2.waits = e.waits) ∧
  (∀ (e : Env) (n : Nat), e.link = false → e.links = [] →
    (e.reads n).1 = List.replicate n none ∧ (e.reads n).2.fifo = e.fifo ∧ (e.reads n).2.waits = e.waits)
end

