-- ==== Sys2Proof/Laws/Codec.lean ====
section
/-! SUPPORT. The small lemmas of the frame format: bytes and fields (R50, R54), classification (R100), and the round trip between a
frame's bytes and its operands. -/

namespace Sys2Proof

@[simp] theorem loByte_pair (lo hi : Byte) : loByte (pair lo hi) = lo := by
  apply BitVec.eq_of_getLsbD_eq
  intro i hi'
  rw [loByte, pair, BitVec.getLsbD_extractLsb', BitVec.getLsbD_append]; simp [hi']

@[simp] theorem hiByte_pair (lo hi : Byte) : hiByte (pair lo hi) = hi := by
  apply BitVec.eq_of_getLsbD_eq
  intro i hi'
  rw [hiByte, pair, BitVec.getLsbD_extractLsb', BitVec.getLsbD_append]; simp [hi']

@[simp] theorem pair_lo_hi (v : Field16) : pair (loByte v) (hiByte v) = v := by
  apply BitVec.eq_of_getLsbD_eq
  intro i hi'
  simp only [loByte, pair, hiByte, BitVec.getLsbD_append, BitVec.getLsbD_extractLsb']
  by_cases h : i < 8
  · simp [h]
  · simp [h, show i - 8 < 8 by omega, show 8 + (i - 8) = i by omega]

/-- A field's value, byte by byte (R35). -/
theorem pair_toNat (lo hi : Byte) : (pair lo hi).toNat = hi.toNat * 256 + lo.toNat := by
  rw [pair, BitVec.toNat_append, ← Nat.shiftLeft_add_eq_or_of_lt lo.isLt, Nat.shiftLeft_eq]

@[simp] theorem payloadOf_frameBytes (h : Byte) (p : Payload) : payloadOf (frameBytes h p) = p := by
  simp [payloadOf, frameBytes]

/-- The bytes of a frame are those of its header and operands, where it begins with the marker. -/
theorem frameBytes_payloadOf (b : FrameBuf) (h : b[0] = Config.marker) : frameBytes b[1] (payloadOf b) = b := by
  obtain ⟨⟨l⟩, hl⟩ := b
  match l, hl with
  | [x0, x1, x2, x3, x4, x5, x6, x7, x8, x9, x10], _ =>
    simp at h
    subst h
    simp [frameBytes, payloadOf]

/-! The bytes of an encoded frame by position. -/

@[simp] theorem frameBytes_marker (h : Byte) (p : Payload) : (frameBytes h p)[0] = Config.marker := rfl
@[simp] theorem frameBytes_header (h : Byte) (p : Payload) : (frameBytes h p)[1] = h := rfl
@[simp] theorem frameBytes_csum (h : Byte) (p : Payload) : (frameBytes h p)[10] = p.csum := rfl
@[simp] theorem fieldsOf_frameBytes (h : Byte) (p : Payload) : fieldsOf (frameBytes h p) = p.fields := by
  simp [fieldsOf, frameBytes, Payload.fields]

@[simp] theorem classify_hdrAcc : classify Config.hdrAcc = .acc := rfl
@[simp] theorem classify_hdrGyro : classify Config.hdrGyro = .gyro := rfl
@[simp] theorem classify_hdrAngle : classify Config.hdrAngle = .angle := rfl

/-- An unmapped header is Unknown (R58, R100). -/
theorem classify_unmapped {h : Byte} (hu : unmappedHeader h = true) : classify h = .unknown := by
  simp [unmappedHeader] at hu
  simp [classify, hu]

/-- All that classification can answer (R100). -/
theorem classify_cases (h : Byte) :
    (classify h = .acc ∧ h = Config.hdrAcc) ∨ (classify h = .gyro ∧ h = Config.hdrGyro) ∨
    (classify h = .angle ∧ h = Config.hdrAngle) ∨ (classify h = .unknown ∧ unmappedHeader h = true) := by
  unfold classify unmappedHeader
  split
  · simp_all
  · split
    · simp_all
    · split <;> simp_all

/-- The decoder over bytes takes a whole frame (R50, R52). -/
theorem decode_frame (b : FrameBuf) (rest : List Byte) (h : b[0] = Config.marker) :
    decode (b.toList ++ rest) = .ok (decodeFrame b, rest) := by
  obtain ⟨⟨l⟩, hl⟩ := b
  match l, hl with
  | [x0, x1, x2, x3, x4, x5, x6, x7, x8, x9, x10], _ =>
    simp at h
    subst h
    simp [decode, Vector.toList]

/-! ### The frame word -/

/-- A slice that lies in the low part of a concatenation. -/
theorem extractLsb'_append_low {n m : Nat} (a : BitVec n) (b : BitVec m) (s l : Nat) (h : s + l ≤ m) :
    (a ++ b).extractLsb' s l = b.extractLsb' s l := by
  ext j hj
  simp [BitVec.getElem_extractLsb', BitVec.getLsbD_append, show s + j < m by omega]

/-- A slice that lies in the high part of a concatenation. -/
theorem extractLsb'_append_high {n m : Nat} (a : BitVec n) (b : BitVec m) (s l : Nat) (h : m ≤ s) :
    (a ++ b).extractLsb' s l = a.extractLsb' (s - m) l := by
  ext j hj
  simp [BitVec.getElem_extractLsb', BitVec.getLsbD_append, show ¬ s + j < m by omega, show s + j - m = s - m + j by omega]

/-- Byte `i` of a table word of 88 bits (R51). -/
theorem tableByte (w : FrameWord) (i : Nat) : BitVec.ofNat 8 ((w.toNat % 2 ^ 88) / 2 ^ (8 * i)) = w.extractLsb' (8 * i) 8 := by
  apply BitVec.eq_of_toNat_eq
  simp [Nat.shiftRight_eq_div_pow]
  rw [Nat.mod_eq_of_lt (a := w.toNat) (by have := w.isLt; omega)]

/-- The bytes of a table word of 88 bits, first byte first. -/
theorem tableBytes_frame (w : FrameWord) :
    tableBytes 88 w.toNat = (List.range 11).map fun i => w.extractLsb' (8 * i) 8 := by
  unfold tableBytes
  simp only [tableByte]

/-- An operation code, as a byte, decodes to its operation (R60). -/
theorem decode_op (c : OpCode) (rest : List Byte) : decode (c.setWidth 8 :: rest) = .ok (decodeOp c, rest) := by
  have h8 : (c.setWidth 8).toNat < 8 := by simp; omega
  have hm : c.setWidth 8 ≠ Config.marker := by intro hh; rw [hh] at h8; simp [Config.marker] at h8
  have hc : (c.setWidth 8).setWidth 3 = c := by ext i hi; simp
  simp only [decode, if_neg hm, if_pos h8, hc]

end Sys2Proof
end

