-- ==== Sys2Proof/Laws/State.lean ====
section
/-! SUPPORT. One lemma per field per update, each true by unfolding the update alone, so that no proof unfolds a record update. -/

namespace Sys2Proof.Machine

/-! `Block.finish` -/

@[simp] theorem Block.finish_buf (st : Status) (k : Block) : (k.finish st).buf = k.buf := rfl
@[simp] theorem Block.finish_sum (st : Status) (k : Block) : (k.finish st).sum = k.sum := rfl
@[simp] theorem Block.finish_idx (st : Status) (k : Block) : (k.finish st).idx = 0 := rfl
@[simp] theorem Block.finish_mode (st : Status) (k : Block) : (k.finish st).mode = .idle := rfl
@[simp] theorem Block.finish_huntCnt (st : Status) (k : Block) : (k.finish st).huntCnt = k.huntCnt := rfl
@[simp] theorem Block.finish_status (st : Status) (k : Block) : (k.finish st).status = st := rfl
@[simp] theorem Block.finish_pollResult (st : Status) (k : Block) : (k.finish st).pollResult = k.pollResult := rfl
@[simp] theorem Block.finish_pcnt (st : Status) (k : Block) : (k.finish st).pcnt = k.pcnt := rfl
@[simp] theorem Block.finish_applied (st : Status) (k : Block) : (k.finish st).applied = k.applied := rfl
@[simp] theorem Block.finish_raw (st : Status) (k : Block) : (k.finish st).raw = k.raw := rfl
@[simp] theorem Block.finish_polling (st : Status) (k : Block) : (k.finish st).polling = k.polling := rfl
@[simp] theorem Block.finish_outValid (st : Status) (k : Block) : (k.finish st).outValid = true := rfl

/-! `Block.beginHunt` -/

@[simp] theorem Block.beginHunt_buf (k : Block) : (k.beginHunt).buf = k.buf := rfl
@[simp] theorem Block.beginHunt_sum (k : Block) : (k.beginHunt).sum = 0 := rfl
@[simp] theorem Block.beginHunt_idx (k : Block) : (k.beginHunt).idx = 0 := rfl
@[simp] theorem Block.beginHunt_mode (k : Block) : (k.beginHunt).mode = .hunt := rfl
@[simp] theorem Block.beginHunt_huntCnt (k : Block) : (k.beginHunt).huntCnt = 0 := rfl
@[simp] theorem Block.beginHunt_status (k : Block) : (k.beginHunt).status = k.status := rfl
@[simp] theorem Block.beginHunt_pollResult (k : Block) : (k.beginHunt).pollResult = k.pollResult := rfl
@[simp] theorem Block.beginHunt_pcnt (k : Block) : (k.beginHunt).pcnt = k.pcnt := rfl
@[simp] theorem Block.beginHunt_applied (k : Block) : (k.beginHunt).applied = k.applied := rfl
@[simp] theorem Block.beginHunt_raw (k : Block) : (k.beginHunt).raw = k.raw := rfl
@[simp] theorem Block.beginHunt_polling (k : Block) : (k.beginHunt).polling = k.polling := rfl
@[simp] theorem Block.beginHunt_outValid (k : Block) : (k.beginHunt).outValid = false := rfl

/-! `Block.markerFound` -/

@[simp] theorem Block.markerFound_buf (k : Block) : (k.markerFound).buf = k.buf.set 0 Config.marker := rfl
@[simp] theorem Block.markerFound_sum (k : Block) : (k.markerFound).sum = Config.marker := rfl
@[simp] theorem Block.markerFound_idx (k : Block) : (k.markerFound).idx = 1 := rfl
@[simp] theorem Block.markerFound_mode (k : Block) : (k.markerFound).mode = .collect := rfl
@[simp] theorem Block.markerFound_huntCnt (k : Block) : (k.markerFound).huntCnt = k.huntCnt := rfl
@[simp] theorem Block.markerFound_status (k : Block) : (k.markerFound).status = k.status := rfl
@[simp] theorem Block.markerFound_pollResult (k : Block) : (k.markerFound).pollResult = k.pollResult := rfl
@[simp] theorem Block.markerFound_pcnt (k : Block) : (k.markerFound).pcnt = k.pcnt := rfl
@[simp] theorem Block.markerFound_applied (k : Block) : (k.markerFound).applied = k.applied := rfl
@[simp] theorem Block.markerFound_raw (k : Block) : (k.markerFound).raw = k.raw := rfl
@[simp] theorem Block.markerFound_polling (k : Block) : (k.markerFound).polling = k.polling := rfl
@[simp] theorem Block.markerFound_outValid (k : Block) : (k.markerFound).outValid = k.outValid := rfl

/-! `Block.store` -/

@[simp] theorem Block.store_buf (b : Byte) (k : Block) : (k.store b).buf = k.buf.set k.idx.val b k.idx.isLt := rfl
@[simp] theorem Block.store_sum (b : Byte) (k : Block) : (k.store b).sum = k.sum := rfl
@[simp] theorem Block.store_idx (b : Byte) (k : Block) : (k.store b).idx = k.idx := rfl
@[simp] theorem Block.store_mode (b : Byte) (k : Block) : (k.store b).mode = k.mode := rfl
@[simp] theorem Block.store_huntCnt (b : Byte) (k : Block) : (k.store b).huntCnt = k.huntCnt := rfl
@[simp] theorem Block.store_status (b : Byte) (k : Block) : (k.store b).status = k.status := rfl
@[simp] theorem Block.store_pollResult (b : Byte) (k : Block) : (k.store b).pollResult = k.pollResult := rfl
@[simp] theorem Block.store_pcnt (b : Byte) (k : Block) : (k.store b).pcnt = k.pcnt := rfl
@[simp] theorem Block.store_applied (b : Byte) (k : Block) : (k.store b).applied = k.applied := rfl
@[simp] theorem Block.store_raw (b : Byte) (k : Block) : (k.store b).raw = k.raw := rfl
@[simp] theorem Block.store_polling (b : Byte) (k : Block) : (k.store b).polling = k.polling := rfl
@[simp] theorem Block.store_outValid (b : Byte) (k : Block) : (k.store b).outValid = k.outValid := rfl

/-! `Block.accumulate` -/

@[simp] theorem Block.accumulate_buf (b : Byte) (k : Block) : (k.accumulate b).buf = k.buf := rfl
@[simp] theorem Block.accumulate_sum (b : Byte) (k : Block) : (k.accumulate b).sum = k.sum + b := rfl
@[simp] theorem Block.accumulate_idx (b : Byte) (k : Block) : (k.accumulate b).idx = k.idx := rfl
@[simp] theorem Block.accumulate_mode (b : Byte) (k : Block) : (k.accumulate b).mode = k.mode := rfl
@[simp] theorem Block.accumulate_huntCnt (b : Byte) (k : Block) : (k.accumulate b).huntCnt = k.huntCnt := rfl
@[simp] theorem Block.accumulate_status (b : Byte) (k : Block) : (k.accumulate b).status = k.status := rfl
@[simp] theorem Block.accumulate_pollResult (b : Byte) (k : Block) : (k.accumulate b).pollResult = k.pollResult := rfl
@[simp] theorem Block.accumulate_pcnt (b : Byte) (k : Block) : (k.accumulate b).pcnt = k.pcnt := rfl
@[simp] theorem Block.accumulate_applied (b : Byte) (k : Block) : (k.accumulate b).applied = k.applied := rfl
@[simp] theorem Block.accumulate_raw (b : Byte) (k : Block) : (k.accumulate b).raw = k.raw := rfl
@[simp] theorem Block.accumulate_polling (b : Byte) (k : Block) : (k.accumulate b).polling = k.polling := rfl
@[simp] theorem Block.accumulate_outValid (b : Byte) (k : Block) : (k.accumulate b).outValid = k.outValid := rfl

/-! `Block.advance` -/

@[simp] theorem Block.advance_buf (k : Block) : (k.advance).buf = k.buf := rfl
@[simp] theorem Block.advance_sum (k : Block) : (k.advance).sum = k.sum := rfl
@[simp] theorem Block.advance_idx (k : Block) : (k.advance).idx = nextIdx k.idx := rfl
@[simp] theorem Block.advance_mode (k : Block) : (k.advance).mode = k.mode := rfl
@[simp] theorem Block.advance_huntCnt (k : Block) : (k.advance).huntCnt = k.huntCnt := rfl
@[simp] theorem Block.advance_status (k : Block) : (k.advance).status = k.status := rfl
@[simp] theorem Block.advance_pollResult (k : Block) : (k.advance).pollResult = k.pollResult := rfl
@[simp] theorem Block.advance_pcnt (k : Block) : (k.advance).pcnt = k.pcnt := rfl
@[simp] theorem Block.advance_applied (k : Block) : (k.advance).applied = k.applied := rfl
@[simp] theorem Block.advance_raw (k : Block) : (k.advance).raw = k.raw := rfl
@[simp] theorem Block.advance_polling (k : Block) : (k.advance).polling = k.polling := rfl
@[simp] theorem Block.advance_outValid (k : Block) : (k.advance).outValid = k.outValid := rfl

/-! `Block.takeCandidate` -/

@[simp] theorem Block.takeCandidate_buf (b : FrameBuf) (k : Block) : (k.takeCandidate b).buf = b := rfl
@[simp] theorem Block.takeCandidate_sum (b : FrameBuf) (k : Block) : (k.takeCandidate b).sum = checksum b := rfl
@[simp] theorem Block.takeCandidate_idx (b : FrameBuf) (k : Block) : (k.takeCandidate b).idx = 0 := rfl
@[simp] theorem Block.takeCandidate_mode (b : FrameBuf) (k : Block) : (k.takeCandidate b).mode = .idle := rfl
@[simp] theorem Block.takeCandidate_huntCnt (b : FrameBuf) (k : Block) : (k.takeCandidate b).huntCnt = k.huntCnt := rfl
@[simp] theorem Block.takeCandidate_status (b : FrameBuf) (k : Block) : (k.takeCandidate b).status = verdict b[10] (checksum b) := rfl
@[simp] theorem Block.takeCandidate_pollResult (b : FrameBuf) (k : Block) : (k.takeCandidate b).pollResult = k.pollResult := rfl
@[simp] theorem Block.takeCandidate_pcnt (b : FrameBuf) (k : Block) : (k.takeCandidate b).pcnt = k.pcnt := rfl
@[simp] theorem Block.takeCandidate_applied (b : FrameBuf) (k : Block) : (k.takeCandidate b).applied = k.applied := rfl
@[simp] theorem Block.takeCandidate_raw (b : FrameBuf) (k : Block) : (k.takeCandidate b).raw = k.raw := rfl
@[simp] theorem Block.takeCandidate_polling (b : FrameBuf) (k : Block) : (k.takeCandidate b).polling = k.polling := rfl
@[simp] theorem Block.takeCandidate_outValid (b : FrameBuf) (k : Block) : (k.takeCandidate b).outValid = true := rfl

/-! `Block.beginPoll` -/

@[simp] theorem Block.beginPoll_buf (k : Block) : (k.beginPoll).buf = k.buf := rfl
@[simp] theorem Block.beginPoll_sum (k : Block) : (k.beginPoll).sum = k.sum := rfl
@[simp] theorem Block.beginPoll_idx (k : Block) : (k.beginPoll).idx = k.idx := rfl
@[simp] theorem Block.beginPoll_mode (k : Block) : (k.beginPoll).mode = k.mode := rfl
@[simp] theorem Block.beginPoll_huntCnt (k : Block) : (k.beginPoll).huntCnt = k.huntCnt := rfl
@[simp] theorem Block.beginPoll_status (k : Block) : (k.beginPoll).status = k.status := rfl
@[simp] theorem Block.beginPoll_pollResult (k : Block) : (k.beginPoll).pollResult = k.pollResult := rfl
@[simp] theorem Block.beginPoll_pcnt (k : Block) : (k.beginPoll).pcnt = 0 := rfl
@[simp] theorem Block.beginPoll_applied (k : Block) : (k.beginPoll).applied = false := rfl
@[simp] theorem Block.beginPoll_raw (k : Block) : (k.beginPoll).raw = k.raw := rfl
@[simp] theorem Block.beginPoll_polling (k : Block) : (k.beginPoll).polling = k.polling := rfl
@[simp] theorem Block.beginPoll_outValid (k : Block) : (k.beginPoll).outValid = false := rfl

/-! `Block.openCycle` -/

@[simp] theorem Block.openCycle_buf (k : Block) : (k.openCycle).buf = k.buf := rfl
@[simp] theorem Block.openCycle_sum (k : Block) : (k.openCycle).sum = k.sum := rfl
@[simp] theorem Block.openCycle_idx (k : Block) : (k.openCycle).idx = k.idx := rfl
@[simp] theorem Block.openCycle_mode (k : Block) : (k.openCycle).mode = k.mode := rfl
@[simp] theorem Block.openCycle_huntCnt (k : Block) : (k.openCycle).huntCnt = k.huntCnt := rfl
@[simp] theorem Block.openCycle_status (k : Block) : (k.openCycle).status = k.status := rfl
@[simp] theorem Block.openCycle_pollResult (k : Block) : (k.openCycle).pollResult = k.pollResult := rfl
@[simp] theorem Block.openCycle_pcnt (k : Block) : (k.openCycle).pcnt = k.pcnt := rfl
@[simp] theorem Block.openCycle_applied (k : Block) : (k.openCycle).applied = k.applied := rfl
@[simp] theorem Block.openCycle_raw (k : Block) : (k.openCycle).raw = k.raw := rfl
@[simp] theorem Block.openCycle_polling (k : Block) : (k.openCycle).polling = true := rfl
@[simp] theorem Block.openCycle_outValid (k : Block) : (k.openCycle).outValid = k.outValid := rfl

/-! `Block.defer` -/

@[simp] theorem Block.defer_buf (k : Block) : (k.defer).buf = k.buf := rfl
@[simp] theorem Block.defer_sum (k : Block) : (k.defer).sum = k.sum := rfl
@[simp] theorem Block.defer_idx (k : Block) : (k.defer).idx = k.idx := rfl
@[simp] theorem Block.defer_mode (k : Block) : (k.defer).mode = k.mode := rfl
@[simp] theorem Block.defer_huntCnt (k : Block) : (k.defer).huntCnt = k.huntCnt := rfl
@[simp] theorem Block.defer_status (k : Block) : (k.defer).status = k.status := rfl
@[simp] theorem Block.defer_pollResult (k : Block) : (k.defer).pollResult = false := rfl
@[simp] theorem Block.defer_pcnt (k : Block) : (k.defer).pcnt = k.pcnt := rfl
@[simp] theorem Block.defer_applied (k : Block) : (k.defer).applied = k.applied := rfl
@[simp] theorem Block.defer_raw (k : Block) : (k.defer).raw = k.raw := rfl
@[simp] theorem Block.defer_polling (k : Block) : (k.defer).polling = k.polling := rfl
@[simp] theorem Block.defer_outValid (k : Block) : (k.defer).outValid = k.outValid := rfl

/-! `Block.countRead` -/

@[simp] theorem Block.countRead_buf (k : Block) : (k.countRead).buf = k.buf := rfl
@[simp] theorem Block.countRead_sum (k : Block) : (k.countRead).sum = k.sum := rfl
@[simp] theorem Block.countRead_idx (k : Block) : (k.countRead).idx = k.idx := rfl
@[simp] theorem Block.countRead_mode (k : Block) : (k.countRead).mode = k.mode := rfl
@[simp] theorem Block.countRead_huntCnt (k : Block) : (k.countRead).huntCnt = k.huntCnt := rfl
@[simp] theorem Block.countRead_status (k : Block) : (k.countRead).status = k.status := rfl
@[simp] theorem Block.countRead_pollResult (k : Block) : (k.countRead).pollResult = k.pollResult := rfl
@[simp] theorem Block.countRead_pcnt (k : Block) : (k.countRead).pcnt = nextPcnt k.pcnt := rfl
@[simp] theorem Block.countRead_applied (k : Block) : (k.countRead).applied = k.applied := rfl
@[simp] theorem Block.countRead_raw (k : Block) : (k.countRead).raw = k.raw := rfl
@[simp] theorem Block.countRead_polling (k : Block) : (k.countRead).polling = k.polling := rfl
@[simp] theorem Block.countRead_outValid (k : Block) : (k.countRead).outValid = k.outValid := rfl

/-! `Block.endCycle` -/

@[simp] theorem Block.endCycle_buf (p : Params) (k : Block) : (k.endCycle p).buf = k.buf := rfl
@[simp] theorem Block.endCycle_sum (p : Params) (k : Block) : (k.endCycle p).sum = k.sum := rfl
@[simp] theorem Block.endCycle_idx (p : Params) (k : Block) : (k.endCycle p).idx = k.idx := rfl
@[simp] theorem Block.endCycle_mode (p : Params) (k : Block) : (k.endCycle p).mode = k.mode := rfl
@[simp] theorem Block.endCycle_huntCnt (p : Params) (k : Block) : (k.endCycle p).huntCnt = k.huntCnt := rfl
@[simp] theorem Block.endCycle_status (p : Params) (k : Block) : (k.endCycle p).status = k.status := rfl
@[simp] theorem Block.endCycle_pollResult (p : Params) (k : Block) : (k.endCycle p).pollResult = cycleResult p.returnMode k.applied := rfl
@[simp] theorem Block.endCycle_pcnt (p : Params) (k : Block) : (k.endCycle p).pcnt = 0 := rfl
@[simp] theorem Block.endCycle_applied (p : Params) (k : Block) : (k.endCycle p).applied = k.applied := rfl
@[simp] theorem Block.endCycle_raw (p : Params) (k : Block) : (k.endCycle p).raw = k.raw := rfl
@[simp] theorem Block.endCycle_polling (p : Params) (k : Block) : (k.endCycle p).polling = false := rfl
@[simp] theorem Block.endCycle_outValid (p : Params) (k : Block) : (k.endCycle p).outValid = k.outValid := rfl

/-! `Block.countDiscard` -/

@[simp] theorem Block.countDiscard_buf (l : Option Nat) (k : Block) : (k.countDiscard l).buf = k.buf := by cases l <;> rfl
@[simp] theorem Block.countDiscard_sum (l : Option Nat) (k : Block) : (k.countDiscard l).sum = k.sum := by cases l <;> rfl
@[simp] theorem Block.countDiscard_idx (l : Option Nat) (k : Block) : (k.countDiscard l).idx = k.idx := by cases l <;> rfl
@[simp] theorem Block.countDiscard_mode (l : Option Nat) (k : Block) : (k.countDiscard l).mode = k.mode := by cases l <;> rfl
@[simp] theorem Block.countDiscard_none (k : Block) : k.countDiscard none = k := rfl
@[simp] theorem Block.countDiscard_some_huntCnt (m : Nat) (k : Block) : (k.countDiscard (some m)).huntCnt = k.huntCnt + 1 := rfl
@[simp] theorem Block.countDiscard_status (l : Option Nat) (k : Block) : (k.countDiscard l).status = k.status := by cases l <;> rfl
@[simp] theorem Block.countDiscard_pollResult (l : Option Nat) (k : Block) : (k.countDiscard l).pollResult = k.pollResult := by cases l <;> rfl
@[simp] theorem Block.countDiscard_pcnt (l : Option Nat) (k : Block) : (k.countDiscard l).pcnt = k.pcnt := by cases l <;> rfl
@[simp] theorem Block.countDiscard_applied (l : Option Nat) (k : Block) : (k.countDiscard l).applied = k.applied := by cases l <;> rfl
@[simp] theorem Block.countDiscard_raw (l : Option Nat) (k : Block) : (k.countDiscard l).raw = k.raw := by cases l <;> rfl
@[simp] theorem Block.countDiscard_polling (l : Option Nat) (k : Block) : (k.countDiscard l).polling = k.polling := by cases l <;> rfl
@[simp] theorem Block.countDiscard_outValid (l : Option Nat) (k : Block) : (k.countDiscard l).outValid = k.outValid := by cases l <;> rfl

/-! `Block.apply` and `Block.applyRead` -/

@[simp] theorem Block.apply_buf (kind : Kind) (v : Fields) (k : Block) : (k.apply kind v).buf = k.buf := by cases kind <;> rfl
@[simp] theorem Block.apply_sum (kind : Kind) (v : Fields) (k : Block) : (k.apply kind v).sum = k.sum := by cases kind <;> rfl
@[simp] theorem Block.apply_idx (kind : Kind) (v : Fields) (k : Block) : (k.apply kind v).idx = k.idx := by cases kind <;> rfl
@[simp] theorem Block.apply_mode (kind : Kind) (v : Fields) (k : Block) : (k.apply kind v).mode = k.mode := by cases kind <;> rfl
@[simp] theorem Block.apply_huntCnt (kind : Kind) (v : Fields) (k : Block) : (k.apply kind v).huntCnt = k.huntCnt := by cases kind <;> rfl
@[simp] theorem Block.apply_status (kind : Kind) (v : Fields) (k : Block) : (k.apply kind v).status = k.status := by cases kind <;> rfl
@[simp] theorem Block.apply_pollResult (kind : Kind) (v : Fields) (k : Block) : (k.apply kind v).pollResult = k.pollResult := by cases kind <;> rfl
@[simp] theorem Block.apply_pcnt (kind : Kind) (v : Fields) (k : Block) : (k.apply kind v).pcnt = k.pcnt := by cases kind <;> rfl
@[simp] theorem Block.apply_polling (kind : Kind) (v : Fields) (k : Block) : (k.apply kind v).polling = k.polling := by cases kind <;> rfl
@[simp] theorem Block.apply_outValid (kind : Kind) (v : Fields) (k : Block) : (k.apply kind v).outValid = k.outValid := by cases kind <;> rfl
@[simp] theorem Block.apply_raw (kind : Kind) (v : Fields) (k : Block) : (k.apply kind v).raw = k.raw.store kind v := by cases kind <;> rfl
@[simp] theorem Block.apply_applied (kind : Kind) (v : Fields) (k : Block) : (k.apply kind v).applied = (kind != .unknown || k.applied) := by
  cases kind <;> rfl

/-- `applyRead` is `apply` of the decoded buffer after a frame, and nothing otherwise (R124). -/
theorem Block.applyRead_eq (k : Block) :
    k.applyRead = if k.status = .frame then k.apply (decodeFields k.buf).1 (decodeFields k.buf).2 else k := by
  unfold Block.applyRead; cases k.status <;> rfl

@[simp] theorem Block.applyRead_buf (k : Block) : k.applyRead.buf = k.buf := by rw [Block.applyRead_eq]; split <;> simp
@[simp] theorem Block.applyRead_sum (k : Block) : k.applyRead.sum = k.sum := by rw [Block.applyRead_eq]; split <;> simp
@[simp] theorem Block.applyRead_idx (k : Block) : k.applyRead.idx = k.idx := by rw [Block.applyRead_eq]; split <;> simp
@[simp] theorem Block.applyRead_mode (k : Block) : k.applyRead.mode = k.mode := by rw [Block.applyRead_eq]; split <;> simp
@[simp] theorem Block.applyRead_huntCnt (k : Block) : k.applyRead.huntCnt = k.huntCnt := by rw [Block.applyRead_eq]; split <;> simp
@[simp] theorem Block.applyRead_status (k : Block) : k.applyRead.status = k.status := by rw [Block.applyRead_eq]; split <;> simp
@[simp] theorem Block.applyRead_pollResult (k : Block) : k.applyRead.pollResult = k.pollResult := by rw [Block.applyRead_eq]; split <;> simp
@[simp] theorem Block.applyRead_pcnt (k : Block) : k.applyRead.pcnt = k.pcnt := by rw [Block.applyRead_eq]; split <;> simp
@[simp] theorem Block.applyRead_polling (k : Block) : k.applyRead.polling = k.polling := by rw [Block.applyRead_eq]; split <;> simp
@[simp] theorem Block.applyRead_outValid (k : Block) : k.applyRead.outValid = k.outValid := by rw [Block.applyRead_eq]; split <;> simp

/-! Updates of the machine -/

@[simp] theorem State.put_blk (s : State) (r : Block × Env) : (s.put r).blk = r.1 := rfl
@[simp] theorem State.put_env (s : State) (r : Block × Env) : (s.put r).env = r.2 := rfl
@[simp] theorem State.put_caller (s : State) (r : Block × Env) : (s.put r).caller = s.caller := rfl
@[simp] theorem State.put_params (s : State) (r : Block × Env) : (s.put r).params = s.params := rfl
@[simp] theorem State.put_draws (s : State) (r : Block × Env) : (s.put r).draws = s.draws := rfl

@[simp] theorem State.setBlk_blk (s : State) (k : Block) : (s.setBlk k).blk = k := rfl
@[simp] theorem State.setBlk_env (s : State) (k : Block) : (s.setBlk k).env = s.env := rfl
@[simp] theorem State.setBlk_caller (s : State) (k : Block) : (s.setBlk k).caller = s.caller := rfl
@[simp] theorem State.setBlk_params (s : State) (k : Block) : (s.setBlk k).params = s.params := rfl
@[simp] theorem State.setBlk_draws (s : State) (k : Block) : (s.setBlk k).draws = s.draws := rfl

@[simp] theorem State.setEnv_blk (s : State) (e : Env) : (s.setEnv e).blk = s.blk := rfl
@[simp] theorem State.setEnv_env (s : State) (e : Env) : (s.setEnv e).env = e := rfl
@[simp] theorem State.setEnv_caller (s : State) (e : Env) : (s.setEnv e).caller = s.caller := rfl
@[simp] theorem State.setEnv_params (s : State) (e : Env) : (s.setEnv e).params = s.params := rfl
@[simp] theorem State.setEnv_draws (s : State) (e : Env) : (s.setEnv e).draws = s.draws := rfl

@[simp] theorem State.setReply_blk (s : State) (r : Option Reply) : (s.setReply r).blk = s.blk := rfl
@[simp] theorem State.setReply_env (s : State) (r : Option Reply) : (s.setReply r).env = s.env := rfl
@[simp] theorem State.setReply_caller (s : State) (r : Option Reply) : (s.setReply r).caller = ⟨s.caller.inputs, r⟩ := rfl
@[simp] theorem State.setReply_params (s : State) (r : Option Reply) : (s.setReply r).params = s.params := rfl
@[simp] theorem State.setReply_draws (s : State) (r : Option Reply) : (s.setReply r).draws = s.draws := rfl

@[simp] theorem State.setInputs_blk (s : State) (l : List Input) : (s.setInputs l).blk = s.blk := rfl
@[simp] theorem State.setInputs_env (s : State) (l : List Input) : (s.setInputs l).env = s.env := rfl
@[simp] theorem State.setInputs_caller (s : State) (l : List Input) : (s.setInputs l).caller = ⟨l, s.caller.reply⟩ := rfl
@[simp] theorem State.setInputs_params (s : State) (l : List Input) : (s.setInputs l).params = s.params := rfl
@[simp] theorem State.setInputs_draws (s : State) (l : List Input) : (s.setInputs l).draws = s.draws := rfl

@[simp] theorem State.resetInput_blk (s : State) : (s.resetInput).blk = .atReset (freeBuf s.draws) := rfl
@[simp] theorem State.resetInput_env (s : State) : (s.resetInput).env = s.env := rfl
@[simp] theorem State.resetInput_caller (s : State) : (s.resetInput).caller = ⟨s.caller.inputs, none⟩ := rfl
@[simp] theorem State.resetInput_params (s : State) : (s.resetInput).params = s.params := rfl
@[simp] theorem State.resetInput_draws (s : State) : (s.resetInput).draws = s.draws + 11 := rfl

/-! Register counters -/

theorem nextIdx_val {i : Fin 11} (h : i.val ≤ 9) : (nextIdx i).val = i.val + 1 := by
  unfold nextIdx; rw [dif_pos (by omega)]

theorem nextPcnt_val {n : Fin 5} (h : n.val < 4) : (nextPcnt n).val = n.val + 1 := by
  unfold nextPcnt; rw [dif_pos (by omega)]

end Sys2Proof.Machine
end

