-- ==== Sys2Proof/Laws/Env.lean ====
section
/-! SUPPORT. What the environment primitives can do (R31 to R34): one lemma for each, and the laws of successive reads. -/

namespace Sys2Proof.Machine

/-! ### The connection -/

/-- The passing of one exchange moves the connection and its coming changes, and nothing else. -/
theorem Env.tick_cases (e : Env) :
    (∃ up rest, e.links = up :: rest ∧ e.tick = { e with links := rest, link := up }) ∨ (e.links = [] ∧ e.tick = e) := by
  unfold Env.tick
  split
  · next up rest h => exact .inl ⟨up, rest, h, rfl⟩
  · next h => exact .inr ⟨h, rfl⟩

@[simp] theorem Env.tick_fifo (e : Env) : e.tick.fifo = e.fifo := by obtain ⟨u, r, -, h⟩ | ⟨-, h⟩ := e.tick_cases <;> rw [h]
@[simp] theorem Env.tick_waits (e : Env) : e.tick.waits = e.waits := by obtain ⟨u, r, -, h⟩ | ⟨-, h⟩ := e.tick_cases <;> rw [h]
@[simp] theorem Env.tick_tail (e : Env) : e.tick.tail = e.tail := by obtain ⟨u, r, -, h⟩ | ⟨-, h⟩ := e.tick_cases <;> rw [h]
@[simp] theorem Env.tick_log (e : Env) : e.tick.log = e.log := by obtain ⟨u, r, -, h⟩ | ⟨-, h⟩ := e.tick_cases <;> rw [h]

/-- With no coming change the connection stays as it is. -/
theorem Env.tick_of_steady {e : Env} (h : e.links = []) : e.tick = e := by unfold Env.tick; rw [h]

/-- Each exchange uses one coming change up. -/
@[simp] theorem Env.tick_links (e : Env) : e.tick.links = e.links.tail := by
  obtain ⟨u, r, hl, h⟩ | ⟨hl, h⟩ := e.tick_cases <;> rw [h, hl] <;> rfl

/-! ### One read -/

/-- All that `RxRead` can do: on a closed connection it answers no data and removes nothing; on an open one it takes its answer
from the receiver, from the coming waits, or from the tail. It logs its answer. -/
theorem Env.rxRead_cases (e : Env) :
    (e.tick.link = false ∧ e.rxRead = (none, { e.tick with log := .rxRead none :: e.log })) ∨
    (e.tick.link = true ∧ ∃ b rest, e.fifo = b :: rest ∧
      e.rxRead = (some b, { e.tick with fifo := rest, log := .rxRead (some b) :: e.log })) ∨
    (e.tick.link = true ∧ ∃ a rest, e.fifo = [] ∧ e.waits = a :: rest ∧
      e.rxRead = (a, { e.tick with waits := rest, log := .rxRead a :: e.log })) ∨
    (e.tick.link = true ∧ e.fifo = [] ∧ e.waits = [] ∧ e.rxRead = (e.tail, { e.tick with log := .rxRead e.tail :: e.log })) := by
  unfold Env.rxRead
  cases hl : e.tick.link
  · exact .inl ⟨rfl, by simp⟩
  · refine .inr ?_
    simp only [if_true, Env.receive]
    cases hf : e.fifo with
    | cons b rest => exact .inl ⟨trivial, b, rest, rfl, by simp [hf]⟩
    | nil =>
      cases hw : e.waits with
      | cons a rest => exact .inr (.inl ⟨trivial, a, rest, rfl, rfl, by simp [hf, hw]⟩)
      | nil => exact .inr (.inr ⟨trivial, rfl, rfl, by simp [hf, hw]⟩)

@[simp] theorem Env.rxRead_log (e : Env) : e.rxRead.2.log = .rxRead e.rxRead.1 :: e.log := by
  obtain ⟨-, h⟩ | ⟨-, b, r, -, h⟩ | ⟨-, a, r, -, -, h⟩ | ⟨-, -, -, h⟩ := e.rxRead_cases <;> rw [h]

@[simp] theorem Env.rxRead_tail (e : Env) : e.rxRead.2.tail = e.tail := by
  obtain ⟨-, h⟩ | ⟨-, b, r, -, h⟩ | ⟨-, a, r, -, -, h⟩ | ⟨-, -, -, h⟩ := e.rxRead_cases <;> rw [h] <;> simp

@[simp] theorem Env.rxRead_links (e : Env) : e.rxRead.2.links = e.links.tail := by
  obtain ⟨-, h⟩ | ⟨-, b, r, -, h⟩ | ⟨-, a, r, -, -, h⟩ | ⟨-, -, -, h⟩ := e.rxRead_cases <;> rw [h] <;> simp

@[simp] theorem Env.rxRead_link (e : Env) : e.rxRead.2.link = e.tick.link := by
  obtain ⟨-, h⟩ | ⟨-, b, r, -, h⟩ | ⟨-, a, r, -, -, h⟩ | ⟨-, -, -, h⟩ := e.rxRead_cases <;> rw [h]

/-- A read on an open connection of a receiver that holds bytes takes the oldest (E1, E2). -/
theorem Env.rxRead_of_fifo {e : Env} {b : Byte} {rest : List Byte} (ho : e.tick.link = true) (h : e.fifo = b :: rest) :
    e.rxRead = (some b, { e.tick with fifo := rest, log := .rxRead (some b) :: e.log }) := by
  obtain ⟨hc, -⟩ | ⟨-, b', r', hf, h'⟩ | ⟨-, a, r, hf, -⟩ | ⟨-, hf, -⟩ := e.rxRead_cases
  · rw [ho] at hc; cases hc
  · rw [h] at hf; cases hf; exact h'
  · rw [h] at hf; cases hf
  · rw [h] at hf; cases hf

/-- A successful read uses up a byte held or a waiting answer, where there is one; the receiver is read first. -/
theorem Env.rxRead_left {e : Env} (h : e.rxRead.1 ≠ none) :
    e.rxRead.2.fifo = e.fifo.tail ∧ e.rxRead.2.waits = if e.fifo = [] then e.waits.tail else e.waits := by
  obtain ⟨-, h'⟩ | ⟨-, b, r, hf, h'⟩ | ⟨-, a, r, hf, hw, h'⟩ | ⟨-, hf, hw, h'⟩ := e.rxRead_cases
  · rw [h'] at h; simp at h
  · rw [h']; simp [hf]
  · rw [h']; simp [hf, hw]
  · rw [h']; simp [hf, hw]

/-! ### LinkUp and RxCount -/

@[simp] theorem Env.linkUp_fst (e : Env) : e.linkUp.1 = e.tick.link := rfl
@[simp] theorem Env.linkUp_fifo (e : Env) : e.linkUp.2.fifo = e.fifo := by simp [Env.linkUp]
@[simp] theorem Env.linkUp_waits (e : Env) : e.linkUp.2.waits = e.waits := by simp [Env.linkUp]
@[simp] theorem Env.linkUp_tail (e : Env) : e.linkUp.2.tail = e.tail := by simp [Env.linkUp]
@[simp] theorem Env.linkUp_link (e : Env) : e.linkUp.2.link = e.tick.link := rfl
@[simp] theorem Env.linkUp_links (e : Env) : e.linkUp.2.links = e.links.tail := by simp [Env.linkUp]
@[simp] theorem Env.linkUp_log (e : Env) : e.linkUp.2.log = .linkUp e.tick.link :: e.log := by simp [Env.linkUp]

@[simp] theorem Env.rxCount_fst (e : Env) : e.rxCount.1 = e.fifo.length := rfl
@[simp] theorem Env.rxCount_snd (e : Env) : e.rxCount.2 = { e with log := .rxCount e.fifo.length :: e.log } := rfl

/-! ### Successive reads -/

@[simp] theorem Env.reads_zero (e : Env) : e.reads 0 = ([], e) := rfl

theorem Env.reads_succ (n : Nat) (e : Env) :
    e.reads (n + 1) = (e.rxRead.1 :: (e.rxRead.2.reads n).1, (e.rxRead.2.reads n).2) := rfl

/-- The first of the coming answers, and the rest from the environment after it. -/
theorem Env.reads_cons {e e' : Env} {n : Nat} {a : Option Byte} {l : List (Option Byte)}
    (h : e.reads (n + 1) = (a :: l, e')) : ∃ e1, e.rxRead = (a, e1) ∧ e1.reads n = (l, e') := by
  rw [Env.reads_succ] at h
  simp only [Prod.mk.injEq, List.cons.injEq] at h
  exact ⟨e.rxRead.2, Prod.ext h.1.1 rfl, Prod.ext h.1.2 h.2⟩

@[simp] theorem Env.reads_length (n : Nat) (e : Env) : (e.reads n).1.length = n := by
  induction n generalizing e with
  | zero => rfl
  | succ n ih => rw [Env.reads_succ]; simp [ih]

/-- `m + n` attempts are `m` attempts and then `n`. -/
theorem Env.reads_add (m n : Nat) (e : Env) :
    e.reads (m + n) = ((e.reads m).1 ++ ((e.reads m).2.reads n).1, ((e.reads m).2.reads n).2) := by
  induction m generalizing e with
  | zero => simp
  | succ m ih =>
    rw [show m + 1 + n = (m + n) + 1 by omega, Env.reads_succ, Env.reads_succ, ih]; rfl

/-- Reads log their answers, newest first. -/
theorem Env.reads_log (n : Nat) (e : Env) : (e.reads n).2.log = ((e.reads n).1.map Exchange.rxRead).reverse ++ e.log := by
  induction n generalizing e with
  | zero => rfl
  | succ n ih => rw [Env.reads_succ]; simp [ih]

@[simp] theorem Env.reads_tail (n : Nat) (e : Env) : (e.reads n).2.tail = e.tail := by
  induction n generalizing e with
  | zero => rfl
  | succ n ih => rw [Env.reads_succ]; simp [ih]

/-- Fewer attempts get the first of the answers. -/
theorem Env.reads_prefix {m n : Nat} (h : m ≤ n) (e : Env) : (e.reads m).1 <+: (e.reads n).1 := by
  obtain ⟨d, rfl⟩ := Nat.exists_eq_add_of_le h
  rw [Env.reads_add]; exact List.prefix_append _ _

/-! ### An exhausted environment -/

/-- After as many successful reads as it lists answers and changes, an environment lists nothing more. -/
theorem Env.reads_exhaust (n : Nat) (e : Env) (h : e.fifo.length + e.waits.length + e.links.length ≤ n)
    (hs : none ∉ (e.reads n).1) : (e.reads n).2.fifo = [] ∧ (e.reads n).2.waits = [] ∧ (e.reads n).2.links = [] := by
  induction n generalizing e with
  | zero =>
    have hz : e.fifo.length = 0 ∧ e.waits.length = 0 ∧ e.links.length = 0 := by omega
    exact hz.imp List.eq_nil_of_length_eq_zero (And.imp List.eq_nil_of_length_eq_zero List.eq_nil_of_length_eq_zero)
  | succ n ih =>
    rw [Env.reads_succ] at hs ⊢
    simp only [List.mem_cons, not_or] at hs
    obtain ⟨hf, hw⟩ := Env.rxRead_left (Ne.symm hs.1)
    refine ih _ ?_ hs.2
    rw [hf, hw, Env.rxRead_links]
    cases hfe : e.fifo <;> simp [hfe] at h ⊢ <;> omega

/-- What an environment that lists nothing more answers for ever. -/
def Env.finally (e : Env) : Option Byte := if e.link then e.tail else none

theorem Env.reads_of_exhausted (n : Nat) (e : Env) (hf : e.fifo = []) (hw : e.waits = []) (hl : e.links = []) :
    (e.reads n).1 = List.replicate n e.finally := by
  induction n generalizing e with
  | zero => rfl
  | succ n ih =>
    have h : e.rxRead = (e.finally, { e with log := .rxRead e.finally :: e.log }) := by
      have ht := Env.tick_of_steady hl
      obtain ⟨hc, h⟩ | ⟨-, b, r, hf', -⟩ | ⟨-, a, r, -, hw', -⟩ | ⟨hc, -, -, h⟩ := e.rxRead_cases
      · rw [ht] at h hc; simp [h, Env.finally, hc]
      · rw [hf] at hf'; cases hf'
      · rw [hw] at hw'; cases hw'
      · rw [ht] at h hc; simp [h, Env.finally, hc]
    rw [Env.reads_succ, h]
    exact congrArg (e.finally :: ·) (ih { e with log := .rxRead e.finally :: e.log } hf hw hl)

/-- Reads beyond what an environment lists, all of them successful up to there, get one and the same answer. -/
theorem Env.reads_beyond (n m : Nat) (e : Env) (h : e.fifo.length + e.waits.length + e.links.length ≤ n)
    (hs : none ∉ (e.reads n).1) : ∃ a, (a = e.tail ∨ a = none) ∧ (e.reads (n + m)).1 = (e.reads n).1 ++ List.replicate m a := by
  obtain ⟨hf, hw, hl⟩ := Env.reads_exhaust n e h hs
  refine ⟨(e.reads n).2.finally, ?_, ?_⟩
  · unfold Env.finally; split
    · exact .inl (Env.reads_tail n e)
    · exact .inr rfl
  · rw [Env.reads_add]; simp only [Env.reads_of_exhausted m _ hf hw hl]

/-- Garbage that is followed by an answer that ends a hunt is shorter than the hunt's bound, where no limit is set. -/
theorem Env.garbage_length (g : List Byte) (x : Option Byte) (e e' : Env) (hg : Garbage g) (hx : x = none ∨ x = some Config.marker)
    (h : e.reads (g.length + 1) = (g.map some ++ [x], e')) :
    g.length < e.fifo.length + e.waits.length + e.links.length + 1 := by
  by_contra hlt
  obtain ⟨d, hd⟩ := Nat.exists_eq_add_of_le (Nat.le_of_not_lt hlt)
  have h1 := congrArg Prod.fst h
  have hpre : (e.reads (e.fifo.length + e.waits.length + e.links.length)).1 <+: g.map some :=
    List.prefix_of_prefix_length_le (Env.reads_prefix (n := g.length + 1) (by omega) e) (by rw [h1]; exact List.prefix_append _ _)
      (by simp; omega)
  have hs : none ∉ (e.reads (e.fifo.length + e.waits.length + e.links.length)).1 := fun hn => by
    simpa using hpre.subset hn
  obtain ⟨a, -, ha⟩ := Env.reads_beyond _ (d + 2) e (Nat.le_refl _) hs
  rw [show g.length + 1 = (e.fifo.length + e.waits.length + e.links.length) + (d + 2) by omega, ha] at h1
  have hlast := congrArg List.getLast? h1
  have hprev := congrArg (fun l : List (Option Byte) => l[e.fifo.length + e.waits.length + e.links.length]?) h1
  simp [List.getElem?_append, List.getLast?_append, List.getLast?_replicate] at hlast hprev
  rw [if_pos (by omega)] at hprev
  obtain ⟨y, hy, hyt⟩ : ∃ y ∈ g, some y = a := by
    rw [List.getElem?_eq_getElem (by omega)] at hprev
    simp only [Option.map_some, Option.some.injEq] at hprev
    exact ⟨_, List.getElem_mem _, hprev.symm⟩
  have := hg y hy
  rcases hx with rfl | rfl <;> simp_all

/-! ### Measures of the log -/

@[simp] theorem linkSamples_cons_linkUp (u : Bool) (l : List Exchange) : linkSamples (.linkUp u :: l) = linkSamples l + 1 := by
  simp [linkSamples]
@[simp] theorem linkSamples_cons_rxRead (a : Option Byte) (l : List Exchange) : linkSamples (.rxRead a :: l) = linkSamples l := by
  simp [linkSamples]
@[simp] theorem linkSamples_cons_rxCount (n : Nat) (l : List Exchange) : linkSamples (.rxCount n :: l) = linkSamples l := by
  simp [linkSamples]
@[simp] theorem readAttempts_cons_linkUp (u : Bool) (l : List Exchange) : readAttempts (.linkUp u :: l) = readAttempts l := by
  simp [readAttempts]
@[simp] theorem readAttempts_cons_rxRead (a : Option Byte) (l : List Exchange) : readAttempts (.rxRead a :: l) = readAttempts l + 1 := by
  simp [readAttempts]
@[simp] theorem readAttempts_cons_rxCount (n : Nat) (l : List Exchange) : readAttempts (.rxCount n :: l) = readAttempts l := by
  simp [readAttempts]
@[simp] theorem countSamples_cons_linkUp (u : Bool) (l : List Exchange) : countSamples (.linkUp u :: l) = countSamples l := by
  simp [countSamples]
@[simp] theorem countSamples_cons_rxRead (a : Option Byte) (l : List Exchange) : countSamples (.rxRead a :: l) = countSamples l := by
  simp [countSamples]
@[simp] theorem countSamples_cons_rxCount (n : Nat) (l : List Exchange) : countSamples (.rxCount n :: l) = countSamples l + 1 := by
  simp [countSamples]

/-- Reads make as many attempts as they are, and sample nothing else. -/
theorem Env.reads_measures (n : Nat) (e : Env) :
    readAttempts (e.reads n).2.log = readAttempts e.log + n ∧ linkSamples (e.reads n).2.log = linkSamples e.log ∧
    countSamples (e.reads n).2.log = countSamples e.log := by
  induction n generalizing e with
  | zero => exact ⟨rfl, rfl, rfl⟩
  | succ n ih =>
    obtain ⟨h1, h2, h3⟩ := ih e.rxRead.2
    rw [Env.reads_succ]; simp only [Env.rxRead_log, readAttempts_cons_rxRead, linkSamples_cons_rxRead, countSamples_cons_rxRead] at *
    exact ⟨by omega, h2, h3⟩

end Sys2Proof.Machine
end

