-- ==== Sys2Proof/Laws/PerInstr.lean ====
section
/-! SUPPORT. Claims about every instruction as syntax, one lemma per constructor. -/

namespace Sys2Proof.Laws.EncodeLength

/-- The bytes of an encoding: 11 that begin with the marker (R50, R52), or one operation code in bits 2:0 (R60). -/
def Statement (i : Instr) : Prop :=
  ((encode i).length = 11 ∧ (encode i).head? = some Config.marker) ∨ (∃ b, encode i = [b] ∧ b.toNat < 8)

theorem frameAcc (p : Payload) : Statement (.frameAcc p) := .inl ⟨rfl, rfl⟩
theorem frameGyro (p : Payload) : Statement (.frameGyro p) := .inl ⟨rfl, rfl⟩
theorem frameAngle (p : Payload) : Statement (.frameAngle p) := .inl ⟨rfl, rfl⟩
theorem frameUnknown (hdr : Byte) (p : Payload) : Statement (.frameUnknown hdr p) := .inl ⟨rfl, rfl⟩
theorem readFrame : Statement .readFrame := .inr ⟨1, rfl, by decide⟩
theorem poll : Statement .poll := .inr ⟨2, rfl, by decide⟩
theorem getAcc : Statement .getAcc := .inr ⟨4, rfl, by decide⟩
theorem getGyro : Statement .getGyro := .inr ⟨5, rfl, by decide⟩
theorem getAngle : Statement .getAngle := .inr ⟨6, rfl, by decide⟩
theorem reservedOp0 : Statement .reservedOp0 := .inr ⟨0, rfl, by decide⟩
theorem reservedOp3 : Statement .reservedOp3 := .inr ⟨3, rfl, by decide⟩
theorem reservedOp7 : Statement .reservedOp7 := .inr ⟨7, rfl, by decide⟩

end Sys2Proof.Laws.EncodeLength
end

