-- ==== Sys2Proof/Laws/Reader.lean ====
section
/-! SUPPORT. What the reader can do (R70 to R78): one lemma for the hunt, one for the collection, one for the operation. -/

namespace Sys2Proof.Machine

/-! ### The hunt -/

/-- The block after `n` discarded bytes: only `HUNT_CNT` can have moved (R84). -/
def Block.afterDiscards (limit : Option Nat) (n : Nat) (k : Block) : Block :=
  { k with huntCnt := if limit.isSome then k.huntCnt + n else k.huntCnt }

@[simp] theorem Block.afterDiscards_zero (l : Option Nat) (k : Block) : k.afterDiscards l 0 = k := by
  cases l <;> rfl

theorem Block.afterDiscards_succ (l : Option Nat) (n : Nat) (k : Block) :
    (k.countDiscard l).afterDiscards l n = k.afterDiscards l (n + 1) := by
  cases l with
  | none => rfl
  | some m =>
    simp only [Block.afterDiscards, Block.countDiscard, Option.isSome_some, if_true]
    rw [Nat.add_assoc, Nat.add_comm 1 n]

/-- All that a hunt can do: it discards some garbage `g`, and then meets the marker, no data or the limit, or runs on. -/
theorem hunt_cases (p : Params) (n : Nat) (k : Block) (e : Env) :
    ∃ (g : List Byte) (e' : Env), Garbage g ∧
      ((hunt p n k e = .found (k.afterDiscards p.huntLimit g.length) e' ∧
          e.reads (g.length + 1) = (g.map some ++ [some Config.marker], e')) ∨
       (hunt p n k e = .over ((k.afterDiscards p.huntLimit g.length).finish .noData) e' ∧
          e.reads (g.length + 1) = (g.map some ++ [none], e')) ∨
       (hunt p n k e = .over ((k.afterDiscards p.huntLimit g.length).finish .noData) e' ∧
          e.reads g.length = (g.map some, e') ∧ 1 ≤ g.length ∧ p.huntLimit = some (k.huntCnt + g.length)) ∨
       (hunt p n k e = .going (k.afterDiscards p.huntLimit g.length) e' ∧
          e.reads g.length = (g.map some, e') ∧ g.length = n ∧
          ∀ m, p.huntLimit = some m → m ≤ k.huntCnt ∨ k.huntCnt + n < m)) := by
  induction n generalizing k e with
  | zero =>
    refine ⟨[], e, by simp [Garbage], .inr (.inr (.inr ⟨by simp [hunt], rfl, rfl, fun m _ => by omega⟩))⟩
  | succ n ih =>
    rcases hr : e.rxRead with ⟨a, e1⟩
    cases a with
    | none =>
      refine ⟨[], e1, by simp [Garbage], .inr (.inl ⟨by simp [hunt, hr], ?_⟩)⟩
      simp [Env.reads, hr]
    | some b =>
      by_cases hb : b = Config.marker
      · refine ⟨[], e1, by simp [Garbage], .inl ⟨by simp [hunt, hr, hb], ?_⟩⟩
        simp [Env.reads, hr, hb]
      · by_cases hl : (k.countDiscard p.huntLimit).limitReached p.huntLimit = true
        · refine ⟨[b], e1, by simpa [Garbage] using hb, .inr (.inr (.inl ⟨?_, ?_, by simp, ?_⟩))⟩
          · simp [hunt, hr, hb, hl, ← Block.afterDiscards_succ]
          · simp [Env.reads, hr]
          · cases hm : p.huntLimit with
            | none => simp [hm, Block.limitReached] at hl
            | some m => simpa [hm, Block.limitReached] using hl
        · obtain ⟨g, e', hg, h⟩ := ih (k.countDiscard p.huntLimit) e1
          have hstep : hunt p (n + 1) k e = hunt p n (k.countDiscard p.huntLimit) e1 := by simp [hunt, hr, hb, hl]
          have hrd : ∀ m l, e1.reads m = (l, e') → e.reads (m + 1) = (some b :: l, e') := by
            intro m l h; rw [Env.reads_succ, hr]; simp [h]
          refine ⟨b :: g, e', ?_, ?_⟩
          · intro x hx
            rcases List.mem_cons.1 hx with rfl | hx
            · exact hb
            · exact hg x hx
          · simp only [Block.afterDiscards_succ] at h
            rw [hstep]
            simp only [List.length_cons, List.map_cons, List.cons_append]
            rcases h with ⟨h1, h2⟩ | ⟨h1, h2⟩ | ⟨h1, h2, h3, h4⟩ | ⟨h1, h2, h3, h4⟩
            · exact .inl ⟨h1, hrd _ _ h2⟩
            · exact .inr (.inl ⟨h1, hrd _ _ h2⟩)
            · refine .inr (.inr (.inl ⟨h1, hrd _ _ h2, by omega, ?_⟩))
              cases hm : p.huntLimit with
              | none => simp [hm] at h4
              | some m =>
                simp only [hm, Block.countDiscard_some_huntCnt, Option.some.injEq] at h4 ⊢
                omega
            · refine .inr (.inr (.inr ⟨h1, hrd _ _ h2, by omega, ?_⟩))
              intro m hm
              have hc := h4 m hm
              rw [hm] at hl hc
              simp only [Block.countDiscard_some_huntCnt, Block.limitReached, beq_iff_eq, Option.some.injEq] at hl hc
              omega

/-! ### The collection -/

theorem take_succ_set {l : List Byte} {i : Nat} (b : Byte) (h : i < l.length) : (l.set i b).take (i + 1) = l.take i ++ [b] := by
  rw [List.take_set, List.take_add_one, List.getElem?_eq_getElem h]
  apply List.ext_getElem?
  intro j
  grind

theorem drop_set_lt {l : List Byte} {i n : Nat} (b : Byte) (h : i < n) : (l.set i b).drop n = l.drop n := by
  rw [List.drop_set]; simp [h]

/-- A collected byte that is not the last (R74, R75). -/
def Block.take (k : Block) (b : Byte) : Block := ((k.store b).accumulate b).advance

/-- What bytes collected from `IDX` on leave in the registers: they stand in `BUF` in their order, in `SUM`, and in `IDX`. -/
theorem Block.foldl_take (c : List Byte) (k : Block) (h : k.idx.val + c.length ≤ 10) :
    (c.foldl Block.take k).buf.toList = k.buf.toList.take k.idx.val ++ c ++ k.buf.toList.drop (k.idx.val + c.length) ∧
    (c.foldl Block.take k).sum = c.foldl (· + ·) k.sum ∧ (c.foldl Block.take k).idx.val = k.idx.val + c.length ∧
    c.foldl Block.take k = { k with buf := (c.foldl Block.take k).buf, sum := (c.foldl Block.take k).sum, idx := (c.foldl Block.take k).idx } := by
  induction c generalizing k with
  | nil => simp
  | cons b c ih =>
    simp only [List.length_cons] at h
    have hi : (k.take b).idx.val = k.idx.val + 1 := nextIdx_val (by simp; omega)
    obtain ⟨h1, h2, h3, h4⟩ := ih (k.take b) (by omega)
    have hbuf : (k.take b).buf.toList = k.buf.toList.set k.idx.val b := by
      simp [Block.take, Vector.toList_set]
    have hlen : k.buf.toList.length = 11 := by simp
    refine ⟨?_, ?_, ?_, ?_⟩
    · rw [List.foldl_cons, h1, hi, hbuf, List.length_cons, take_succ_set b (by omega), drop_set_lt b (by omega)]
      simp [Nat.add_assoc, Nat.add_comm 1]
    · rw [List.foldl_cons, h2]; rfl
    · rw [List.foldl_cons, h3, hi, List.length_cons]; omega
    · rw [List.foldl_cons, h4]; rfl

/-- All that a collection from `IDX` on can do, given the attempts it may need: it takes some bytes `c`, and then underruns, or takes
one more and compares it with the sum (R76, R77). -/
theorem collect_cases (n : Nat) (k : Block) (e : Env) (h : 11 ≤ n + k.idx.val) :
    ∃ (c : List Byte) (e' : Env),
      (collect n k e = ((c.foldl Block.take k).finish .underrun, e') ∧ k.idx.val + c.length ≤ 10 ∧
        e.reads (c.length + 1) = (c.map some ++ [none], e')) ∨
      (∃ b, collect n k e = (((c.foldl Block.take k).store b).finish (verdict b (c.foldl Block.take k).sum), e') ∧
        k.idx.val + c.length = 10 ∧ e.reads (c.length + 1) = (c.map some ++ [some b], e')) := by
  induction n generalizing k e with
  | zero => have := k.idx.isLt; omega
  | succ n ih =>
    rcases hr : e.rxRead with ⟨a, e1⟩
    cases a with
    | none =>
      refine ⟨[], e1, .inl ⟨by simp [collect, hr], by have := k.idx.isLt; simp; omega, ?_⟩⟩
      simp [Env.reads, hr]
    | some b =>
      by_cases hi : k.idx.val ≤ 9
      · have hnext : (k.take b).idx.val = k.idx.val + 1 := nextIdx_val (by simpa using hi)
        have hstep : collect (n + 1) k e = collect n (k.take b) e1 := by simp [collect, hr, hi, Block.take]
        have hrd : ∀ m l e', e1.reads m = (l, e') → e.reads (m + 1) = (some b :: l, e') := by
          intro m l e' h; rw [Env.reads_succ, hr]; simp [h]
        obtain ⟨c, e', h'⟩ := ih (k.take b) e1 (by omega)
        refine ⟨b :: c, e', ?_⟩
        rw [hstep]
        simp only [List.length_cons, List.map_cons, List.cons_append, List.foldl_cons]
        rcases h' with ⟨h1, h2, h3⟩ | ⟨x, h1, h2, h3⟩
        · exact .inl ⟨h1, by omega, hrd _ _ _ h3⟩
        · exact .inr ⟨x, h1, by omega, hrd _ _ _ h3⟩
      · have h10 : k.idx.val = 10 := by have := k.idx.isLt; omega
        refine ⟨[], e1, .inr ⟨b, ?_, by simpa using h10, by simp [Env.reads, hr]⟩⟩
        have hb : (k.store b).buf[10] = b := by simp [h10]
        simp only [collect, hr, hi, if_false, List.foldl_nil, hb, Block.store_sum]

/-! ### The operation -/

/-- The list form of the checksum: the sum of the first ten bytes. -/
theorem checksum_eq_partialSum (b : FrameBuf) : checksum b = partialSum b 10 := by
  obtain ⟨⟨l⟩, hl⟩ := b
  match l, hl with
  | [x0, x1, x2, x3, x4, x5, x6, x7, x8, x9, x10], _ => simp [checksum, partialSum, Vector.toList]

/-- A buffer of eleven bytes from its list. -/
theorem FrameBuf.exists_of_length {l : List Byte} (h : l.length = 11) : ∃ b : FrameBuf, b.toList = l := ⟨⟨⟨l⟩, h⟩, rfl⟩

/-- The block at the moment a candidate's first bytes `b :: c` are in, after `g` discarded bytes. -/
def Block.collecting (p : Params) (g c : List Byte) (k : Block) : Block :=
  c.foldl Block.take (k.beginHunt.afterDiscards p.huntLimit g.length).markerFound

/-- The candidate block in closed form: `BUF` holds the marker and `c`, `SUM` their sum, the rest of `BUF` is as before. -/
theorem Block.collecting_spec (p : Params) (g c : List Byte) (k : Block) (h : c.length ≤ 9) :
    ∃ buf : FrameBuf, k.collecting p g c = { k with
        buf := buf, sum := (Config.marker :: c).foldl (· + ·) 0, idx := ⟨c.length + 1, by omega⟩, mode := .collect
        huntCnt := countAfter p g.length, outValid := false } ∧
      buf.toList = Config.marker :: c ++ k.buf.toList.drop (c.length + 1) := by
  obtain ⟨h1, h2, h3, h4⟩ :=
    Block.foldl_take c (k.beginHunt.afterDiscards p.huntLimit g.length).markerFound (by simp; omega)
  refine ⟨(k.collecting p g c).buf, ?_, ?_⟩
  · have hi : (k.collecting p g c).idx = ⟨c.length + 1, by omega⟩ := by
      apply Fin.ext; rw [Block.collecting, h3]; simp only [Block.markerFound_idx]; omega
    have hs : (k.collecting p g c).sum = (Config.marker :: c).foldl (· + ·) 0 := by
      rw [Block.collecting, h2]; simp
    rw [← hi, ← hs]
    refine (show k.collecting p g c = _ from h4).trans (Block.mk.injEq .. ▸ ⟨rfl, rfl, rfl, rfl, ?_, rfl, rfl, rfl, rfl, rfl, rfl, rfl⟩)
    simp only [Block.markerFound_huntCnt, Block.afterDiscards, Block.beginHunt_huntCnt, countAfter, Nat.zero_add]
  · rw [Block.collecting, h1]
    have hlen : k.buf.toList.length = 11 := by simp
    have : k.buf.toList ≠ [] := by intro h0; simp [h0] at hlen
    obtain ⟨x, l, hx⟩ := List.exists_cons_of_ne_nil this
    simp [Block.afterDiscards, Block.beginHunt, Vector.toList_set, hx, Nat.add_comm 1]

/-- The candidate complete: all eleven bytes `b` in `BUF`, their checksum in `SUM`, and the verdict (R76). -/
theorem Block.collecting_complete (p : Params) (g c : List Byte) (x : Byte) (k : Block) (b : FrameBuf) (h : c.length = 9)
    (hb : b.toList = Config.marker :: c ++ [x]) :
    ((k.collecting p g c).store x).finish (verdict x (k.collecting p g c).sum) = { k with
      buf := b, sum := checksum b, idx := 0, mode := .idle, huntCnt := countAfter p g.length
      status := verdict b[10] (checksum b), outValid := true } := by
  obtain ⟨buf, h1, h2⟩ := Block.collecting_spec p g c k (by omega)
  have hsum : checksum b = (Config.marker :: c).foldl (· + ·) 0 := by
    rw [checksum_eq_partialSum, partialSum, hb, List.take_append_of_le_length (by simp [h]), List.take_of_length_le (by simp [h])]
  have hx : b[10] = x := by
    have : b.toList[10]? = some x := by rw [hb]; simp [h]
    simpa using this
  have hbuf : (k.collecting p g c).store x = { k.collecting p g c with buf := b } := by
    simp only [Block.store, Block.mk.injEq, and_true]
    apply Vector.toList_inj.1
    rw [Vector.toList_set, h1, hb]
    simp only [h2, h]
    have hlen : k.buf.toList.length = 11 := by simp
    have hd : ∃ y, k.buf.toList.drop 10 = [y] := List.length_eq_one_iff.1 (by simp)
    obtain ⟨y, hy⟩ := hd
    rw [hy]
    match c, h with
    | [c1, c2, c3, c4, c5, c6, c7, c8, c9], _ => rfl
  rw [hbuf, h1, hx, hsum]
  rfl

/-- All that `READ_FRAME` can do (R70): the link is down; or, after some garbage `g`, no data, the limit, an underrun with `c`
collected, a whole candidate `b`, or a hunt that runs on. -/
theorem readFrame_cases (p : Params) (k : Block) (e : Env) :
    (e.linkUp.1 = false ∧ readFrame p k e = (k.beginHunt.finish .noData, e.linkUp.2)) ∨
    (e.linkUp.1 = true ∧ ∃ (g : List Byte) (e' : Env), Garbage g ∧
      ((readFrame p k e = ((k.beginHunt.afterDiscards p.huntLimit g.length).finish .noData, e') ∧
          (e.linkUp.2.reads (g.length + 1) = (g.map some ++ [none], e') ∨
            (e.linkUp.2.reads g.length = (g.map some, e') ∧ 1 ≤ g.length ∧ p.huntLimit = some g.length))) ∨
       (∃ c, c.length ≤ 9 ∧ readFrame p k e = ((k.collecting p g c).finish .underrun, e') ∧
          e.linkUp.2.reads (g.length + c.length + 2) = (g.map some ++ some Config.marker :: (c.map some ++ [none]), e')) ∨
       (∃ b : FrameBuf, b[0] = Config.marker ∧ readFrame p k e = ({ k with
            buf := b, sum := checksum b, idx := 0, mode := .idle, huntCnt := countAfter p g.length
            status := verdict b[10] (checksum b), outValid := true }, e') ∧
          e.linkUp.2.reads (g.length + 11) = (g.map some ++ b.toList.map some, e')) ∨
       (readFrame p k e = (k.beginHunt.afterDiscards p.huntLimit g.length, e') ∧
          e.linkUp.2.reads g.length = (g.map some, e') ∧ g.length = huntBound p e.linkUp.2 ∧
          ∀ m, p.huntLimit = some m → m = 0))) := by
  rcases hl : e.linkUp with ⟨up, e1⟩
  cases up with
  | false => exact .inl ⟨rfl, by simp [readFrame, hl]⟩
  | true =>
    refine .inr ⟨rfl, ?_⟩
    simp only
    obtain ⟨g, e2, hg, h⟩ := hunt_cases p (huntBound p e1) k.beginHunt e1
    rcases h with ⟨h1, h2⟩ | ⟨h1, h2⟩ | ⟨h1, h2, h3, h4⟩ | ⟨h1, h2, h3, h4⟩
    · have hrd : ∀ m l e3, e2.reads m = (l, e3) →
          e1.reads (g.length + 1 + m) = (g.map some ++ some Config.marker :: l, e3) := by
        intro m l e3 h; rw [Env.reads_add, h2]; simp [h]
      have hcol : ∀ e3, collect Config.bodyLen (k.beginHunt.afterDiscards p.huntLimit g.length).markerFound e2 = e3 →
          readFrame p k e = e3 := by
        intro e3 h; simp [readFrame, hl, h1, h]
      obtain ⟨c, e3, h'⟩ := collect_cases Config.bodyLen
        (k.beginHunt.afterDiscards p.huntLimit g.length).markerFound e2 (by simp [Config.bodyLen])
      rcases h' with ⟨k1, k2, k3⟩ | ⟨x, k1, k2, k3⟩
      · refine ⟨g, e3, hg, .inr (.inl ⟨c, by simp at k2; omega, hcol _ k1, ?_⟩)⟩
        rw [← hrd _ _ _ k3]; congr 1; omega
      · have hc : c.length = 9 := by simp at k2; omega
        obtain ⟨b, hb⟩ := FrameBuf.exists_of_length (l := Config.marker :: c ++ [x]) (by simp [hc])
        refine ⟨g, e3, hg, .inr (.inr (.inl ⟨b, ?_, ?_, ?_⟩))⟩
        · have : b.toList[0]? = some Config.marker := by rw [hb]; rfl
          simpa using this
        · rw [hcol _ k1]
          exact congrArg (·, e3) (Block.collecting_complete p g c x k b hc hb)
        · rw [hb, show g.length + 11 = g.length + 1 + (c.length + 1) by omega, hrd _ _ _ k3]; simp
    · exact ⟨g, e2, hg, .inl ⟨by simp [readFrame, hl, h1], .inl h2⟩⟩
    · refine ⟨g, e2, hg, .inl ⟨by simp [readFrame, hl, h1], .inr ⟨h2, h3, ?_⟩⟩⟩
      simpa [Block.beginHunt] using h4
    · refine ⟨g, e2, hg, .inr (.inr (.inr ⟨by simp [readFrame, hl, h1], h2, h3, ?_⟩))⟩
      intro m hm
      have := h4 m hm
      simp only [Block.beginHunt_huntCnt, huntBound, hm, Option.getD_some] at this
      omega

/-! ### The operation, answer by answer -/

/-- `HUNT_LIMIT` lets a hunt that has counted `c` bytes discard `n` more. -/
def Room (limit : Option Nat) (c n : Nat) : Prop := ∀ m, limit = some m → c + n < m

/-- A hunt that is given garbage and then an answer that ends it. -/
theorem hunt_of_reads (p : Params) (g : List Byte) (n : Nat) (k : Block) (e e' : Env) (x : Option Byte) (hg : Garbage g)
    (hroom : Room p.huntLimit k.huntCnt g.length) (hn : g.length < n) (h : e.reads (g.length + 1) = (g.map some ++ [x], e')) :
    (x = none → hunt p n k e = .over ((k.afterDiscards p.huntLimit g.length).finish .noData) e') ∧
    (x = some Config.marker → hunt p n k e = .found (k.afterDiscards p.huntLimit g.length) e') := by
  induction g generalizing n k e with
  | nil =>
    obtain ⟨n, rfl⟩ : ∃ m, n = m + 1 := ⟨n - 1, by omega⟩
    obtain ⟨e1, h1, h2⟩ := Env.reads_cons h
    obtain rfl : e1 = e' := by simpa using h2
    constructor <;> rintro rfl <;> simp [hunt, h1]
  | cons b g ih =>
    obtain ⟨n, rfl⟩ : ∃ m, n = m + 1 := ⟨n - 1, by omega⟩
    obtain ⟨e1, h1, h2⟩ := Env.reads_cons h
    have hb : b ≠ Config.marker := hg b (by simp)
    have hl : (k.countDiscard p.huntLimit).limitReached p.huntLimit = false := by
      cases hm : p.huntLimit with
      | none => rfl
      | some m =>
        have := hroom m hm
        simp only [List.length_cons] at this
        simp only [Block.limitReached, Block.countDiscard_some_huntCnt, beq_eq_false_iff_ne, ne_eq, Option.some.injEq]
        omega
    have hroom' : Room p.huntLimit (k.countDiscard p.huntLimit).huntCnt g.length := by
      intro m hm
      have := hroom m hm
      simp only [List.length_cons] at this
      rw [hm, Block.countDiscard_some_huntCnt]; omega
    have hstep : hunt p (n + 1) k e = hunt p n (k.countDiscard p.huntLimit) e1 := by simp [hunt, h1, hb, hl]
    have := ih n (k.countDiscard p.huntLimit) e1 (fun z hz => hg z (by simp [hz])) hroom' (by simp at hn; omega) h2
    rw [hstep, List.length_cons, ← Block.afterDiscards_succ]
    exact this

/-- A hunt that is given garbage up to the limit. -/
theorem hunt_of_limit (p : Params) (g : List Byte) (n : Nat) (k : Block) (e e' : Env) (hg : Garbage g) (h1 : 1 ≤ g.length)
    (hl : p.huntLimit = some (k.huntCnt + g.length)) (hn : g.length ≤ n) (h : e.reads g.length = (g.map some, e')) :
    hunt p n k e = .over ((k.afterDiscards p.huntLimit g.length).finish .noData) e' := by
  induction g generalizing n k e with
  | nil => simp at h1
  | cons b g ih =>
    obtain ⟨n, rfl⟩ : ∃ m, n = m + 1 := ⟨n - 1, by simp at hn; omega⟩
    obtain ⟨e1, h2, h3⟩ := Env.reads_cons h
    have hb : b ≠ Config.marker := hg b (by simp)
    cases g with
    | nil =>
      obtain rfl : e1 = e' := by simpa using h3
      have : (k.countDiscard p.huntLimit).limitReached p.huntLimit = true := by
        rw [hl]; simp [Block.limitReached]
      simp [hunt, h2, hb, this, ← Block.afterDiscards_succ]
    | cons c g =>
      have hlim : (k.countDiscard p.huntLimit).limitReached p.huntLimit = false := by
        rw [hl]; simp [Block.limitReached]
      have hstep : hunt p (n + 1) k e = hunt p n (k.countDiscard p.huntLimit) e1 := by simp [hunt, h2, hb, hlim]
      rw [hstep, List.length_cons, ← Block.afterDiscards_succ]
      refine ih n (k.countDiscard p.huntLimit) e1 (fun z hz => hg z (by simp [hz])) (by simp) ?_ (by simpa using hn) h3
      rw [hl]; simp only [Block.countDiscard_some_huntCnt, List.length_cons, Option.some.injEq]; omega

/-- A hunt that is given nothing but garbage, with no limit, runs on. -/
theorem hunt_of_garbage (p : Params) (n : Nat) (k : Block) (e : Env) (hl : p.huntLimit = none)
    (h : ∀ a ∈ (e.reads n).1, ∃ b, a = some b ∧ b ≠ Config.marker) : hunt p n k e = .going k (e.reads n).2 := by
  induction n generalizing e with
  | zero => rfl
  | succ n ih =>
    rw [Env.reads_succ] at h ⊢
    obtain ⟨b, hb, hm⟩ := h e.rxRead.1 (by simp)
    have hr : e.rxRead = (some b, e.rxRead.2) := Prod.ext hb rfl
    have := ih e.rxRead.2 fun a ha => h a (by simp [ha])
    rw [hunt, hr]
    simp [hm, hl, Block.limitReached, this]

/-- A collection that runs dry after `c` (R77). -/
theorem collect_of_underrun (c : List Byte) (n : Nat) (k : Block) (e e' : Env) (hc : k.idx.val + c.length ≤ 10) (hn : c.length < n)
    (h : e.reads (c.length + 1) = (c.map some ++ [none], e')) :
    collect n k e = ((c.foldl Block.take k).finish .underrun, e') := by
  induction c generalizing n k e with
  | nil =>
    obtain ⟨n, rfl⟩ : ∃ m, n = m + 1 := ⟨n - 1, by omega⟩
    obtain ⟨e1, h1, h2⟩ := Env.reads_cons h
    obtain rfl : e1 = e' := by simpa using h2
    simp [collect, h1]
  | cons b c ih =>
    obtain ⟨n, rfl⟩ : ∃ m, n = m + 1 := ⟨n - 1, by omega⟩
    obtain ⟨e1, h1, h2⟩ := Env.reads_cons h
    simp only [List.length_cons] at hc hn
    have hi : k.idx.val ≤ 9 := by omega
    have hnext : (k.take b).idx.val = k.idx.val + 1 := nextIdx_val (by simpa using hi)
    rw [List.foldl_cons, ← ih n (k.take b) e1 (by omega) (by omega) h2]
    simp [collect, h1, hi, Block.take]

/-- A collection that gets its last byte `x` after `c` (R76). -/
theorem collect_of_complete (c : List Byte) (x : Byte) (n : Nat) (k : Block) (e e' : Env) (hc : k.idx.val + c.length = 10)
    (hn : c.length < n) (h : e.reads (c.length + 1) = (c.map some ++ [some x], e')) :
    collect n k e = (((c.foldl Block.take k).store x).finish (verdict x (c.foldl Block.take k).sum), e') := by
  induction c generalizing n k e with
  | nil =>
    obtain ⟨n, rfl⟩ : ∃ m, n = m + 1 := ⟨n - 1, by omega⟩
    obtain ⟨e1, h1, h2⟩ := Env.reads_cons h
    obtain rfl : e1 = e' := by simpa using h2
    have h10 : k.idx.val = 10 := by simpa using hc
    have hb : (k.store x).buf[10] = x := by simp [h10]
    have hi : ¬ k.idx.val ≤ 9 := by omega
    simp only [collect, h1, hi, if_false, List.foldl_nil, hb, Block.store_sum]
  | cons b c ih =>
    obtain ⟨n, rfl⟩ : ∃ m, n = m + 1 := ⟨n - 1, by omega⟩
    obtain ⟨e1, h1, h2⟩ := Env.reads_cons h
    simp only [List.length_cons] at hc hn
    have hi : k.idx.val ≤ 9 := by omega
    have hnext : (k.take b).idx.val = k.idx.val + 1 := nextIdx_val (by simpa using hi)
    rw [List.foldl_cons, ← ih n (k.take b) e1 (by omega) (by omega) h2]
    simp [collect, h1, hi, Block.take]

/-! ### What the reader leaves alone -/

/-- The registers that no part of the reader writes (R21, R78). -/
def SamePollSide (k k' : Block) : Prop :=
  k'.raw = k.raw ∧ k'.pollResult = k.pollResult ∧ k'.pcnt = k.pcnt ∧ k'.applied = k.applied ∧ k'.polling = k.polling

/-- `READ_FRAME` leaves the poll's registers and the latches, and ends idle or still hunting. -/
theorem readFrame_side (p : Params) (k : Block) (e : Env) :
    SamePollSide k (readFrame p k e).1 ∧ ((readFrame p k e).1.mode = .idle ∨ (readFrame p k e).1.mode = .hunt) := by
  obtain ⟨-, h⟩ | ⟨-, g, e', -, h⟩ := readFrame_cases p k e
  · rw [h]; simp [SamePollSide]
  · rcases h with ⟨h, -⟩ | ⟨c, hc, h, -⟩ | ⟨b, -, h, -⟩ | ⟨h, -⟩
    · rw [h]; simp [SamePollSide, Block.afterDiscards]
    · obtain ⟨buf, h1, -⟩ := Block.collecting_spec p g c k hc
      rw [h, h1]; simp [SamePollSide]
    · rw [h]; simp [SamePollSide]
    · rw [h]; simp [SamePollSide, Block.afterDiscards]

/-- `READ_FRAME` ends where the source falls silent, or where `HUNT_LIMIT` bounds the hunt (R92, R173). -/
theorem readFrame_ends (p : Params) (k : Block) (e : Env) (h : e.tail = none ∨ ∃ n, 1 ≤ n ∧ p.huntLimit = some n) :
    (readFrame p k e).1.mode = .idle := by
  obtain ⟨-, h'⟩ | ⟨-, g, e', -, h'⟩ := readFrame_cases p k e
  · rw [h']; rfl
  · rcases h' with ⟨h', -⟩ | ⟨c, hc, h', -⟩ | ⟨b, -, h', -⟩ | ⟨h', h2, h3, h4⟩
    · rw [h']; rfl
    · rw [h']; rfl
    · rw [h']
    · exfalso
      rcases h with ht | ⟨n, hn, hp⟩
      · have h5 := congrArg Prod.fst h2
        simp only at h5
        have hs : none ∉ (e.linkUp.2.reads (e.linkUp.2.fifo.length + e.linkUp.2.waits.length + e.linkUp.2.links.length)).1 := by
          intro hn
          have := (Env.reads_prefix (show _ ≤ g.length by rw [h3, huntBound]; omega) e.linkUp.2).subset hn
          rw [h5] at this; simp at this
        obtain ⟨a, ha, hr⟩ := Env.reads_beyond _ (p.huntLimit.getD 0 + 1) e.linkUp.2 (Nat.le_refl _) hs
        rw [Env.linkUp_tail, ht, or_self] at ha
        rw [h3, huntBound, Nat.add_assoc, hr, ha] at h5
        have : none ∈ List.map some g := by rw [← h5]; simp [List.replicate_succ]
        simp at this
      · have := h4 n hp; omega

/-- What `READ_FRAME` does to the environment: it samples the link once and then makes some read attempts (R33, R36). -/
theorem readFrame_env (p : Params) (k : Block) (e : Env) : ∃ n, (readFrame p k e).2 = (e.linkUp.2.reads n).2 := by
  obtain ⟨-, h⟩ | ⟨-, g, e', -, h⟩ := readFrame_cases p k e
  · exact ⟨0, by rw [h]; rfl⟩
  · rcases h with ⟨h, h2 | ⟨h2, -⟩⟩ | ⟨c, -, h, h2⟩ | ⟨b, -, h, h2⟩ | ⟨h, h2, -⟩ <;> exact ⟨_, by rw [h, h2]⟩

@[simp] theorem readFrame_env_tail (p : Params) (k : Block) (e : Env) : (readFrame p k e).2.tail = e.tail := by
  obtain ⟨n, h⟩ := readFrame_env p k e; simp [h]

end Sys2Proof.Machine
end

