-- ==== Sys2Proof/Laws/Poll.lean ====
section
/-! SUPPORT. What the poll can do (R120 to R127). -/

namespace Sys2Proof.Machine

/-- The block after one iteration whose reader invocation has ended (R124). -/
def afterRead (p : Params) (k : Block) (e : Env) : Block := (readFrame p k e).1.countRead.applyRead

/-- All that one turn of the loop can do: the hunt runs on, or the iteration ends the cycle, or the next one follows. -/
theorem pollLoop_succ (p : Params) (n : Nat) (k : Block) (e : Env) (h : k.pcnt.val < 4) :
    ((readFrame p k e).1.mode = .hunt ∧ pollLoop p (n + 1) k e = readFrame p k e) ∨
    ((readFrame p k e).1.mode = .idle ∧
      ((afterRead p k e).stopsEarly p = true ∧ pollLoop p (n + 1) k e = ((afterRead p k e).endCycle p, (readFrame p k e).2) ∨
       (afterRead p k e).stopsEarly p = false ∧ pollLoop p (n + 1) k e = pollLoop p n (afterRead p k e) (readFrame p k e).2)) := by
  have h' : k.pcnt.val < Config.pollMaxFrames := h
  rcases (readFrame_side p k e).2 with hm | hm
  · refine .inr ⟨hm, ?_⟩
    cases hs : (afterRead p k e).stopsEarly p
    · refine .inr ⟨rfl, ?_⟩
      rw [pollLoop, if_pos h']; simp only [hm]
      have : Block.stopsEarly p (readFrame p k e).1.countRead.applyRead = false := hs
      rw [this]; rfl
    · refine .inl ⟨rfl, ?_⟩
      rw [pollLoop, if_pos h']; simp only [hm]
      have : Block.stopsEarly p (readFrame p k e).1.countRead.applyRead = true := hs
      rw [this]; rfl
  · refine .inl ⟨hm, ?_⟩
    rw [pollLoop, if_pos h']; simp only [hm]

/-- One iteration counts itself, may write latches and `APPLIED`, and leaves the poll under way. -/
theorem afterRead_fields (p : Params) (k : Block) (e : Env) :
    (afterRead p k e).mode = (readFrame p k e).1.mode ∧ (afterRead p k e).pcnt = nextPcnt k.pcnt ∧
    (afterRead p k e).polling = k.polling ∧ (afterRead p k e).pollResult = k.pollResult ∧
    (afterRead p k e).status = (readFrame p k e).1.status ∧ (afterRead p k e).buf = (readFrame p k e).1.buf := by
  obtain ⟨⟨-, h2, h3, -, h5⟩, -⟩ := readFrame_side p k e
  simp [afterRead, h2, h3, h5]

/-- `APPLIED` once set stays set in a cycle, and while it is clear no latch has changed (R110). -/
theorem afterRead_applied (p : Params) (k : Block) (e : Env) :
    (k.applied = true → (afterRead p k e).applied = true) ∧
    ((afterRead p k e).applied = false → (afterRead p k e).raw = k.raw) := by
  obtain ⟨⟨h1, -, -, h4, -⟩, -⟩ := readFrame_side p k e
  rw [afterRead, Block.applyRead_eq]
  split
  · cases hk : (decodeFields (readFrame p k e).1.countRead.buf).1 <;> simp_all [Block.apply]
  · simp [h1, h4]

/-- Poll loops that start with the count below 4 and fuel for the rest: what holds of the block between iterations, and what a
reader invocation, an apply and the count preserve, holds of the result before its last step. -/
theorem pollLoop_induct (p : Params) (P : Block → Env → Prop) (Q : Block × Env → Prop)
    (hgo : ∀ k e, P k e → (readFrame p k e).1.mode = .hunt → Q (readFrame p k e))
    (hend : ∀ k e, P k e → Q (k.endCycle p, e))
    (hstep : ∀ k e, P k e → (readFrame p k e).1.mode = .idle → P (afterRead p k e) (readFrame p k e).2) (n : Nat) (k : Block) (e : Env)
    (h : P k e) : Q (pollLoop p n k e) := by
  induction n generalizing k e with
  | zero => exact hend k e h
  | succ n ih =>
    by_cases hp : k.pcnt.val < 4
    · obtain ⟨hm, h'⟩ | ⟨hm, ⟨-, h'⟩ | ⟨-, h'⟩⟩ := pollLoop_succ p n k e hp
      · rw [h']; exact hgo k e h hm
      · rw [h']; exact hend _ _ (hstep k e h hm)
      · rw [h']; exact ih _ _ (hstep k e h hm)
    · have : pollLoop p (n + 1) k e = (k.endCycle p, e) := by 
        rw [pollLoop, if_neg (show ¬ k.pcnt.val < Config.pollMaxFrames from hp)]
      rw [this]; exact hend k e h

/-- All that `POLL` can do: it is deferred by the link or the threshold, or its cycle runs. -/
theorem poll_cases (p : Params) (k : Block) (e : Env) :
    (e.linkUp.1 = false ∧ poll p k e = (k.beginPoll.defer, e.linkUp.2)) ∨
    (e.linkUp.1 = true ∧ e.fifo.length < 44 ∧ poll p k e = (k.beginPoll.defer, e.linkUp.2.rxCount.2)) ∨
    (e.linkUp.1 = true ∧ 44 ≤ e.fifo.length ∧ poll p k e = pollLoop p 4 k.beginPoll.openCycle e.linkUp.2.rxCount.2) := by
  have hf := e.linkUp_fifo
  rcases hl : e.linkUp with ⟨up, e1⟩
  rw [hl] at hf
  cases up with
  | false => exact .inl ⟨rfl, by simp [poll, pollGate, hl]⟩
  | true =>
    by_cases hn : e.fifo.length < 44
    · refine .inr (.inl ⟨rfl, hn, ?_⟩)
      have : e1.rxCount.1 < Config.pollThreshold := by
        rw [Env.rxCount_fst, show e1.fifo = e.fifo from hf]; simpa [Config.pollThreshold] using hn
      simp [poll, pollGate, hl, -Env.rxCount_fst, -Env.rxCount_snd, this]
    · refine .inr (.inr ⟨rfl, by omega, ?_⟩)
      have : ¬ e1.rxCount.1 < Config.pollThreshold := by
        rw [Env.rxCount_fst, show e1.fifo = e.fifo from hf]; simpa [Config.pollThreshold] using hn
      simp [poll, pollGate, hl, -Env.rxCount_fst, -Env.rxCount_snd, this, Config.pollMaxFrames]

end Sys2Proof.Machine
end

