-- ==== Sys2Proof/Laws/Step.lean ====
section
/-! SUPPORT. What the meanings, the closing operations and one step can do, said once. -/

namespace Sys2Proof.Machine

/-! ### Starting and closing -/

/-- An idle block: no reader at work and no cycle running (D3). -/
theorem Block.busy_eq_false {k : Block} : k.busy = false ↔ k.mode = .idle ∧ k.polling = false := by
  simp [Block.busy]

theorem whenIdle_of_idle {s : State} {f : State → State} (h : s.blk.busy = false) : whenIdle s f = .next (f s) := by
  simp [whenIdle, h]

theorem whenIdle_of_busy {s : State} {f : State → State} (h : s.blk.busy = true) : whenIdle s f = .refused .startWhileBusy := by
  simp [whenIdle, h]

/-- A started operation answers next only from an idle block. -/
theorem whenIdle_next {s t : State} {f : State → State} (h : whenIdle s f = .next t) : s.blk.busy = false ∧ t = f s := by
  cases hb : s.blk.busy
  · rw [whenIdle_of_idle hb] at h
    exact ⟨rfl, (Host.Outcome.next.injEq .. ▸ h).symm⟩
  · rw [whenIdle_of_busy hb] at h; simp at h

@[simp] theorem closeRead_blk (s : State) : (closeRead s).blk = s.blk := by unfold closeRead; split <;> rfl
@[simp] theorem closeRead_env (s : State) : (closeRead s).env = s.env := by unfold closeRead; split <;> rfl
@[simp] theorem closeRead_params (s : State) : (closeRead s).params = s.params := by unfold closeRead; split <;> rfl
@[simp] theorem closeRead_draws (s : State) : (closeRead s).draws = s.draws := by unfold closeRead; split <;> rfl
@[simp] theorem closeRead_inputs (s : State) : (closeRead s).caller.inputs = s.caller.inputs := by
  unfold closeRead; split <;> rfl

@[simp] theorem closePoll_blk (s : State) : (closePoll s).blk = s.blk := by unfold closePoll; split <;> rfl
@[simp] theorem closePoll_env (s : State) : (closePoll s).env = s.env := by unfold closePoll; split <;> rfl
@[simp] theorem closePoll_params (s : State) : (closePoll s).params = s.params := by unfold closePoll; split <;> rfl
@[simp] theorem closePoll_draws (s : State) : (closePoll s).draws = s.draws := by unfold closePoll; split <;> rfl
@[simp] theorem closePoll_inputs (s : State) : (closePoll s).caller.inputs = s.caller.inputs := by
  unfold closePoll; split <;> rfl

/-- The block after one counted iteration: the cycle goes on or ends. -/
def Block.counted (p : Params) (k : Block) : Block :=
  if k.countRead.pcnt.val = Config.pollMaxFrames ∨ k.countRead.stopsEarly p = true then k.countRead.endCycle p else k.countRead

@[simp] theorem afterIteration_blk (s : State) : (afterIteration s).blk = s.blk.counted s.params := by
  unfold afterIteration Block.counted; split <;> simp
@[simp] theorem afterIteration_env (s : State) : (afterIteration s).env = s.env := by
  unfold afterIteration; split <;> simp
@[simp] theorem afterIteration_params (s : State) : (afterIteration s).params = s.params := by
  unfold afterIteration; split <;> simp
@[simp] theorem afterIteration_draws (s : State) : (afterIteration s).draws = s.draws := by
  unfold afterIteration; split <;> simp
@[simp] theorem afterIteration_inputs (s : State) : (afterIteration s).caller.inputs = s.caller.inputs := by
  unfold afterIteration; split <;> simp

/-! ### The meanings -/

theorem exec_readFrame {s : State} (h : s.blk.busy = false) :
    exec .readFrame s = .next (closeRead ((s.setReply none).put (readFrame s.params s.blk s.env))) := by
  simp [exec, execReadFrame, whenIdle, h]

theorem exec_poll {s : State} (h : s.blk.busy = false) :
    exec .poll s = .next (closePoll ((s.setReply none).put (poll s.params s.blk s.env))) := by
  simp [exec, execPoll, whenIdle, h]

/-- The header and kind of a frame instruction's row. -/
def frameRow : Instr → Option (Byte × Kind × Payload)
  | .frameAcc p => some (Config.hdrAcc, .acc, p)
  | .frameGyro p => some (Config.hdrGyro, .gyro, p)
  | .frameAngle p => some (Config.hdrAngle, .angle, p)
  | .frameUnknown h p => some (h, .unknown, p)
  | _ => none

/-- Every frame instruction has a next state, in which only the block has changed. -/
theorem exec_of_frameRow {i : Instr} {h : Byte} {kind : Kind} {p : Payload} (hi : frameRow i = some (h, kind, p)) (s : State) :
    exec i s = .next (s.setBlk (runFrame h kind p s.blk)) := by
  cases i <;> simp [frameRow] at hi <;> obtain ⟨rfl, rfl, rfl⟩ := hi <;> rfl

/-- A decoded candidate is its header's row, with its own bytes as operands. -/
theorem frameRow_decodeFrame (b : FrameBuf) : frameRow (decodeFrame b) = some (b[1], classify b[1], payloadOf b) := by
  obtain ⟨hc, hh⟩ | ⟨hc, hh⟩ | ⟨hc, hh⟩ | ⟨hc, -⟩ := classify_cases b[1] <;> simp [decodeFrame, frameRow, *]

/-- A reader invocation that has ended as the reader ends one: at rest, its outputs readable, and after a whole candidate with `BUF`,
`SUM` and `STATUS` those of the candidate (R76, R78). -/
structure Block.Ended (k : Block) : Prop where
  mode : k.mode = .idle
  idx : k.idx = 0
  outValid : k.outValid = true
  candidate : k.status = .frame ∨ k.status = .badChecksum →
    k.buf[0] = Config.marker ∧ k.sum = checksum k.buf ∧ k.status = verdict k.buf[10] (checksum k.buf)

/-- Executing the candidate that the reader has left in `BUF` is applying it, in a poll cycle (R124): the registers the reader has
filled stay. -/
theorem runFrame_of_candidate {k : Block} (h : k.Ended) (hc : k.status = .frame ∨ k.status = .badChecksum) :
    runFrame k.buf[1] (classify k.buf[1]) (payloadOf k.buf) k = if k.polling then k.applyRead else k := by
  obtain ⟨hm, hs, hst⟩ := h.candidate hc
  have hk : k.takeCandidate k.buf = k := by
    have h1 := h.mode; have h2 := h.idx; have h3 := h.outValid
    cases k
    simp_all [Block.takeCandidate, Block.finish]
  rw [runFrame, frameBytes_payloadOf k.buf hm]
  simp only [hk, Block.applyRead_eq, Block.frameValid, Bool.and_eq_true, beq_iff_eq]
  by_cases hp : k.polling = true <;> by_cases hf : k.status = .frame <;> simp only [hp, hf] <;> rfl

/-! ### Going on -/

theorem Block.applyRead_of_not_frame {k : Block} (h : k.status ≠ .frame) : k.applyRead = k := by
  unfold Block.applyRead; split
  · rename_i h'; exact absurd h' h
  · rfl

theorem Block.countRead_applyRead (k : Block) : k.countRead.applyRead = k.applyRead.countRead := by
  simp only [Block.applyRead_eq]
  by_cases h : k.status = .frame
  · rw [if_pos h, if_pos (show k.countRead.status = .frame from h)]
    cases hk : (decodeFields k.buf).1 <;> simp [Block.apply, hk, Block.countRead]
  · rw [if_neg h, if_neg (show k.countRead.status ≠ .frame from h)]

/-- The block once what its reader has fetched is executed: a candidate, or nothing. -/
def Block.executed (k : Block) : Block :=
  match k.status with
  | .frame => runFrame k.buf[1] (classify k.buf[1]) (payloadOf k.buf) k
  | .badChecksum => runFrame k.buf[1] (classify k.buf[1]) (payloadOf k.buf) k
  | .noData => k
  | .underrun => k

/-- Where the reader has ended as it does, executing what it has fetched is applying it in a poll cycle, and nothing otherwise. -/
theorem Block.executed_of_ended {k : Block} (h : k.Ended) : k.executed = if k.polling then k.applyRead else k := by
  unfold Block.executed
  split
  · rename_i hs; exact runFrame_of_candidate h (.inl hs)
  · rename_i hs; exact runFrame_of_candidate h (.inr hs)
  · rename_i hs; rw [Block.applyRead_of_not_frame (by simp [hs])]; simp
  · rename_i hs; rw [Block.applyRead_of_not_frame (by simp [hs])]; simp

/-- The registers an executed candidate leaves alone; it may write latches and `APPLIED` only in a poll cycle. -/
theorem Block.executed_side (k : Block) :
    k.executed.pollResult = k.pollResult ∧ k.executed.pcnt = k.pcnt ∧ k.executed.polling = k.polling ∧
    (k.polling = false → k.executed.raw = k.raw ∧ k.executed.applied = k.applied) := by
  have hrun : ∀ h kind p, (runFrame h kind p k).pollResult = k.pollResult ∧ (runFrame h kind p k).pcnt = k.pcnt ∧
      (runFrame h kind p k).polling = k.polling ∧
      (k.polling = false → (runFrame h kind p k).raw = k.raw ∧ (runFrame h kind p k).applied = k.applied) := by
    intro h kind p
    unfold runFrame
    simp only
    split
    · rename_i hv
      simp only [Bool.and_eq_true, Block.takeCandidate_polling] at hv
      simp [hv.2]
    · simp
  unfold Block.executed
  split <;> first | exact hrun _ _ _ | exact ⟨rfl, rfl, rfl, fun _ => ⟨rfl, rfl⟩⟩

/-- The block after an exchange: where its reader has ended, what it has fetched is executed and an iteration of a cycle counted. -/
def Block.concluded (p : Params) (k : Block) : Block :=
  match k.mode with
  | .idle => if k.polling then k.executed.counted p else k.executed
  | _ => k

@[simp] theorem closeReader_env (s : State) : (closeReader s).env = s.env := by unfold closeReader; split <;> simp
@[simp] theorem closeReader_params (s : State) : (closeReader s).params = s.params := by unfold closeReader; split <;> simp
@[simp] theorem closeReader_draws (s : State) : (closeReader s).draws = s.draws := by unfold closeReader; split <;> simp
@[simp] theorem closeReader_inputs (s : State) : (closeReader s).caller.inputs = s.caller.inputs := by
  unfold closeReader; split <;> simp
@[simp] theorem closeReader_blk (s : State) : (closeReader s).blk = if s.blk.polling then s.blk.counted s.params else s.blk := by
  unfold closeReader; split <;> simp

/-- A reader that goes on is left to the next step. -/
theorem conclude_going {s : State} (h : s.blk.mode ≠ .idle) : conclude s = .next s := by
  unfold conclude; split
  · rename_i hi; exact absurd hi h
  · rfl

/-- A reader that has ended executes what it has fetched and closes the invocation: always a next state. -/
theorem conclude_ended {s : State} (h : s.blk.mode = .idle) : conclude s = .next (closeReader (s.setBlk s.blk.executed)) := by
  have hx := exec_of_frameRow (frameRow_decodeFrame s.blk.buf) s
  cases hs : s.blk.status <;> simp only [conclude, fetched, h, hs, hx, Block.executed] <;> rfl

/-- The count of an iteration in a running cycle (R120, R123, R125). -/
theorem afterIteration_counted (s : State) : IterationCounted s (afterIteration s) := by
  constructor
  · intro h
    have hend : s.blk.countRead.pcnt.val = Config.pollMaxFrames ∨ s.blk.countRead.stopsEarly s.params = true := by
      rcases h with h | h
      · left; rw [Block.countRead_pcnt, nextPcnt_val (by omega), h]; rfl
      · right; simpa [Block.stopsEarly, StopsForNoData] using h
    unfold afterIteration; rw [if_pos hend]
    simp [closePoll, State.setReply, State.setBlk, Block.endCycle, Block.countRead]
  · intro h1 h2
    have hgo : ¬ (s.blk.countRead.pcnt.val = Config.pollMaxFrames ∨ s.blk.countRead.stopsEarly s.params = true) := by
      rintro (h | h)
      · rw [Block.countRead_pcnt, nextPcnt_val (by omega), Config.pollMaxFrames] at h; omega
      · exact h2 (by simpa [Block.stopsEarly, StopsForNoData] using h)
    unfold afterIteration; rw [if_neg hgo]
    exact ⟨rfl, by simp [nextPcnt_val (show s.blk.pcnt.val < 4 by omega)]⟩

/-- The end of a reader invocation in a poll cycle. -/
theorem conclude_counted {s : State} (hm : s.blk.mode = .idle) (hp : s.blk.polling = true) :
    ∃ t, conclude s = .next t ∧ IterationCounted (s.setBlk s.blk.executed) t := by
  have hp' : (s.setBlk s.blk.executed).blk.polling = true := by rw [State.setBlk_blk, s.blk.executed_side.2.2.1, hp]
  refine ⟨_, conclude_ended hm, ?_⟩
  unfold closeReader; rw [if_pos hp']
  exact afterIteration_counted _

/-- What the block and the environment can become when the block goes on by itself (R80, R81, R123, R154). -/
inductive GoesOn (p : Params) (k : Block) (e : Env) : Block → Env → Prop where
  /-- Idle: nothing. -/
  | stays : k.busy = false → GoesOn p k e k e
  /-- Busy: one exchange, and at the end of a reader invocation the execution of what it has fetched. -/
  | exchanges : k.busy = true → GoesOn p k e ((exchange p (k, e)).1.concluded p) (exchange p (k, e)).2

/-- All that the block can do by itself. -/
theorem carryOn_goesOn {s t : State} (h : carryOn s = .next t) :
    t.params = s.params ∧ t.draws = s.draws ∧ t.caller.inputs = s.caller.inputs ∧ GoesOn s.params s.blk s.env t.blk t.env := by
  unfold carryOn at h
  split at h
  · rename_i hb
    have key := GoesOn.exchanges (p := s.params) (e := s.env) hb
    have hpol := (Block.executed_side (exchange s.params (s.blk, s.env)).1).2.2.1
    by_cases hm : (exchange s.params (s.blk, s.env)).1.mode = .idle
    · rw [conclude_ended hm, Host.Outcome.next.injEq] at h; subst h
      refine ⟨by simp, by simp, by simp, ?_⟩
      simpa only [Block.concluded, hm, closeReader_blk, closeReader_env, State.setBlk_blk, State.setBlk_params, State.setBlk_env,
        State.put_blk, State.put_params, State.put_env, hpol] using key
    · rw [conclude_going hm, Host.Outcome.next.injEq] at h; subst h
      refine ⟨rfl, rfl, rfl, ?_⟩
      unfold Block.concluded at key
      split at key
      · rename_i hi; exact absurd hi hm
      · exact key
  · rename_i hb
    rw [Host.Outcome.next.injEq] at h; subst h
    exact ⟨rfl, rfl, rfl, .stays (by simpa using hb)⟩

/-! ### One exchange -/

/-- What the reader's answer does to the registers it leaves alone (R21, R78). -/
theorem answerStep_side (p : Params) (r : Option Byte) (k : Block) : SamePollSide k (answerStep p r k) := by
  unfold answerStep SamePollSide
  split
  · simp
  · simp
  · unfold huntByte
    split
    · simp
    · simp only; split <;> simp
  · simp
  · unfold collectByte
    split <;> simp

/-- All that one exchange of a busy block can do: the start step of an iteration, or one answer to the reader at work. -/
theorem exchange_cases (p : Params) (k : Block) (e : Env) :
    (k.mode = .idle ∧ exchange p (k, e) = startRead k e) ∨
    (k.mode ≠ .idle ∧ exchange p (k, e) = (answerStep p e.rxRead.1 k, e.rxRead.2)) := by
  unfold exchange
  by_cases hm : k.mode = .idle
  · exact .inl ⟨hm, by simp [hm]⟩
  · refine .inr ⟨hm, ?_⟩
    cases h : k.mode <;> simp_all [readerStep]

/-- The start step writes none of the poll's registers and no latch (R81). -/
theorem startRead_side (k : Block) (e : Env) : SamePollSide k (startRead k e).1 := by
  unfold startRead SamePollSide
  split <;> simp

theorem exchange_side (p : Params) (k : Block) (e : Env) : SamePollSide k (exchange p (k, e)).1 := by
  obtain ⟨-, h⟩ | ⟨-, h⟩ := exchange_cases p k e <;> rw [h]
  · exact startRead_side k e
  · exact answerStep_side p e.rxRead.1 k

/-- A reader that an answer ends has ended as the reader does, where the candidate under collection stands in `BUF` and `SUM`. -/
theorem answerStep_ended {p : Params} {r : Option Byte} {k : Block} (hw : k.mode ≠ .idle)
    (hc : k.mode = .collect → k.buf[0] = Config.marker ∧ 1 ≤ k.idx.val ∧ k.sum = partialSum k.buf k.idx.val)
    (hi : (answerStep p r k).mode = .idle) : (answerStep p r k).Ended := by
  unfold answerStep at hi ⊢
  split at hi
  · rename_i h; exact absurd h hw
  · exact ⟨rfl, rfl, rfl, by simp⟩
  · unfold huntByte at hi ⊢
    split at hi
    · cases hi
    · simp only at hi ⊢
      split at hi
      · rename_i h1 h2; rw [if_neg h1, if_pos h2]; exact ⟨rfl, rfl, rfl, by simp⟩
      · rename_i h; exact absurd (by simpa using hi) hw
  · exact ⟨rfl, rfl, rfl, by simp⟩
  · rename_i b h
    obtain ⟨hm, h1, hs⟩ := hc h
    unfold collectByte at hi ⊢
    split at hi
    · simp [h] at hi
    · rename_i h9
      have h10 : k.idx.val = 10 := by have := k.idx.isLt; omega
      rw [if_neg h9]
      refine ⟨rfl, rfl, rfl, fun _ => ?_⟩
      have hsum : checksum (k.store b).buf = k.sum := by
        rw [checksum_eq_partialSum, hs, h10, partialSum, partialSum, Block.store_buf, Vector.toList_set, h10,
          List.take_set_of_le (Nat.le_refl _)]
      have hlast : (k.store b).buf[10] = b := by simp [h10]
      refine ⟨?_, ?_, ?_⟩
      · simp only [Block.finish_buf, Block.store_buf]
        rw [Vector.getElem_set_ne _ _ (by omega)]; exact hm
      · simp only [Block.finish_sum, Block.finish_buf, Block.store_sum]; exact hsum.symm
      · simp only [Block.finish_status, Block.finish_buf, hsum, hlast, verdict]

/-- A `READ_FRAME` that has ended has ended as the reader does. -/
theorem readFrame_ended {p : Params} {k : Block} {e : Env} (h : (readFrame p k e).1.mode = .idle) : (readFrame p k e).1.Ended := by
  obtain ⟨-, h'⟩ | ⟨-, g, e', -, ⟨h', -⟩ | ⟨c, -, h', -⟩ | ⟨b, hb, h', -⟩ | ⟨h', -⟩⟩ := readFrame_cases p k e <;> rw [h'] at h ⊢
  · exact ⟨rfl, rfl, rfl, by simp⟩
  · exact ⟨rfl, rfl, rfl, by simp⟩
  · exact ⟨rfl, rfl, rfl, by simp⟩
  · exact ⟨rfl, rfl, rfl, fun _ => ⟨hb, rfl, rfl⟩⟩
  · simp [Block.afterDiscards] at h

/-! ### Steps in which nothing is done to the machine -/

theorem carryOn_of_busy {s : State} (h : s.blk.busy = true) : carryOn s = conclude (s.put (exchange s.params (s.blk, s.env))) := by
  unfold carryOn; rw [if_pos h]

theorem carryOn_of_idle {s : State} (h : s.blk.busy = false) : carryOn s = .next s := by
  unfold carryOn; rw [if_neg (by simp [h])]

theorem step_of_quiet {s : State} {rest : List Input} (h : QuietNext s rest) :
    step s = carryOn { s with caller := ⟨rest, s.caller.reply⟩ } := by
  rcases h with h | ⟨h, rfl⟩
  · simp [step, h, State.setInputs]
  · simp only [step, h]
    exact congrArg (fun c => carryOn { s with caller := c }) (show s.caller = ⟨[], s.caller.reply⟩ by rw [← h])

theorem run_succ {s t : State} (n : Nat) (h : step s = .next t) : run (n + 1) s = run n t := by rw [run, h]

/-- A busy block left to itself makes one exchange a step; only after the last of these has its reader perhaps ended. -/
theorem run_exchanges (n : Nat) (s : State) (hi : s.caller.inputs = []) (hb : s.blk.busy = true)
    (hw : ∀ m, 1 ≤ m → m ≤ n → ((exchange s.params)^[m] (s.blk, s.env)).1.mode ≠ .idle) :
    run (n + 1) s = conclude (s.put ((exchange s.params)^[n + 1] (s.blk, s.env))) := by
  have hst : ∀ {s : State}, s.caller.inputs = [] → s.blk.busy = true →
      step s = conclude (s.put (exchange s.params (s.blk, s.env))) := by
    intro s hi hb; simp only [step, hi]; exact carryOn_of_busy hb
  induction n generalizing s with
  | zero =>
    rw [run, hst hi hb]
    by_cases hm : (exchange s.params (s.blk, s.env)).1.mode = .idle
    · rw [conclude_ended hm]; exact (conclude_ended hm).symm
    · rw [conclude_going hm]; exact (conclude_going hm).symm
  | succ n ih =>
    have h1 : (exchange s.params (s.blk, s.env)).1.mode ≠ .idle := by simpa using hw 1 (by omega) (by omega)
    rw [run_succ _ ((hst hi hb).trans (conclude_going h1)), ih (s.put (exchange s.params (s.blk, s.env))) hi (by simp [Block.busy, h1])]
    · rfl
    · intro m hm1 hm2
      simpa [Function.iterate_succ_apply] using hw (m + 1) (by omega) (by omega)

/-- What the block and the environment can become in one step that is no reset. -/
inductive Moved (s : State) : Block → Env → Prop where
  /-- An accessor, a reserved code: neither changes. -/
  | stays : Moved s s.blk s.env
  | arrives (b : Byte) (rest : List Input) : s.caller.inputs = .arrive b :: rest → Moved s s.blk (s.env.arrive b)
  | linkSet (u : Bool) (rest : List Input) : s.caller.inputs = .setLink u :: rest → Moved s s.blk (s.env.setLink u)
  /-- `READ_FRAME` issued. -/
  | reads : s.blk.busy = false → Moved s (readFrame s.params s.blk s.env).1 (readFrame s.params s.blk s.env).2
  /-- `POLL` issued. -/
  | polls (rest : List Input) : s.blk.busy = false → s.caller.inputs = .issue 2 :: rest →
      Moved s (poll s.params s.blk s.env).1 (poll s.params s.blk s.env).2
  /-- `READ_FRAME` strobed. -/
  | readBegins : s.blk.busy = false → Moved s (startRead s.blk s.env).1 (startRead s.blk s.env).2
  /-- `POLL` strobed. -/
  | pollBegins : s.blk.busy = false → Moved s (pollGate s.blk s.env).2.1 (pollGate s.blk s.env).2.2
  | goesOn {k : Block} {e : Env} : GoesOn s.params s.blk s.env k e → Moved s k e

/-- Only code 2 is `POLL` (R60). -/
theorem decodeOp_eq_poll {c : OpCode} (h : decodeOp c = .poll) : c = 2 := by
  revert h; revert c; decide

/-- The operations the caller can issue, as they move the block and the environment. -/
theorem exec_decodeOp_moved {s t : State} {c : OpCode} (h : exec (decodeOp c) s = .next t) :
    t.params = s.params ∧ t.draws = s.draws ∧
    ((t.blk = s.blk ∧ t.env = s.env) ∨
     (s.blk.busy = false ∧ t.blk = (readFrame s.params s.blk s.env).1 ∧ t.env = (readFrame s.params s.blk s.env).2) ∨
     (s.blk.busy = false ∧ c = 2 ∧ t.blk = (poll s.params s.blk s.env).1 ∧ t.env = (poll s.params s.blk s.env).2)) := by
  have hc : ∀ i, decodeOp c = i → exec i s = .next t := by rintro i rfl; exact h
  cases hi : decodeOp c with
  | poll =>
    have hx := hc _ hi
    simp only [exec, execPoll] at hx
    obtain ⟨hb, rfl⟩ := whenIdle_next hx
    exact ⟨by simp, by simp, .inr (.inr ⟨hb, decodeOp_eq_poll hi, by simp, by simp⟩)⟩
  | readFrame =>
    have hx := hc _ hi
    simp only [exec, execReadFrame] at hx
    obtain ⟨hb, rfl⟩ := whenIdle_next hx
    exact ⟨by simp, by simp, .inr (.inl ⟨hb, by simp, by simp⟩)⟩
  | getAcc | getGyro | getAngle | reservedOp0 | reservedOp3 | reservedOp7 =>
    have hx := hc _ hi
    simp only [exec, execGetAcc, execGetGyro, execGetAngle, execReservedOp0, execReservedOp3, execReservedOp7] at hx
    obtain ⟨hb, rfl⟩ := whenIdle_next hx
    exact ⟨rfl, rfl, .inl ⟨rfl, rfl⟩⟩
  | frameAcc | frameGyro | frameAngle | frameUnknown => unfold decodeOp at hi; split at hi <;> cases hi

/-- All that one step can do that has a next state: no later proof need unfold `step`. -/
theorem step_moved {s t : State} (h : step s = .next t) :
    (∃ rest, s.caller.inputs = .reset :: rest ∧ t = (s.setInputs rest).resetInput) ∨
    (t.params = s.params ∧ t.draws = s.draws ∧ Moved s t.blk t.env) := by
  unfold step at h
  have issued : ∀ {c rest}, (s.caller.inputs = .issue c :: rest ∨ c ≠ 2) →
      exec (decodeOp c) (s.setInputs rest) = .next t → t.params = s.params ∧ t.draws = s.draws ∧ Moved s t.blk t.env := by
    intro c rest hin hx
    obtain ⟨h1, h2, ⟨h3, h4⟩ | ⟨hb, h3, h4⟩ | ⟨hb, hc, h3, h4⟩⟩ := exec_decodeOp_moved hx <;> refine ⟨h1, h2, ?_⟩ <;> rw [h3, h4]
    · exact .stays
    · exact .reads hb
    · rcases hin with hin | hin
      · subst hc; exact .polls rest hb hin
      · exact absurd hc hin
  split at h
  · obtain ⟨h1, h2, -, h3⟩ := carryOn_goesOn h
    exact .inr ⟨h1, h2, .goesOn h3⟩
  · obtain ⟨h1, h2, -, h3⟩ := carryOn_goesOn h
    exact .inr ⟨h1, h2, .goesOn h3⟩
  · rename_i hin
    exact .inr (issued (.inl hin) h)
  · unfold strobe at h
    split at h
    · obtain ⟨hb, rfl⟩ := whenIdle_next h
      exact .inr ⟨by simp, by simp, by simpa using Moved.readBegins (s := s) hb⟩
    · obtain ⟨hb, rfl⟩ := whenIdle_next h
      exact .inr ⟨by simp, by simp, by simpa using Moved.pollBegins (s := s) hb⟩
    · rename_i hne _ hne'
      refine .inr (issued (.inr ?_) h)
      rintro rfl; exact hne' rfl
  · rename_i rest hin
    exact .inl ⟨rest, hin, (Host.Outcome.next.injEq .. ▸ h).symm⟩
  · rename_i b rest hin
    rw [Host.Outcome.next.injEq] at h; subst h
    exact .inr ⟨rfl, rfl, .arrives b rest hin⟩
  · rename_i u rest hin
    rw [Host.Outcome.next.injEq] at h; subst h
    exact .inr ⟨rfl, rfl, .linkSet u rest hin⟩

end Sys2Proof.Machine
end

