-- ==== Sys2Proof/Tests/Slice0.lean ====
section
/-! SUPPORT. Tests of the model's own work against the vectors of 95_test_vectors.md, the smoke tests of WellFormed, and for every
statement of Certificates/Slice0 with hypotheses a concrete state and operands that meet them. -/

namespace Sys2Proof.Tests

open Sys2Proof.Machine

/-! ### Helpers -/

/-- The reset state with these bytes in the receiver, the link up and nothing after them. -/
def holding (l : List Byte) : State := { State.reset with env := ⟨l, [], none, [], true, []⟩ }

/-- The same, with answers for the read attempts on the empty receiver. -/
def holdingThen (l : List Byte) (waits : List (Option Byte)) : State := { State.reset with env := ⟨l, waits, none, [], true, []⟩ }

/-- A check of the next state; a fault or a refusal fails it. -/
def after (o : Host.Outcome State Fault Refusal) (f : State → Bool) : Bool :=
  match o with
  | .next t => f t
  | .fault _ => false
  | .refused _ => false

/-- The same after two instructions. -/
def afterTwo (i j : Instr) (s : State) (f : State → Bool) : Bool := after (exec i s) fun t => after (exec j t) f

/-- P1's four frames. -/
def frames4 : List Byte :=
  [0x55, 0x51, 0x10, 0x00, 0xF0, 0xFF, 0x00, 0x08, 0xAA, 0x0B, 0x62] ++
  [0x55, 0x52, 0xFF, 0x7F, 0x00, 0x80, 0xFF, 0xFF, 0x00, 0x00, 0xA3] ++
  [0x55, 0x53, 0x01, 0x00, 0xFF, 0x7F, 0x00, 0x80, 0x00, 0x00, 0xA7] ++
  [0x55, 0x54, 0x34, 0x12, 0x78, 0x56, 0xBC, 0x9A, 0x00, 0x00, 0x13]

/-- V1's frame, an `ACC` frame with X = 0x8000. -/
def v1 : FrameBuf := #v[0x55, 0x51, 0x00, 0x80, 0x00, 0x00, 0x00, 0x00, 0x78, 0x08, 0xA6]

/-- A block that hunts, and one that collects with `IDX = i`. -/
def hunting : Block := { Block.atReset (Vector.replicate 11 0) with mode := .hunt }
def collectingAt (i : Fin 11) (sum : Byte) : Block := { Block.atReset (Vector.replicate 11 0) with mode := .collect, idx := i, sum := sum }

/-- A poll cycle between two iterations, with these bytes in the receiver. -/
def polling (l : List Byte) : State := { holding l with blk := { State.reset.blk with polling := true } }

/-- A poll cycle about to take the last byte of V1. -/
def lastOfV1 : State :=
  { holding [0xA6] with blk := { State.reset.blk with buf := v1.set 10 0, sum := 0xA6, idx := 10, mode := .collect, polling := true } }

/-- The reset state on a connection that has gone away. -/
def unplugged (l : List Byte) : State := { State.reset with env := ⟨l, [], none, [], false, []⟩ }

/-! ### Well-formedness: a term refused for each check -/

theorem test_wf_refuses_acc_header : (Instr.frameUnknown 0x51 ⟨0, 0, 0, 0, 0, 0⟩).wf = false := by decide
theorem test_wf_refuses_gyro_header : (Instr.frameUnknown 0x52 ⟨0, 0, 0, 0, 0, 0⟩).wf = false := by decide
theorem test_wf_refuses_angle_header : (Instr.frameUnknown 0x53 ⟨0, 0, 0, 0, 0, 0⟩).wf = false := by decide
theorem test_wf_accepts_neighbours :
    (Instr.frameUnknown 0x50 ⟨0, 0, 0, 0, 0, 0⟩).wf = true ∧ (Instr.frameUnknown 0x54 ⟨0, 0, 0, 0, 0, 0⟩).wf = true := by decide

/-! ### Decoding: words from R50, R58, R60 and the vectors of section 2.3 -/

theorem test_decode_acc :
    decode [0x55, 0x51, 0x10, 0x00, 0xF0, 0xFF, 0x00, 0x08, 0xAA, 0x0B, 0x62] =
      .ok (.frameAcc ⟨0x0010, 0xFFF0, 0x0800, 0xAA, 0x0B, 0x62⟩, []) := by rfl
theorem test_decode_gyro :
    decode [0x55, 0x52, 0xFF, 0x7F, 0x00, 0x80, 0xFF, 0xFF, 0x00, 0x00, 0xA3] =
      .ok (.frameGyro ⟨0x7FFF, 0x8000, 0xFFFF, 0x00, 0x00, 0xA3⟩, []) := by rfl
theorem test_decode_angle :
    decode [0x55, 0x53, 0x01, 0x00, 0xFF, 0x7F, 0x00, 0x80, 0x00, 0x00, 0xA7, 0x99] =
      .ok (.frameAngle ⟨0x0001, 0x7FFF, 0x8000, 0x00, 0x00, 0xA7⟩, [0x99]) := by rfl
theorem test_decode_unknown :
    decode [0x55, 0x55, 0x34, 0x12, 0x78, 0x56, 0xBC, 0x9A, 0x01, 0x02, 0x13] =
      .ok (.frameUnknown 0x55 ⟨0x1234, 0x5678, 0x9ABC, 0x01, 0x02, 0x13⟩, []) := by rfl
theorem test_decode_readFrame : decode [1] = .ok (.readFrame, []) := by rfl
theorem test_decode_poll : decode [2] = .ok (.poll, []) := by rfl
theorem test_decode_getAcc : decode [4] = .ok (.getAcc, []) := by rfl
theorem test_decode_getGyro : decode [5] = .ok (.getGyro, []) := by rfl
theorem test_decode_getAngle : decode [6] = .ok (.getAngle, []) := by rfl
theorem test_decode_reserved :
    decode [0] = .ok (.reservedOp0, []) ∧ decode [3] = .ok (.reservedOp3, []) ∧ decode [7] = .ok (.reservedOp7, []) := ⟨rfl, rfl, rfl⟩

/-- D1 gives near misses of the header, 0xD1, 0x11 and 0x50 (R100). -/
theorem test_classify_is_exact : classify 0xD1 = .unknown ∧ classify 0x11 = .unknown ∧ classify 0x50 = .unknown := by decide

/-- The V1 word of R51: the first byte in the least significant 8 bits. -/
theorem test_table_word_v1 :
    decodeTableWord 88 0xA60878000000008000_5155 = some (.frameAcc ⟨0x8000, 0, 0, 0x78, 0x08, 0xA6⟩) := by rfl
theorem test_table_words_of_operations :
    decodeTableWord 8 1 = some .readFrame ∧ decodeTableWord 8 2 = some .poll ∧ decodeTableWord 8 7 = some .reservedOp7 ∧
    decodeTableWord 3 6 = some .getAngle := ⟨rfl, rfl, rfl, rfl⟩
/-- Operand words of zeros: the bare match of the `FRAME.GYRO` row. -/
theorem test_table_word_bare_match : decodeTableWord 16 0x5255 = some (.frameGyro ⟨0, 0, 0, 0, 0, 0⟩) := by rfl

/-! ### Fetching a table word -/

theorem test_fetch_operation : step (State.reset.withFetchWord 8 4) = exec .getAcc { State.reset with caller := ⟨[], none⟩ } := by rfl
theorem test_fetch_reserved : step (State.reset.withFetchWord 8 0) = .next { State.reset with caller := ⟨[], none⟩ } := by rfl
/-- The bare match of `FRAME.ACC` has a wrong checksum byte: the candidate is discarded (R144). -/
theorem test_fetch_bare_frame :
    after (step (State.reset.withFetchWord 88 0x5155)) (fun t =>
      t.blk.status == .badChecksum && t.blk.pcnt == 1 && t.blk.raw == State.reset.blk.raw && t.env.fifo == []) = true := by decide
theorem test_fetch_frame_v1 :
    after (step (State.reset.withFetchWord 88 0xA60878000000008000_5155)) (fun t =>
      t.blk.status == .frame && t.blk.raw == ⟨⟨0x8000, 0, 0⟩, ⟨0, 0, 0⟩, ⟨0, 0, 0⟩⟩ && t.blk.applied) = true := by decide

/-! ### READ_FRAME: T1 to T20 -/

/-- T16: two bytes of garbage, then V1: 13 attempts. -/
theorem test_readFrame_T16 :
    after (exec .readFrame (holding [1, 2, 0x55, 0x51, 0x00, 0x80, 0, 0, 0, 0, 0x78, 0x08, 0xA6])) (fun t =>
      t.caller.reply == some (.read .frame (some v1)) && readAttempts t.env.log == 13 && t.env.fifo == [] &&
      t.blk.raw == State.reset.blk.raw) = true := by decide
/-- T4: one byte short, 11 attempts. -/
theorem test_readFrame_T4 :
    after (exec .readFrame (holding [0x55, 0x51, 0, 0, 0, 0, 0, 0, 0, 0])) (fun t =>
      t.caller.reply == some (.read .underrun none) && readAttempts t.env.log == 11) = true := by decide

/-! ### POLL: P1, P5 and P6 -/

theorem test_poll_P1 :
    after (exec .poll (holding frames4)) (fun t =>
      t.caller.reply == some (.poll true) && t.blk.applied && t.env.fifo == [] && readAttempts t.env.log == 44 &&
      t.blk.raw == ⟨⟨0x0010, 0xFFF0, 0x0800⟩, ⟨0x7FFF, 0x8000, 0xFFFF⟩, ⟨0x0001, 0x7FFF, 0x8000⟩⟩) = true := by rfl
/-- P5, step 3: 44 bytes of garbage, 48 attempts, and the result is true. -/
theorem test_poll_P5 :
    after (exec .poll (holding (List.replicate 44 0))) (fun t =>
      t.caller.reply == some (.poll true) && !t.blk.applied && readAttempts t.env.log == 48) = true := by rfl

/-! ### Accessors and reserved codes -/

theorem test_getAcc_after_P1 :
    afterTwo .poll .getAcc (holding frames4) (fun t => t.caller.reply == some (.fields .acc ⟨0x0010, 0xFFF0, 0x0800⟩)) = true := by rfl
theorem test_getGyro_after_P1 :
    afterTwo .poll .getGyro (holding frames4) (fun t => t.caller.reply == some (.fields .gyro ⟨0x7FFF, 0x8000, 0xFFFF⟩)) = true := by rfl
theorem test_getAngle_after_P1 :
    afterTwo .poll .getAngle (holding frames4) (fun t => t.caller.reply == some (.fields .angle ⟨0x0001, 0x7FFF, 0x8000⟩)) = true := by rfl
theorem test_reserved_codes :
    exec .reservedOp0 (holding frames4) = .next (holding frames4) ∧ exec .reservedOp3 (holding frames4) = .next (holding frames4) ∧
    exec .reservedOp7 (holding frames4) = .next (holding frames4) := ⟨rfl, rfl, rfl⟩

/-! ### Frame rows: the examples of R106 to R109 -/

theorem test_frameAcc_applied :
    after (exec (.frameAcc ⟨0x8000, 0, 0, 0x78, 0x08, 0xA6⟩) (polling [])) (fun t =>
      t.blk.raw == ⟨⟨0x8000, 0, 0⟩, ⟨0, 0, 0⟩, ⟨0, 0, 0⟩⟩ && t.blk.status == .frame) = true := by decide
/-- V1n: the document's printed checksum is wrong. -/
theorem test_frameAcc_V1n :
    after (exec (.frameAcc ⟨0x8000, 0, 0, 0x78, 0x08, 0xD1⟩) (polling [])) (fun t =>
      t.blk.raw == State.reset.blk.raw && t.blk.status == .badChecksum) = true := by decide
theorem test_frameGyro_applied :
    after (exec (.frameGyro ⟨0x0100, 0xFF00, 0x8001, 0x12, 0x34, 0x6E⟩) (polling [])) (fun t =>
      t.blk.raw == ⟨⟨0, 0, 0⟩, ⟨0x0100, 0xFF00, 0x8001⟩, ⟨0, 0, 0⟩⟩ && t.blk.applied) = true := by decide
theorem test_frameAngle_applied :
    after (exec (.frameAngle ⟨0x4000, 0x8000, 0xFFFF, 0, 0, 0x66⟩) (polling [])) (fun t =>
      t.blk.raw == ⟨⟨0, 0, 0⟩, ⟨0, 0, 0⟩, ⟨0x4000, 0x8000, 0xFFFF⟩⟩ && t.blk.applied) = true := by decide
theorem test_frameUnknown_ignored :
    after (exec (.frameUnknown 0x54 ⟨0x1234, 0x5678, 0x9ABC, 0, 0, 0x13⟩) (polling [])) (fun t =>
      t.blk.raw == State.reset.blk.raw && t.blk.status == .frame && !t.blk.applied) = true := by decide

/-- The readings of R104: an angle is never signed. -/
theorem test_field_readings :
    fieldValue .acc 0x8000 = -32768 ∧ fieldValue .gyro 0xFFFF = -1 ∧ fieldValue .angle 0x8000 = 32768 ∧
    fieldValue .angle 0xFFFF = 65535 := by decide

/-! ### Byte steps: the trace of section 2.2 -/

/-- Row 5: 0xA6 + 0x80 drops its carry. -/
theorem test_byte_step_drops_carry :
    (readerStep .default (collectingAt 3 0xA6, (holding [0x80]).env)).1.sum = 0x26 ∧
    (readerStep .default (collectingAt 3 0xA6, (holding [0x80]).env)).1.idx = 4 := by decide
/-- Row 12: the eleventh byte equals `SUM`. -/
theorem test_byte_step_accepts :
    (readerStep .default (collectingAt 10 0xA6, (holding [0xA6]).env)).1.status = .frame ∧
    (readerStep .default (collectingAt 10 0xA6, (holding [0xA6]).env)).1.mode = .idle := by decide

/-! ### The connection and the outputs: R155, R162, R178 -/

/-- R155: the connection has gone away while a hunt runs, and its next read attempt gets no data. -/
theorem test_close_stops_a_hunt :
    after (step { unplugged [1, 2] with blk := hunting }) (fun t =>
      t.caller.reply == some (.read .noData none) && t.env.fifo == [1, 2]) = true := by decide
/-- R33: a link that drops in the middle of an operation shows as no data. -/
theorem test_link_drops_during_read :
    after (exec .readFrame { holding v1.toList with env := ⟨v1.toList, [], none, [true, true, true, false], true, []⟩ }) (fun t =>
      t.caller.reply == some (.read .underrun none) && readAttempts t.env.log == 3 && t.env.fifo.length == 9) = true := by decide
/-- R162: a reset after ten bytes of a frame of a poll cycle; what was read stays read. -/
theorem test_reset_inside_a_poll :
    after (step { lastOfV1 with caller := ⟨[.reset], none⟩ }) (fun t =>
      t.env.fifo == [0xA6] && !t.blk.busy && t.blk.sum == 0 && t.blk.raw == State.reset.blk.raw && t.caller.reply == none) = true := by rfl
/-- R178: a frame's outputs end where the next `POLL` starts, though it is deferred and `STATUS` stays `FRAME`. -/
theorem test_outputs_end_at_a_deferred_poll :
    after (exec .readFrame (holding v1.toList)) (fun t => t.blk.outputs.isSome) = true ∧
    afterTwo .readFrame .poll (holding v1.toList) (fun t => t.blk.status == .frame && t.blk.outputs == none) = true := by decide

/-! ### Witnesses: encoding -/

theorem witness_DecodeOfEncode : (Instr.frameUnknown 0x54 ⟨0x1234, 0xFFFF, 0x8000, 0xAA, 0x0B, 0x13⟩).wf = true := by decide
theorem witness_DecodedBytes : decode [0x55, 0x50, 1, 2, 3, 4, 5, 6, 7, 8, 9, 0] = .ok (.frameUnknown 0x50 ⟨0x0201, 0x0403, 0x0605, 7, 8, 9⟩, [0]) := by
  rfl
theorem witness_DecoderRefuses :
    ((0x08 : Byte) ≠ Config.marker ∧ 8 ≤ (0x08 : Byte).toNat) ∧ ((0xFF : Byte) ≠ Config.marker ∧ 8 ≤ (0xFF : Byte).toNat) ∧
    ((0x55 : Byte) = Config.marker ∧ (List.replicate 9 (0 : Byte)).length < 10) := by decide
theorem witness_DecoderFollowsTableRows : (0x54_55 : FrameWord).extractLsb' 0 8 = Config.marker := by decide
theorem witness_HeaderAlone : v1[1] = (v1.set 2 0xFF)[1] := by decide

/-! ### Witnesses: the reader -/

theorem witness_StartStep_up :
    ({ holding [] with caller := ⟨[.strobe 1], none⟩ } : State).caller.inputs = .strobe 1 :: [] ∧ (holding []).blk.busy = false ∧
    (holding []).env.linkUp.1 = true := by decide
theorem witness_StartStep_down : (unplugged []).env.linkUp.1 = false ∧ (unplugged []).blk.busy = false := by decide
theorem witness_StartStep_iteration :
    QuietNext (polling []) [] ∧ (polling []).blk.mode = .idle ∧ (polling []).blk.polling = true ∧ (polling []).env.linkUp.1 = true ∧
    ({ unplugged [] with blk := (polling []).blk } : State).env.linkUp.1 = false := ⟨.inr ⟨rfl, rfl⟩, rfl, rfl, rfl, rfl⟩
theorem witness_HuntingByteSteps_mode : hunting.mode = .hunt := rfl
theorem witness_HuntingByteSteps_answers :
    (holding []).env.rxRead.1 = none ∧ (holding [0x55]).env.rxRead.1 = some 0x55 ∧ (holding [0x54]).env.rxRead.1 = some 0x54 ∧
    (0x54 : Byte) ≠ 0x55 := by decide
theorem witness_HuntingByteSteps_limits :
    Params.default.huntLimit = none ∧ (1 ≤ 2 ∧ hunting.huntCnt + 1 ≠ 2 ∧ hunting.huntCnt + 1 = 1) := by decide
theorem witness_CollectingByteSteps :
    (collectingAt 9 0).mode = .collect ∧ (collectingAt 9 0).idx.val ≤ 9 ∧ (collectingAt 10 7).idx.val = 10 ∧
    (7 : Byte) = (collectingAt 10 7).sum ∧ (8 : Byte) ≠ (collectingAt 10 7).sum ∧ (holding []).env.rxRead.1 = none ∧
    (holding [7]).env.rxRead.1 = some 7 := by decide
/-- An idle block with a frame to read, left alone with an input to come and with none. -/
theorem witness_RunningReader_idle :
    QuietNext { holding v1.toList with caller := ⟨[.quiet, .issue 1], none⟩ } [.issue 1] ∧ QuietNext (holding v1.toList) [] ∧
    (holding v1.toList).blk.busy = false := ⟨.inl rfl, .inr ⟨rfl, rfl⟩, rfl⟩
/-- A reader that goes on, one that ends alone, and one that ends in a cycle. -/
theorem witness_RunningReader :
    QuietNext { holding [1] with blk := hunting } [] ∧ hunting.mode ≠ .idle ∧ hunting.Inv ∧ hunting.polling = false ∧
    (answerStep .default (some 1) hunting).mode ≠ .idle ∧ (answerStep .default none hunting).mode = .idle ∧
    lastOfV1.blk.Inv ∧ lastOfV1.blk.polling = true ∧ (answerStep .default lastOfV1.env.rxRead.1 lastOfV1.blk).mode = .idle :=
  ⟨.inr ⟨rfl, rfl⟩, by decide, by decide, rfl, by decide, by decide, by decide, rfl, by decide⟩
theorem witness_ReadFrameWithLinkDown :
    ({ State.reset with env := { Env.quiet with links := [false] } } : State).env.linkUp.1 = false ∧ State.reset.blk.busy = false := by decide
theorem garbage_two : Garbage [0x00, 0xFF] := by unfold Garbage; decide
theorem limitAllows_default (n : Nat) : LimitAllows .default n := by intro m h; cases h
theorem witness_ReadFrameRunsDry :
    (holding [0x00, 0xFF]).blk.busy = false ∧ (holding [0x00, 0xFF]).env.linkUp.1 = true ∧ Garbage [0x00, 0xFF] ∧
    LimitAllows (holding [0x00, 0xFF]).params 2 ∧
    ((holding [0x00, 0xFF]).env.linkUp.2.reads 3).1 = [some 0x00, some 0xFF, none] :=
  ⟨by decide, by decide, garbage_two, limitAllows_default 2, by decide⟩
theorem witness_ReadFrameReachesHuntLimit :
    Garbage [0x00, 0xFF] ∧ ({ holding [0x00, 0xFF] with params := ⟨false, .cycleRan, some 2⟩ } : State).params.huntLimit = some 2 ∧
    ((holding [0x00, 0xFF]).env.linkUp.2.reads 2).1 = [some 0x00, some 0xFF] := ⟨garbage_two, rfl, by decide⟩
/-- P4's underrun, and one at the ninth collected byte. -/
theorem witness_ReadFrameUnderruns :
    ((holdingThen [0x55, 0x52, 0x00, 0x01, 0x00] [none]).env.linkUp.2.reads 6).1 =
      [some Config.marker, some 0x52, some 0x00, some 0x01, some 0x00, none] ∧
    ((holding (0x55 :: List.replicate 9 0)).env.linkUp.2.reads 11).1 =
      some Config.marker :: ((List.replicate 9 (0 : Byte)).map some ++ [none]) := ⟨by decide, by decide⟩
theorem witness_ReadFrameCompletesCandidate :
    ((holding ([0x00, 0xFF] ++ v1.toList)).env.linkUp.2.reads 13).1 = [0x00, 0xFF].map some ++ v1.toList.map some ∧
    v1[0] = Config.marker ∧ v1[10] = checksum v1 ∧ (v1.set 10 0xD1)[10] ≠ checksum (v1.set 10 0xD1) := by decide
/-- Each of the four outcomes of R93 (P4, T2, V1, V1n). -/
theorem witness_ReadFrameIsItsFunctionalForm :
    readFrameForm ((holding [1, 2, 3]).env.linkUp.2.reads 4).1 = some (.noData, none, 4) ∧
    readFrameForm ((holding [0x55, 0x52, 0x00, 0x01, 0x00]).env.linkUp.2.reads 6).1 = some (.underrun, none, 6) ∧
    readFrameForm ((holding v1.toList).env.linkUp.2.reads 11).1 = some (.frame, some v1.toList, 11) ∧
    readFrameForm ((holding (v1.set 10 0xD1).toList).env.linkUp.2.reads 11).1 = some (.badChecksum, none, 11) := ⟨rfl, rfl, rfl, rfl⟩
/-- A source that answers 0x00 for ever. -/
theorem witness_EndlessHuntNeverEnds :
    ∀ n, ∀ a ∈ (({ Env.quiet with tail := some 0 } : Env).linkUp.2.reads n).1, ∃ b, a = some b ∧ b ≠ Config.marker := by
  intro n a ha
  rw [Env.reads_of_exhausted n _ rfl rfl rfl] at ha
  exact ⟨0, (List.mem_replicate.1 ha).2, by decide⟩
theorem witness_ReadFrameLeaves :
    State.reset.blk.busy = false ∧ State.reset.env.tail = none ∧
    (∃ n, 1 ≤ n ∧ ({ State.reset with params := ⟨false, .cycleRan, some 1⟩ } : State).params.huntLimit = some n) :=
  ⟨by decide, rfl, 1, by decide, rfl⟩
theorem witness_OutputsAfterReadFrame :
    after (exec .readFrame (holding v1.toList)) (fun t => t.blk.mode == .idle && t.blk.status == .frame) = true ∧
    after (exec .readFrame (holding [1])) (fun t => t.blk.status != .frame) = true := by decide
theorem witness_OutputsAfterPoll :
    (unplugged []).env.linkUp.1 = false ∧ (holding (List.replicate 43 0)).env.fifo.length ≤ 43 ∧
    after (exec .poll (holding (frames4 ++ frames4))) (fun t => !t.blk.polling && t.blk.status == .frame) = true ∧
    after (exec .poll (holding (List.replicate 44 0))) (fun t => t.blk.status != .frame) = true ∧
    after (step { holding [] with caller := ⟨[.strobe 2], none⟩ }) (fun t => !t.blk.busy) = true := ⟨rfl, by decide, rfl, rfl, rfl⟩

/-! ### Witnesses: the poll -/

theorem witness_PollWithLinkDown :
    ({ State.reset with env := { Env.quiet with link := false } } : State).env.linkUp.1 = false ∧ State.reset.blk.busy = false := by decide
theorem witness_PollBelowThreshold :
    (holding (List.replicate 43 0)).env.linkUp.1 = true ∧ (holding (List.replicate 43 0)).env.linkUp.2.fifo.length ≤ 43 := by decide
/-- Both ends of a `POLL`: ended, and hunting without end. -/
theorem witness_PollResult :
    after (exec .poll (holding (List.replicate 44 0))) (fun t => !t.blk.polling) = true ∧
    after (exec .poll { State.reset with env := ⟨List.replicate 44 0, [], some 0, [], true, []⟩ }) (fun t => t.blk.polling) = true :=
  ⟨rfl, rfl⟩
theorem witness_PollAppliesFourFrames :
    isFrame v1 = true ∧ (holding (v1.toList ++ v1.toList ++ v1.toList ++ v1.toList ++ [7])).env.link = true ∧
    (holding []).env.links = [] ∧ (holding []).blk.busy = false := by decide
theorem witness_PollInvokesTheReader :
    after (exec .poll (holding (List.replicate 44 0))) (fun t => !t.blk.polling) = true ∧
    (holding (List.replicate 44 0)).env.linkUp.1 = true ∧ 44 ≤ (holding (List.replicate 44 0)).env.fifo.length ∧
    (holding []).params.stopOnNoData = false := ⟨rfl, rfl, by decide, rfl⟩
theorem witness_PollStopsOnNoData :
    Garbage (List.replicate 44 0) ∧ (⟨true, .cycleRan, none⟩ : Params).stopOnNoData = true ∧
    LimitAllows ⟨true, .cycleRan, none⟩ 44 ∧
    ((holding (List.replicate 44 0)).env.reads 45).1 = (List.replicate 44 (0 : Byte)).map some ++ [none] := by
  refine ⟨?_, rfl, ?_, by decide⟩
  · intro b hb
    rw [(List.mem_replicate.1 hb).2]; decide
  · intro m h; cases h
/-- A frame, a wrong frame, and then `NO_DATA` in the third iteration, which ends the cycle; with the default parameter it does not. -/
def stopsThird (stop : Bool) (i : Nat) : Block × Env :=
  (iteration ⟨stop, .cycleRan, none⟩)^[i] ({ State.reset.blk with polling := true },
    (holding (v1.toList ++ (v1.set 10 0).toList ++ List.replicate 22 0)).env.linkUp.2.rxCount.2)
theorem witness_PollStopsOnNoData_any :
    (stopsThird true 1).1.mode = .idle ∧ (stopsThird true 2).1.mode = .idle ∧ (stopsThird true 3).1.mode = .idle ∧
    (stopsThird true 1).1.status = .frame ∧ (stopsThird true 2).1.status = .badChecksum ∧
    StopsForNoData ⟨true, .cycleRan, none⟩ (stopsThird true 3).1 := ⟨rfl, rfl, rfl, rfl, rfl, rfl, rfl⟩
theorem witness_PollStopsOnNoData_four :
    (stopsThird false 4).1.mode = .idle ∧ ∀ k, ¬ StopsForNoData ⟨false, .cycleRan, none⟩ k := ⟨rfl, fun _ h => by cases h.1⟩
theorem witness_PollThatAppliesNothing : after (exec .poll (holding (List.replicate 44 0))) (fun t => !t.blk.applied) = true := rfl
theorem witness_AppliesCommute : Kind.acc ≠ Kind.gyro := by decide
theorem witness_Strobed : (holding frames4).blk.busy = false ∧ (holding frames4).caller.inputs = [] := by decide
theorem witness_idle_operations : State.reset.blk.busy = false := by decide

/-! ### Witnesses: frames -/

theorem witness_KnownFrame :
    (polling []).blk.polling = true ∧ isFrame (frameBytes 0x51 ⟨0x8000, 0, 0, 0x78, 0x08, 0xA6⟩) = true ∧
    isFrame (frameBytes 0x52 ⟨0x0100, 0xFF00, 0x8001, 0x12, 0x34, 0x6E⟩) = true ∧
    isFrame (frameBytes 0x53 ⟨0x4000, 0x8000, 0xFFFF, 0, 0, 0x66⟩) = true := by decide
theorem witness_UnknownFrame :
    (Instr.frameUnknown 0x54 ⟨0x1234, 0x5678, 0x9ABC, 0, 0, 0x13⟩).wf = true ∧
    isFrame (frameBytes 0x54 ⟨0x1234, 0x5678, 0x9ABC, 0, 0, 0x13⟩) = true := by decide
theorem witness_BadChecksum :
    (0xD1 : Byte) ≠ checksum (frameBytes 0x51 ⟨0x8000, 0, 0, 0x78, 0x08, 0xD1⟩) ∧
    (0x00 : Byte) ≠ checksum (frameBytes 0x52 ⟨0, 0, 0, 0, 0, 0⟩) ∧ (0x00 : Byte) ≠ checksum (frameBytes 0x53 ⟨0, 0, 0, 0, 0, 0⟩) ∧
    (0x00 : Byte) ≠ checksum (frameBytes 0x54 ⟨0, 0, 0, 0, 0, 0⟩) := by decide
theorem witness_FrameOutsideAPoll : State.reset.blk.polling = false := rfl
theorem witness_PollStep :
    (polling ([0x00, 0xFF] ++ v1.toList)).caller.inputs = [] ∧ (polling []).blk.mode = .idle ∧ (polling []).env.linkUp.1 = true ∧
    ((polling ([0x00, 0xFF] ++ v1.toList)).env.linkUp.2.reads 13).1 = [0x00, 0xFF].map some ++ v1.toList.map some ∧
    decode v1.toList = .ok (.frameAcc ⟨0x8000, 0, 0, 0x78, 0x08, 0xA6⟩, []) :=
  ⟨rfl, rfl, rfl, by decide, rfl⟩
/-- Each way to end without a candidate: a dead link, a dry hunt, the limit, an underrun at once and at the last byte. -/
theorem witness_PollStep_withoutCandidate :
    EndsWithoutCandidate .default (unplugged []).env 1 .noData (unplugged []).env.linkUp.2 ∧
    EndsWithoutCandidate .default (polling [0, 0xFF]).env 4 .noData ((polling [0, 0xFF]).env.linkUp.2.reads 3).2 ∧
    EndsWithoutCandidate ⟨false, .cycleRan, some 2⟩ (polling [0, 0xFF]).env 3 .noData ((polling [0, 0xFF]).env.linkUp.2.reads 2).2 ∧
    EndsWithoutCandidate .default (polling [0x55]).env 3 .underrun ((polling [0x55]).env.linkUp.2.reads 2).2 ∧
    EndsWithoutCandidate .default (polling (0x55 :: List.replicate 9 0)).env 12 .underrun
      ((polling (0x55 :: List.replicate 9 0)).env.linkUp.2.reads 11).2 :=
  ⟨.inl ⟨rfl, rfl, rfl⟩,
    .inr ⟨_, [0x00, 0xFF], rfl, garbage_two, .inl ⟨rfl, rfl, limitAllows_default 2, rfl⟩⟩,
    .inr ⟨_, [0x00, 0xFF], rfl, garbage_two, .inr (.inl ⟨rfl, rfl, by decide, rfl, rfl⟩)⟩,
    .inr ⟨_, [], rfl, by simp [Garbage], .inr (.inr ⟨[], rfl, rfl, limitAllows_default 0, by decide, rfl⟩)⟩,
    .inr ⟨_, [], rfl, by simp [Garbage], .inr (.inr ⟨List.replicate 9 0, rfl, rfl, limitAllows_default 0, by decide, rfl⟩)⟩⟩
theorem witness_LastByte :
    QuietNext lastOfV1 [] ∧ lastOfV1.blk.mode = .collect ∧ lastOfV1.blk.idx = 10 ∧ lastOfV1.env.rxRead.1 = some 0xA6 ∧
    decode (lastOfV1.blk.buf.set 10 0xA6).toList = .ok (.frameAcc ⟨0x8000, 0, 0, 0x78, 0x08, 0xA6⟩, []) ∧
    (collectingAt 10 0).polling = false := ⟨.inr ⟨rfl, rfl⟩, rfl, rfl, rfl, rfl, rfl⟩
/-- A counted iteration ends the cycle at the fourth, or goes on. -/
theorem witness_IterationCounted :
    IterationCounted { polling [] with blk := { (polling []).blk with pcnt := 3 } }
      (afterIteration { polling [] with blk := { (polling []).blk with pcnt := 3 } }) ∧
    (polling []).blk.pcnt.val + 1 < 4 ∧ ¬ StopsForNoData (polling []).params (polling []).blk :=
  ⟨⟨fun _ => rfl, fun h => absurd h (by decide)⟩, by decide, fun h => by cases h.1⟩
theorem witness_StepRunsTheIssuedOperation :
    ({ State.reset with caller := ⟨[.issue 6], none⟩ } : State).caller.inputs = .issue 6 :: [] ∧
    ({ State.reset with caller := ⟨[.strobe 6], none⟩ } : State).caller.inputs = .strobe 6 :: [] ∧
    decode [(6 : OpCode).setWidth 8] = .ok (.getAngle, []) ∧ Instr.getAngle ≠ .readFrame ∧ Instr.getAngle ≠ .poll :=
  ⟨rfl, rfl, rfl, by decide, by decide⟩
theorem witness_FetchWord : v1[0] = Config.marker := by decide

/-! ### Witnesses: the whole machine -/

theorem witness_StartWhileBusy :
    ({ State.reset with blk := hunting } : State).blk.busy = true ∧ (polling []).blk.busy = true ∧
    step { State.reset with blk := hunting, caller := ⟨[.issue 4], none⟩ } = .refused .startWhileBusy ∧
    step { polling [] with caller := ⟨[.strobe 2], none⟩ } = .refused .startWhileBusy := ⟨by decide, by decide, rfl, rfl⟩
theorem witness_ResetInput : ({ State.reset with blk := hunting, caller := ⟨[.reset], none⟩ } : State).caller.inputs = .reset :: [] := rfl
theorem reset_inv : State.reset.blk.Inv := by decide
theorem witness_StepKeepsTheRegisterInvariants :
    State.reset.blk.Inv ∧ (polling v1.toList).blk.Inv ∧ hunting.Inv ∧ lastOfV1.blk.Inv ∧
    after (step lastOfV1) (fun t => t.blk.pcnt == 1) = true := ⟨by decide, by decide, by decide, by decide, rfl⟩
theorem witness_StepKeepsLatchesGenuine : State.reset.Genuine :=
  ⟨by decide, fun kind v h => .inl (by cases kind <;> simp [Raw.get, State.reset, Block.atReset] at h <;> exact h.symm),
    fun h => by cases h⟩
/-- A poll step and an issued `POLL` that change a latch. -/
theorem witness_OnlyPollAndResetWriteLatches :
    after (step lastOfV1) (fun t => t.blk.raw != State.reset.blk.raw) = true ∧
    after (step { holding frames4 with caller := ⟨[.issue 2], none⟩ }) (fun t => t.blk.raw != State.reset.blk.raw) = true := ⟨rfl, rfl⟩
theorem witness_StepOnlyReadsTheStream :
    (∀ b rest, lastOfV1.caller.inputs ≠ .arrive b :: rest) ∧ (∀ u rest, lastOfV1.caller.inputs ≠ .setLink u :: rest) ∧
    after (step lastOfV1) (fun t => t.env.fifo == []) = true :=
  ⟨by intros; simp [lastOfV1, holding, State.reset], by intros; simp [lastOfV1, holding, State.reset], rfl⟩
theorem witness_StepOnlyReadsTheStream_moves :
    after (step { holding [1] with caller := ⟨[.arrive 7], none⟩ }) (fun t => t.env.fifo == [1, 7]) = true ∧
    after (step { lastOfV1 with caller := ⟨[.setLink false], none⟩ }) (fun t =>
      t.blk.mode != .idle && t.env.rxRead.1 == none && t.caller.inputs == []) = true := ⟨rfl, rfl⟩
theorem witness_BufferedBytes :
    (holding v1.toList).env.StaysOpen ∧ 11 ≤ (holding v1.toList).env.rxCount.1 ∧
    (⟨v1.toList, [], none, [true, true], true, []⟩ : Env).StaysOpen ∧ (unplugged [1]).env.link = false ∧ (unplugged [1]).env.links = [] :=
  ⟨⟨by simp [holding], fun _ => rfl⟩, by decide, ⟨by simp, by simp⟩, rfl, rfl⟩

end Sys2Proof.Tests
end

namespace Sys2Proof.Proofs
open Sys2Proof.Machine

/-- Settles O58: the reset input leaves the parameters (R160, R161), and every other step with a next state leaves the parameters
and the draw counter. -/
theorem stepKeepsParameters : Obligations.StepKeepsParameters := by
  intro s t h
  obtain ⟨rest, hreset, rfl⟩ | ⟨hparams, hdraws, -⟩ := step_moved h
  · exact ⟨by simp, .inr ⟨rest, hreset⟩⟩
  · exact ⟨hparams, .inl hdraws⟩

end Sys2Proof.Proofs

namespace Sys2Proof.Machine

/-! ### The register invariants in two halves (R22) -/

/-- R22 (a) of the poll's registers: `PCNT` is 0 outside a cycle, and below 4 between the steps of one. -/
def Block.PollInv (k : Block) : Prop :=
  (k.polling = false → k.pcnt = 0) ∧ (k.polling = true → k.pcnt.val < 4)

/-- R22 (a), (b) and (c) of the reader's registers, phase by phase; clause (b) of a reader at rest. -/
structure Block.ReaderInv (k : Block) : Prop where
  idle : k.mode = .idle → k.idx = 0
  hunt : k.mode = .hunt → k.idx = 0 ∧ k.sum = 0
  collect : k.mode = .collect → 1 ≤ k.idx.val ∧ k.buf[0] = Config.marker ∧ k.sum = partialSum k.buf k.idx.val
  frame : k.mode = .idle → k.status = .frame → isFrame k.buf = true

theorem Block.inv_iff (k : Block) : k.Inv ↔ k.PollInv ∧ k.ReaderInv := by
  constructor
  · rintro ⟨hout, hin, hidle, hhunt, hcollect, hframe⟩
    exact ⟨⟨hout, hin⟩, hidle, hhunt, hcollect, hframe⟩
  · rintro ⟨⟨hout, hin⟩, hidle, hhunt, hcollect, hframe⟩
    exact ⟨hout, hin, hidle, hhunt, hcollect, hframe⟩

/-- What leaves `PCNT` and the poll bit leaves the poll's half of the invariant. -/
theorem SamePollSide.pollInv {k k' : Block} (h : SamePollSide k k') (hk : k.PollInv) : k'.PollInv := by
  obtain ⟨-, -, hpcnt, -, hpolling⟩ := h
  unfold Block.PollInv; rw [hpcnt, hpolling]; exact hk

/-- The reader's half depends on the reader's registers alone. -/
theorem Block.ReaderInv.congr {k k' : Block} (h : k.ReaderInv) (hbuf : k'.buf = k.buf) (hsum : k'.sum = k.sum) (hidx : k'.idx = k.idx)
    (hmode : k'.mode = k.mode) (hstatus : k'.status = k.status) : k'.ReaderInv := by
  obtain ⟨hidle, hhunt, hcollect, hframe⟩ := h
  constructor <;> rw [hmode] <;> simp only [hbuf, hsum, hidx, hstatus] <;> assumption

theorem isFrame_iff (b : FrameBuf) : isFrame b = true ↔ b[0] = Config.marker ∧ b[10] = checksum b := by simp [isFrame]

theorem verdict_eq_frame {last sum : Byte} : verdict last sum = .frame ↔ last = sum := by
  unfold verdict; split <;> simp [*]

/-- A reader that has ended with `FRAME` holds an accepted frame (R57, R76). -/
theorem Block.Ended.isFrame {k : Block} (h : k.Ended) (hs : k.status = .frame) : isFrame k.buf = true := by
  obtain ⟨hmarker, -, hverdict⟩ := h.candidate (.inl hs)
  exact (isFrame_iff _).2 ⟨hmarker, verdict_eq_frame.1 (hverdict ▸ hs)⟩

theorem Block.Ended.readerInv {k : Block} (h : k.Ended) : k.ReaderInv where
  idle _ := h.idx
  hunt hm := by rw [h.mode] at hm; cases hm
  collect hm := by rw [h.mode] at hm; cases hm
  frame _ hs := h.isFrame hs

/-! ### One exchange of the reader -/

/-- One more byte behind the first `n` adds to their sum (R75). -/
theorem partialSum_set_succ (b : FrameBuf) (n : Nat) (hn : n < 11) (x : Byte) : partialSum (b.set n x) (n + 1) = partialSum b n + x := by
  have hlen : b.toList.length = 11 := by simp
  rw [partialSum, Vector.toList_set, take_succ_set x (by omega)]
  simp [partialSum]

/-- All that an answer can do to a reader at work (R82 to R86): it discards a byte, finds the marker, takes a byte of the candidate, takes
the last one, or ends the reader without a frame. -/
theorem answerStep_cases (p : Params) (r : Option Byte) {k : Block} (hw : k.mode ≠ .idle) :
    (k.mode = .hunt ∧ answerStep p r k = k.countDiscard p.huntLimit) ∨
    (k.mode = .hunt ∧ r = some Config.marker ∧ answerStep p r k = k.markerFound) ∨
    (k.mode = .collect ∧ ∃ b, r = some b ∧ k.idx.val ≤ 9 ∧ answerStep p r k = k.take b) ∨
    (k.mode = .collect ∧ ∃ b, r = some b ∧ k.idx.val = 10 ∧ answerStep p r k = (k.store b).finish (verdict b k.sum)) ∨
    ((answerStep p r k).mode = .idle ∧ (answerStep p r k).status ≠ .frame) := by
  unfold answerStep
  split
  · contradiction
  · simp
  · next b hm =>
    by_cases hb : b = Config.marker
    · subst hb; exact .inr (.inl ⟨hm, rfl, by simp [huntByte, Block.markerFound]⟩)
    · simp only [huntByte, if_neg hb]
      split
      · simp
      · exact .inl ⟨hm, rfl⟩
  · simp
  · next b hm =>
    have := k.idx.isLt
    unfold collectByte
    split
    · next h9 => exact .inr (.inr (.inl ⟨hm, b, rfl, h9, rfl⟩))
    · exact .inr (.inr (.inr (.inl ⟨hm, b, rfl, by omega, rfl⟩)))

/-- The candidate begins with the marker alone (R73). -/
theorem Block.markerFound_readerInv (k : Block) : k.markerFound.ReaderInv := by
  refine ⟨by simp, by simp, fun _ => ⟨by simp, by simp, ?_⟩, by simp⟩
  simpa [partialSum] using (partialSum_set_succ k.buf 0 (by omega) Config.marker).symm

/-- A byte of the candidate that is not its last keeps its marker and its sum (R74, R75). -/
theorem Block.take_readerInv {k : Block} (h : k.ReaderInv) (hm : k.mode = .collect) (h9 : k.idx.val ≤ 9) (b : Byte) :
    (k.take b).ReaderInv := by
  obtain ⟨h1, hmarker, hsum⟩ := h.collect hm
  have hmode : (k.take b).mode = .collect := hm
  have hidx : (k.take b).idx.val = k.idx.val + 1 := nextIdx_val h9
  refine ⟨by simp [hmode], by simp [hmode], fun _ => ⟨by omega, ?_, ?_⟩, by simp [hmode]⟩
  · exact (Vector.getElem_set_ne (xs := k.buf) k.idx.isLt (by omega) (by omega)).trans hmarker
  · rw [hidx]
    exact (congrArg (· + b) hsum).trans (partialSum_set_succ k.buf k.idx.val k.idx.isLt b).symm

/-- An answer that ends a reader at work leaves it as the reader ends. -/
theorem Block.ReaderInv.answerStep_ended {p : Params} {r : Option Byte} {k : Block} (h : k.ReaderInv) (hw : k.mode ≠ .idle)
    (hi : (answerStep p r k).mode = .idle) : (answerStep p r k).Ended := by
  refine Machine.answerStep_ended hw (fun hm => ?_) hi
  obtain ⟨h1, hmarker, hsum⟩ := h.collect hm
  exact ⟨hmarker, h1, hsum⟩

theorem answerStep_readerInv (p : Params) (r : Option Byte) {k : Block} (h : k.ReaderInv) (hw : k.mode ≠ .idle) :
    (answerStep p r k).ReaderInv := by
  by_cases hi : (answerStep p r k).mode = .idle
  · exact (h.answerStep_ended hw hi).readerInv
  · obtain ⟨hm, h'⟩ | ⟨-, -, h'⟩ | ⟨hm, b, -, h9, h'⟩ | ⟨-, b, -, -, h'⟩ | ⟨h', -⟩ := answerStep_cases p r hw
    · rw [h']; exact h.congr (by simp) (by simp) (by simp) (by simp) (by simp)
    · rw [h']; exact k.markerFound_readerInv
    · rw [h']; exact k.take_readerInv h hm h9 b
    · exact absurd (by rw [h']; rfl) hi
    · exact absurd h' hi

/-- All that the start step can do (R81): it ends the reader without data, or begins a hunt from a cleared reader. -/
theorem startRead_cases (k : Block) (e : Env) :
    ((startRead k e).1.Ended ∧ (startRead k e).1.status = .noData) ∨
    ((startRead k e).1.mode = .hunt ∧ (startRead k e).1.idx = 0 ∧ (startRead k e).1.sum = 0) := by
  unfold startRead
  split
  · exact .inl ⟨⟨rfl, rfl, rfl, by simp⟩, rfl⟩
  · exact .inr ⟨rfl, rfl, rfl⟩

/-- A hunt from a cleared reader meets the reader's half. -/
theorem Block.readerInv_of_hunt {k : Block} (hm : k.mode = .hunt) (hidx : k.idx = 0) (hsum : k.sum = 0) : k.ReaderInv :=
  ⟨by simp [hm], fun _ => ⟨hidx, hsum⟩, by simp [hm], by simp [hm]⟩

theorem startRead_readerInv (k : Block) (e : Env) : (startRead k e).1.ReaderInv := by
  obtain ⟨hended, -⟩ | ⟨hm, hidx, hsum⟩ := startRead_cases k e
  · exact hended.readerInv
  · exact Block.readerInv_of_hunt hm hidx hsum

theorem exchange_readerInv (p : Params) {k : Block} (e : Env) (h : k.ReaderInv) : (exchange p (k, e)).1.ReaderInv := by
  obtain ⟨-, h'⟩ | ⟨hw, h'⟩ := exchange_cases p k e <;> rw [h']
  · exact startRead_readerInv k e
  · exact answerStep_readerInv p e.rxRead.1 h hw

/-- An exchange after which the reader is at rest has ended it as the reader ends. -/
theorem exchange_ended {p : Params} {k : Block} {e : Env} (h : k.ReaderInv) (hi : (exchange p (k, e)).1.mode = .idle) :
    (exchange p (k, e)).1.Ended := by
  obtain ⟨-, h'⟩ | ⟨hw, h'⟩ := exchange_cases p k e <;> rw [h'] at hi ⊢
  · obtain ⟨hended, -⟩ | ⟨hm, -⟩ := startRead_cases k e
    · exact hended
    · rw [hm] at hi; cases hi
  · exact h.answerStep_ended hw hi

/-! ### The end of an iteration -/

theorem Block.applyRead_readerInv {k : Block} (h : k.ReaderInv) : k.applyRead.ReaderInv :=
  h.congr (by simp) (by simp) (by simp) (by simp) (by simp)

theorem Block.counted_readerInv (p : Params) {k : Block} (h : k.ReaderInv) : (k.counted p).ReaderInv := by
  unfold Block.counted
  split <;> exact h.congr rfl rfl rfl rfl rfl

/-- The fourth iteration ends the cycle, so the count of one that goes on is below 4 (R15, R120). -/
theorem Block.counted_pollInv (p : Params) {k : Block} (hp : k.polling = true) (hn : k.pcnt.val < 4) : (k.counted p).PollInv := by
  have hpcnt : k.countRead.pcnt.val = k.pcnt.val + 1 := nextPcnt_val hn
  unfold Block.counted
  split
  · exact ⟨fun _ => rfl, by simp⟩
  · next hgo =>
    simp only [hpcnt, Config.pollMaxFrames, not_or] at hgo
    exact ⟨by simp [hp], fun _ => by omega⟩

/-- All that can follow an exchange: nothing, or in a poll cycle, whose reader has ended, the apply and the count (R120, R124). -/
theorem Block.concluded_cases (p : Params) {k : Block} (hended : k.mode = .idle → k.Ended) :
    k.concluded p = k ∨ (k.mode = .idle ∧ k.polling = true ∧ k.concluded p = k.applyRead.counted p) := by
  unfold Block.concluded
  split
  · next hi =>
    rw [Block.executed_of_ended (hended hi)]
    cases k.polling
    · exact .inl rfl
    · exact .inr ⟨hi, rfl, rfl⟩
  · exact .inl rfl

/-- What follows an exchange keeps both halves, where a reader at rest has ended as the reader ends. -/
theorem Block.concluded_inv (p : Params) {k : Block} (h : k.Inv) (hended : k.mode = .idle → k.Ended) : (k.concluded p).Inv := by
  obtain h' | ⟨-, hp, h'⟩ := Block.concluded_cases p hended <;> rw [h']
  · exact h
  · obtain ⟨hpoll, hreader⟩ := k.inv_iff.1 h
    exact (Block.inv_iff _).2 ⟨k.applyRead.counted_pollInv p (by simpa using hp) (by simpa using hpoll.2 hp),
      Block.counted_readerInv p (Block.applyRead_readerInv hreader)⟩

/-! ### The issued operations -/

theorem readFrame_readerInv (p : Params) (k : Block) (e : Env) : (readFrame p k e).1.ReaderInv := by
  rcases (readFrame_side p k e).2 with hm | hm
  · exact (readFrame_ended hm).readerInv
  · obtain ⟨-, h⟩ | ⟨-, g, e', -, ⟨h, -⟩ | ⟨c, -, h, -⟩ | ⟨b, -, h, -⟩ | ⟨h, -⟩⟩ := readFrame_cases p k e <;> rw [h] at hm ⊢
    · cases hm
    · cases hm
    · cases hm
    · cases hm
    · exact Block.readerInv_of_hunt hm rfl rfl

theorem afterRead_readerInv (p : Params) (k : Block) (e : Env) : (afterRead p k e).ReaderInv :=
  Block.applyRead_readerInv ((readFrame_readerInv p k e).congr rfl rfl rfl rfl rfl)

/-- The rule of `pollLoop_induct`, which also tells that an iteration begins with the count below 4 (R120). -/
theorem pollLoop_induct_below_four (p : Params) (P : Block → Env → Prop) (Q : Block × Env → Prop)
    (hgo : ∀ k e, P k e → k.pcnt.val < 4 → (readFrame p k e).1.mode = .hunt → Q (readFrame p k e))
    (hend : ∀ k e, P k e → Q (k.endCycle p, e))
    (hstep : ∀ k e, P k e → (readFrame p k e).1.mode = .idle → P (afterRead p k e) (readFrame p k e).2) (n : Nat) (k : Block) (e : Env)
    (h : P k e) : Q (pollLoop p n k e) := by
  induction n generalizing k e with
  | zero => exact hend k e h
  | succ n ih =>
    by_cases hp : k.pcnt.val < 4
    · obtain ⟨hm, h'⟩ | ⟨hm, ⟨-, h'⟩ | ⟨-, h'⟩⟩ := pollLoop_succ p n k e hp <;> rw [h']
      · exact hgo k e h hp hm
      · exact hend _ _ (hstep k e h hm)
      · exact ih _ _ (hstep k e h hm)
    · rw [pollLoop, if_neg (show ¬ k.pcnt.val < Config.pollMaxFrames from hp)]
      exact hend k e h

theorem readFrame_inv (p : Params) {k : Block} (e : Env) (h : k.PollInv) : (readFrame p k e).1.Inv :=
  (Block.inv_iff _).2 ⟨(readFrame_side p k e).1.pollInv h, readFrame_readerInv p k e⟩

/-- A running cycle keeps the invariants, whether it ends or hunts on in one of its iterations. -/
theorem pollLoop_inv (p : Params) (n : Nat) {k : Block} (e : Env) (hp : k.polling = true) (h : k.ReaderInv) :
    (pollLoop p n k e).1.Inv := by
  refine pollLoop_induct_below_four p (fun k _ => k.polling = true ∧ k.ReaderInv) (fun r => r.1.Inv) ?_ ?_ ?_ n k e ⟨hp, h⟩
  · rintro k e ⟨hp, -⟩ hlt -
    exact readFrame_inv p e ⟨by simp [hp], fun _ => hlt⟩
  · rintro k e ⟨-, h⟩
    exact (Block.inv_iff _).2 ⟨⟨fun _ => rfl, by simp⟩, h.congr rfl rfl rfl rfl rfl⟩
  · rintro k e ⟨hp, -⟩ -
    exact ⟨(afterRead_fields p k e).2.2.1.trans hp, afterRead_readerInv p k e⟩

/-- `PCNT` is 0 at the start of a `POLL`, and the reader is as it was (R120, R121). -/
theorem Block.beginPoll_defer_inv {k : Block} (h : k.ReaderInv) : k.beginPoll.defer.Inv :=
  (Block.inv_iff _).2 ⟨⟨fun _ => rfl, by simp⟩, h.congr rfl rfl rfl rfl rfl⟩

theorem Block.beginPoll_openCycle_inv {k : Block} (h : k.ReaderInv) : k.beginPoll.openCycle.Inv :=
  (Block.inv_iff _).2 ⟨⟨fun _ => rfl, by simp⟩, h.congr rfl rfl rfl rfl rfl⟩

theorem poll_inv (p : Params) {k : Block} (e : Env) (h : k.ReaderInv) : (poll p k e).1.Inv := by
  obtain ⟨-, h'⟩ | ⟨-, -, h'⟩ | ⟨-, -, h'⟩ := poll_cases p k e <;> rw [h']
  · exact Block.beginPoll_defer_inv h
  · exact Block.beginPoll_defer_inv h
  · exact pollLoop_inv p 4 _ rfl (h.congr rfl rfl rfl rfl rfl)

/-- All that the gate of a `POLL` can do: it defers the poll, or opens its cycle (R121, R122). -/
theorem pollGate_blk (k : Block) (e : Env) :
    (pollGate k e).2.1 = k.beginPoll.defer ∨ (pollGate k e).2.1 = k.beginPoll.openCycle := by
  unfold pollGate
  split
  · exact .inl rfl
  · split
    · exact .inl rfl
    · exact .inr rfl

/-! ### One step -/

theorem Block.atReset_inv (b : FrameBuf) : (Block.atReset b).Inv := by
  simp [Block.Inv, Block.atReset]

theorem GoesOn.inv {p : Params} {k k' : Block} {e e' : Env} (hgo : GoesOn p k e k' e') (h : k.Inv) : k'.Inv := by
  obtain ⟨hpoll, hreader⟩ := k.inv_iff.1 h
  cases hgo with
  | stays => exact h
  | exchanges =>
    exact Block.concluded_inv p ((Block.inv_iff _).2 ⟨(exchange_side p k e).pollInv hpoll, exchange_readerInv p e hreader⟩)
      (exchange_ended hreader)

/-- Every move of the block keeps the register invariants. -/
theorem Moved.inv {s : State} {k : Block} {e : Env} (hmoved : Moved s k e) (h : s.blk.Inv) : k.Inv := by
  obtain ⟨hpoll, hreader⟩ := s.blk.inv_iff.1 h
  cases hmoved with
  | stays | arrives | linkSet => exact h
  | reads => exact readFrame_inv s.params s.env hpoll
  | polls => exact poll_inv s.params s.env hreader
  | readBegins => exact (Block.inv_iff _).2 ⟨(startRead_side _ _).pollInv hpoll, startRead_readerInv _ _⟩
  | pollBegins =>
    obtain h' | h' := pollGate_blk s.blk s.env <;> rw [h']
    · exact Block.beginPoll_defer_inv hreader
    · exact Block.beginPoll_openCycle_inv hreader
  | goesOn hgo => exact hgo.inv h

end Sys2Proof.Machine

namespace Sys2Proof.Proofs
open Sys2Proof.Machine

/-- Settles O54: a reset meets the invariants, and every other move of the block keeps the poll's half and the reader's half of them. -/
theorem stepKeepsTheRegisterInvariants : Obligations.StepKeepsTheRegisterInvariants := by
  intro s t h hstep
  obtain ⟨rest, -, rfl⟩ | ⟨-, -, hmoved⟩ := step_moved hstep
  · exact Block.atReset_inv _
  · exact hmoved.inv h

end Sys2Proof.Proofs

namespace Sys2Proof.Machine

/-! ### The latches and the log (R22 (d)) -/

/-- Each latch group is zero or holds the fields of an accepted frame of its kind in the log. -/
def Raw.GenuineIn (r : Raw) (log : List Exchange) : Prop :=
  ∀ kind v, r.get kind = some v → v = Fields.zero ∨ Delivered log kind v

/-- The candidate of a reader that has ended with `FRAME` is the newest reads. -/
def Block.FrameIsNewest (k : Block) (log : List Exchange) : Prop := k.status = .frame → readsOf k.buf 11 <+: log

/-- A longer log loses no delivered frame. -/
theorem Raw.GenuineIn.mono {r : Raw} {log log' : List Exchange} (h : r.GenuineIn log) (hlog : log <:+ log') : r.GenuineIn log' := by
  intro kind v hv
  refine (h kind v hv).imp_right ?_
  rintro ⟨b, hframe, hkind, hfields, hreads⟩
  exact ⟨b, hframe, hkind, hfields, hreads.trans hlog.isInfix⟩

/-- A store writes the group of its kind and no other. -/
theorem Raw.get_store (r : Raw) (kind kind' : Kind) (v v' : Fields) (h : (r.store kind v).get kind' = some v') :
    (kind' = kind ∧ v' = v) ∨ r.get kind' = some v' := by
  cases kind <;> cases kind' <;> simp_all [Raw.store, Raw.get]

/-- Applying an accepted frame that is the newest reads keeps the latches genuine (R110, R124). -/
theorem Block.applyRead_genuineIn {k : Block} {log : List Exchange} (h : k.raw.GenuineIn log) (hended : k.Ended)
    (hnew : k.FrameIsNewest log) : k.applyRead.raw.GenuineIn log := by
  rw [Block.applyRead_eq]
  split
  · next hs =>
    intro kind v hv
    rw [Block.apply_raw] at hv
    obtain ⟨rfl, rfl⟩ | hold := Raw.get_store _ _ _ _ _ hv
    · exact .inr ⟨k.buf, hended.isFrame hs, rfl, rfl, (hnew hs).isInfix⟩
    · exact h kind v hold
  · exact h

/-! ### What is logged -/

theorem Env.rxRead_log_suffix (e : Env) : e.log <:+ e.rxRead.2.log := by simp
theorem Env.linkUp_log_suffix (e : Env) : e.log <:+ e.linkUp.2.log := by simp

theorem Env.reads_log_suffix (n : Nat) (e : Env) : e.log <:+ (e.reads n).2.log := by
  rw [Env.reads_log]; exact List.suffix_append _ _

theorem readFrame_log_suffix (p : Params) (k : Block) (e : Env) : e.log <:+ (readFrame p k e).2.log := by
  obtain ⟨n, h⟩ := readFrame_env p k e
  rw [h]; exact e.linkUp_log_suffix.trans (Env.reads_log_suffix n _)

/-- One more byte of a candidate is one more read in front of those before it. -/
theorem readsOf_set_succ (b : FrameBuf) (n : Nat) (hn : n < 11) (x : Byte) :
    readsOf (b.set n x) (n + 1) = .rxRead (some x) :: readsOf b n := by
  have hlen : b.toList.length = 11 := by simp
  rw [readsOf, Vector.toList_set, take_succ_set x (by omega)]
  simp [readsOf]

/-! ### Deliveries of the reader -/

/-- The frame that `READ_FRAME` ends with is its newest reads (R73 to R76). -/
theorem readFrame_frameIsNewest {p : Params} {k : Block} {e : Env} (hm : (readFrame p k e).1.mode = .idle) :
    (readFrame p k e).1.FrameIsNewest (readFrame p k e).2.log := by
  obtain ⟨-, h⟩ | ⟨-, g, e', -, ⟨h, -⟩ | ⟨c, -, h, -⟩ | ⟨b, -, h, hreads⟩ | ⟨h, -⟩⟩ := readFrame_cases p k e <;> rw [h] at hm ⊢ <;> intro hs
  · cases hs
  · cases hs
  · cases hs
  · have hlog : e'.log = ((g.map some ++ b.toList.map some).map Exchange.rxRead).reverse ++ e.linkUp.2.log := by
      simpa only [hreads] using Env.reads_log (g.length + 11) e.linkUp.2
    have hall : b.toList.take 11 = b.toList := List.take_of_length_le (by simp)
    simp [hlog, readsOf, hall, Function.comp_def]
  · cases hm

/-- The bytes of a candidate under collection are the newest reads. -/
def Block.CandidateIsNewest (k : Block) (log : List Exchange) : Prop := k.mode = .collect → readsOf k.buf k.idx.val <+: log

theorem Block.CandidateIsNewest.of_not_collect {k : Block} {log : List Exchange} (h : k.mode ≠ .collect) : k.CandidateIsNewest log :=
  fun hm => absurd hm h

/-- A byte read and stored is the newest of the candidate's reads (R74). -/
theorem Block.CandidateIsNewest.store {k : Block} {log : List Exchange} (h : k.CandidateIsNewest log) (hm : k.mode = .collect) (b : Byte) :
    readsOf (k.store b).buf (k.idx.val + 1) <+: .rxRead (some b) :: log := by
  rw [Block.store_buf, readsOf_set_succ k.buf k.idx.val k.idx.isLt b, List.prefix_cons_inj]
  exact h hm

/-- An answer to a reader at work keeps the candidate under collection the newest reads, and so it is when its last byte makes it a
frame. -/
theorem answerStep_newest (p : Params) {k : Block} (e : Env) (hw : k.mode ≠ .idle) (h : k.CandidateIsNewest e.log) :
    (answerStep p e.rxRead.1 k).CandidateIsNewest e.rxRead.2.log ∧
    ((answerStep p e.rxRead.1 k).mode = .idle → (answerStep p e.rxRead.1 k).FrameIsNewest e.rxRead.2.log) := by
  rw [Env.rxRead_log]
  obtain ⟨hm, h'⟩ | ⟨-, hr, h'⟩ | ⟨hm, b, hr, h9, h'⟩ | ⟨hm, b, hr, h10, h'⟩ | ⟨hm, hs⟩ := answerStep_cases p e.rxRead.1 hw
  · rw [h']; exact ⟨.of_not_collect (by simp [hm]), by simp [hm]⟩
  · rw [h', hr]
    have hnew : readsOf k.markerFound.buf 1 = [.rxRead (some Config.marker)] := readsOf_set_succ k.buf 0 (by omega) Config.marker
    exact ⟨fun _ => ⟨e.log, congrArg (· ++ e.log) hnew⟩, by simp⟩
  · rw [h', hr]
    have hidx : (k.take b).idx.val = k.idx.val + 1 := nextIdx_val h9
    have hmode : (k.take b).mode = .collect := hm
    exact ⟨fun _ => hidx ▸ h.store hm b, by simp [hmode]⟩
  · rw [h', hr]
    have hnew := h.store hm b
    rw [h10] at hnew
    exact ⟨.of_not_collect (by simp), fun _ _ => hnew⟩
  · exact ⟨.of_not_collect (by simp [hm]), fun _ hf => absurd hf hs⟩

/-- The start step leaves no candidate and no frame to account for. -/
theorem startRead_newest (k : Block) (e : Env) (log : List Exchange) :
    (startRead k e).1.CandidateIsNewest log ∧ ((startRead k e).1.mode = .idle → (startRead k e).1.FrameIsNewest log) := by
  obtain ⟨hended, hs⟩ | ⟨hm, -⟩ := startRead_cases k e
  · exact ⟨.of_not_collect (by simp [hended.mode]), fun _ hf => by rw [hs] at hf; cases hf⟩
  · exact ⟨.of_not_collect (by simp [hm]), by simp [hm]⟩

theorem startRead_env (k : Block) (e : Env) : (startRead k e).2 = e.linkUp.2 := by
  unfold startRead; split <;> simp [*]

theorem exchange_newest (p : Params) {k : Block} {e : Env} (h : k.CandidateIsNewest e.log) :
    (exchange p (k, e)).1.CandidateIsNewest (exchange p (k, e)).2.log ∧
    ((exchange p (k, e)).1.mode = .idle → (exchange p (k, e)).1.FrameIsNewest (exchange p (k, e)).2.log) := by
  obtain ⟨-, h'⟩ | ⟨hw, h'⟩ := exchange_cases p k e <;> rw [h']
  · exact startRead_newest k e _
  · exact answerStep_newest p e hw h

theorem exchange_log_suffix (p : Params) (k : Block) (e : Env) : e.log <:+ (exchange p (k, e)).2.log := by
  obtain ⟨-, h'⟩ | ⟨-, h'⟩ := exchange_cases p k e <;> rw [h']
  · rw [startRead_env]; exact e.linkUp_log_suffix
  · exact e.rxRead_log_suffix

/-! ### Genuine blocks -/

/-- What R22 (d) says of the block, beside the register invariants. -/
structure Block.GenuineIn (k : Block) (log : List Exchange) : Prop where
  latches : k.raw.GenuineIn log
  candidate : k.CandidateIsNewest log

theorem State.genuine_iff (s : State) : s.Genuine ↔ s.blk.Inv ∧ s.blk.GenuineIn s.env.log :=
  ⟨fun ⟨hinv, hlatch, hcollect⟩ => ⟨hinv, hlatch, hcollect⟩, fun ⟨hinv, hlatch, hcollect⟩ => ⟨hinv, hlatch, hcollect⟩⟩

/-- A block that is not collecting and has the latches of before stays genuine however the log grows. -/
theorem Block.GenuineIn.of_raw {k k' : Block} {log log' : List Exchange} (h : k.raw.GenuineIn log) (hraw : k'.raw = k.raw)
    (hlog : log <:+ log') (hm : k'.mode ≠ .collect) : k'.GenuineIn log' :=
  ⟨hraw ▸ h.mono hlog, .of_not_collect hm⟩

@[simp] theorem Block.counted_raw (p : Params) (k : Block) : (k.counted p).raw = k.raw := by unfold Block.counted; split <;> rfl
@[simp] theorem Block.counted_mode (p : Params) (k : Block) : (k.counted p).mode = k.mode := by unfold Block.counted; split <;> rfl

/-- What follows an exchange keeps a genuine block so, where a reader at rest has ended, and with a frame from the stream. -/
theorem Block.concluded_genuineIn (p : Params) {k : Block} {log : List Exchange} (h : k.GenuineIn log) (hended : k.mode = .idle → k.Ended)
    (hnew : k.mode = .idle → k.FrameIsNewest log) : (k.concluded p).GenuineIn log := by
  obtain h' | ⟨hi, -, h'⟩ := Block.concluded_cases p hended <;> rw [h']
  · exact h
  · exact .of_raw (Block.applyRead_genuineIn h.latches (hended hi) (hnew hi)) (by simp) (List.suffix_refl _) (by simp [hi])

theorem GoesOn.genuineIn {p : Params} {k k' : Block} {e e' : Env} (hgo : GoesOn p k e k' e') (hinv : k.Inv) (h : k.GenuineIn e.log) :
    k'.GenuineIn e'.log := by
  cases hgo with
  | stays => exact h
  | exchanges =>
    obtain ⟨-, hreader⟩ := k.inv_iff.1 hinv
    obtain ⟨hcandidate, hframe⟩ := exchange_newest p h.candidate
    have hraw : (exchange p (k, e)).1.raw = k.raw := (exchange_side p k e).1
    exact Block.concluded_genuineIn p ⟨hraw ▸ h.latches.mono (exchange_log_suffix p k e), hcandidate⟩ (exchange_ended hreader) hframe

/-! ### The issued operations -/

theorem readFrame_mode_ne_collect (p : Params) (k : Block) (e : Env) : (readFrame p k e).1.mode ≠ .collect := by
  rcases (readFrame_side p k e).2 with h | h <;> simp [h]

theorem readFrame_genuineIn (p : Params) {k : Block} {e : Env} (h : k.raw.GenuineIn e.log) :
    (readFrame p k e).1.GenuineIn (readFrame p k e).2.log :=
  .of_raw h (readFrame_side p k e).1.1 (readFrame_log_suffix p k e) (readFrame_mode_ne_collect p k e)

/-- An iteration applies only a frame that its own reads delivered (R124). -/
theorem afterRead_genuineIn (p : Params) {k : Block} {e : Env} (h : k.raw.GenuineIn e.log) (hm : (readFrame p k e).1.mode = .idle) :
    (afterRead p k e).GenuineIn (readFrame p k e).2.log := by
  have happly := Block.applyRead_genuineIn (readFrame_genuineIn p h).latches (readFrame_ended hm) (readFrame_frameIsNewest hm)
  rw [afterRead, Block.countRead_applyRead]
  exact .of_raw happly rfl (List.suffix_refl _) (by simp [hm])

theorem pollLoop_genuineIn (p : Params) (n : Nat) {k : Block} {e : Env} (h : k.GenuineIn e.log) :
    (pollLoop p n k e).1.GenuineIn (pollLoop p n k e).2.log := by
  refine pollLoop_induct p (fun k e => k.GenuineIn e.log) (fun r => r.1.GenuineIn r.2.log) ?_ ?_ ?_ n k e h
  · intro k e h _
    exact readFrame_genuineIn p h.latches
  · intro k e h
    exact ⟨h.latches, h.candidate⟩
  · intro k e h hm
    exact afterRead_genuineIn p h.latches hm

/-- The two samples of a gate are logged (R121, R122). -/
theorem Env.gate_log_suffix (e : Env) : e.log <:+ e.linkUp.2.rxCount.2.log :=
  e.linkUp_log_suffix.trans (List.suffix_cons _ _)

theorem pollGate_log_suffix (k : Block) (e : Env) : e.log <:+ (pollGate k e).2.2.log := by
  have hlink := e.linkUp_log_suffix
  have hgate := e.gate_log_suffix
  unfold pollGate
  split
  · next h => rw [h] at hlink; exact hlink
  · next h => rw [h] at hgate; split <;> exact hgate

theorem poll_genuineIn (p : Params) {k : Block} {e : Env} (h : k.raw.GenuineIn e.log) (hm : k.mode = .idle) :
    (poll p k e).1.GenuineIn (poll p k e).2.log := by
  have hm : k.mode ≠ .collect := by simp [hm]
  obtain ⟨-, h'⟩ | ⟨-, -, h'⟩ | ⟨-, -, h'⟩ := poll_cases p k e <;> rw [h']
  · exact .of_raw h rfl e.linkUp_log_suffix hm
  · exact .of_raw h rfl e.gate_log_suffix hm
  · exact pollLoop_genuineIn p 4 (.of_raw h rfl e.gate_log_suffix hm)

/-- Every move of the block keeps the latches genuine. -/
theorem Moved.genuineIn {s : State} {k : Block} {e : Env} (hmoved : Moved s k e) (hinv : s.blk.Inv) (h : s.blk.GenuineIn s.env.log) :
    k.GenuineIn e.log := by
  cases hmoved with
  | stays | arrives | linkSet => exact h
  | reads => exact readFrame_genuineIn s.params h.latches
  | polls _ hb => exact poll_genuineIn s.params h.latches (Block.busy_eq_false.1 hb).1
  | readBegins =>
    refine ⟨?_, (startRead_newest _ _ _).1⟩
    rw [(startRead_side _ _).1, startRead_env]
    exact h.latches.mono s.env.linkUp_log_suffix
  | pollBegins hb =>
    have hm : s.blk.mode ≠ .collect := by simp [(Block.busy_eq_false.1 hb).1]
    obtain h' | h' := pollGate_blk s.blk s.env <;> rw [h']
    · exact .of_raw h.latches rfl (pollGate_log_suffix _ _) hm
    · exact .of_raw h.latches rfl (pollGate_log_suffix _ _) hm
  | goesOn hgo => exact hgo.genuineIn hinv h

/-- No latch holds anything but zeros after a reset, whatever was logged (R20). -/
theorem Block.atReset_genuineIn (b : FrameBuf) (log : List Exchange) : (Block.atReset b).GenuineIn log := by
  refine ⟨fun kind v hv => .inl ?_, by simp [Block.CandidateIsNewest, Block.atReset]⟩
  cases kind <;> simp_all [Raw.get, Block.atReset]

end Sys2Proof.Machine

namespace Sys2Proof.Proofs
open Sys2Proof.Machine

/-- Settles O56: a reset clears the latches, and every other move of the block writes in them only a frame whose eleven bytes are the
newest reads. -/
theorem stepKeepsLatchesGenuine : Obligations.StepKeepsLatchesGenuine := by
  intro s t h hstep
  obtain ⟨hinv, hgenuine⟩ := s.genuine_iff.1 h
  refine t.genuine_iff.2 ⟨stepKeepsTheRegisterInvariants s t hinv hstep, ?_⟩
  obtain ⟨rest, -, rfl⟩ | ⟨-, -, hmoved⟩ := step_moved hstep
  · exact Block.atReset_genuineIn _ _
  · exact hmoved.genuineIn hinv hgenuine

end Sys2Proof.Proofs

namespace Sys2Proof.Machine

/-! ### The decoder's outputs (R18, R178) -/

theorem Block.outputs_of_frame {k : Block} (hs : k.status = .frame) (hout : k.outValid = true) (hb : k.busy = false) :
    k.outputs = some ⟨frameWord k.buf, kindCode (classify k.buf[1]), (fieldsOf k.buf).x, (fieldsOf k.buf).y, (fieldsOf k.buf).z,
      fieldSigned (classify k.buf[1])⟩ := by
  simp [Block.outputs, Block.frameValid, decodeFields, hs, hout, hb]

theorem Block.outputs_of_not_frame {k : Block} (h : k.status ≠ .frame) : k.outputs = none := by
  simp [Block.outputs, Block.frameValid, h]

theorem Block.outputs_of_begun {k : Block} (h : k.outValid = false) : k.outputs = none := by
  simp [Block.outputs, h]

theorem Block.outputs_of_busy {k : Block} (h : k.busy = true) : k.outputs = none := by
  simp [Block.outputs, h]

theorem Block.busy_of_mode {k : Block} (h : k.mode ≠ .idle) : k.busy = true := by simp [Block.busy, h]

theorem Block.busy_of_polling {k : Block} (h : k.polling = true) : k.busy = true := by simp [Block.busy, h]

/-- An issued `READ_FRAME` has a next state only from an idle block, and that state has the block of the operation (R70, R170). -/
theorem exec_readFrame_next {s t : State} (h : exec .readFrame s = .next t) :
    s.blk.busy = false ∧ t.blk = (readFrame s.params s.blk s.env).1 := by
  simp only [exec, execReadFrame] at h
  obtain ⟨hb, rfl⟩ := whenIdle_next h
  exact ⟨hb, by simp⟩

/-- So has an issued `POLL` (R120, R170). -/
theorem exec_poll_next {s t : State} (h : exec .poll s = .next t) :
    s.blk.busy = false ∧ t.blk = (poll s.params s.blk s.env).1 := by
  simp only [exec, execPoll] at h
  obtain ⟨hb, rfl⟩ := whenIdle_next h
  exact ⟨hb, by simp⟩

/-- The block is at rest and its outputs are those of the last reader, where no cycle runs. -/
def Block.RestsReadable (k : Block) : Prop := k.polling = false → k.mode = .idle ∧ k.outValid = true

theorem Block.restsReadable_of_polling {k : Block} (h : k.polling = true) : k.RestsReadable := by
  simp [Block.RestsReadable, h]

theorem readFrame_polling (p : Params) (k : Block) (e : Env) : (readFrame p k e).1.polling = k.polling := by
  obtain ⟨-, -, -, -, h⟩ := (readFrame_side p k e).1
  exact h

/-- An iteration leaves its cycle running, the reader at rest and its outputs readable. -/
theorem afterRead_rests (p : Params) {k : Block} {e : Env} (hm : (readFrame p k e).1.mode = .idle) :
    (afterRead p k e).mode = .idle ∧ (afterRead p k e).outValid = true := by
  simp [afterRead, hm, (readFrame_ended hm).outValid]

theorem pollLoop_restsReadable (p : Params) (n : Nat) {k : Block} (e : Env) (hp : k.polling = true) (hm : k.mode = .idle)
    (hout : k.outValid = true) : (pollLoop p n k e).1.RestsReadable := by
  refine pollLoop_induct p (fun k _ => k.polling = true ∧ k.mode = .idle ∧ k.outValid = true) (fun r => r.1.RestsReadable)
    ?_ ?_ ?_ n k e ⟨hp, hm, hout⟩
  · rintro k e ⟨hp, -⟩ -
    exact Block.restsReadable_of_polling ((readFrame_polling p k e).trans hp)
  · rintro k e ⟨-, h⟩ -
    exact h
  · rintro k e ⟨hp, -⟩ hm
    exact ⟨(afterRead_fields p k e).2.2.1.trans hp, afterRead_rests p hm⟩

/-- A cycle makes at least one iteration, so that its end shows the outputs of its last reader, whatever was to be read before (R120). -/
theorem pollLoop_opened_restsReadable (p : Params) (n : Nat) {k : Block} (e : Env) (hp : k.polling = true) (hn : k.pcnt.val < 4) :
    (pollLoop p (n + 1) k e).1.RestsReadable := by
  have hpolling : (afterRead p k e).polling = true := (afterRead_fields p k e).2.2.1.trans hp
  obtain ⟨hm, h'⟩ | ⟨hm, ⟨-, h'⟩ | ⟨-, h'⟩⟩ := pollLoop_succ p n k e hn <;> rw [h']
  · exact Block.restsReadable_of_polling ((readFrame_polling p k e).trans hp)
  · exact fun _ => afterRead_rests p hm
  · obtain ⟨hidle, hout⟩ := afterRead_rests p hm
    exact pollLoop_restsReadable p n _ hpolling hidle hout

/-- A deferred `POLL` ends the outputs of the last result (R178). -/
theorem poll_deferred_outputs (p : Params) {k : Block} {e : Env} (h : e.linkUp.1 = false ∨ e.fifo.length ≤ 43) :
    (poll p k e).1.outputs = none := by
  obtain ⟨-, h'⟩ | ⟨-, -, h'⟩ | ⟨hup, hlen, -⟩ := poll_cases p k e
  · rw [h']; exact Block.outputs_of_begun rfl
  · rw [h']; exact Block.outputs_of_begun rfl
  · rcases h with h | h
    · rw [hup] at h; cases h
    · omega

theorem poll_restsReadable (p : Params) {k : Block} {e : Env} (hup : e.linkUp.1 = true) (hlen : 44 ≤ e.fifo.length) :
    (poll p k e).1.RestsReadable := by
  obtain ⟨hdown, -⟩ | ⟨-, hlt, -⟩ | ⟨-, -, h'⟩ := poll_cases p k e
  · rw [hup] at hdown; cases hdown
  · omega
  · rw [h']; exact pollLoop_opened_restsReadable p 3 _ rfl (by simp)

/-- The start step shows no output: its reader has ended without data, or hunts. -/
theorem startRead_outputs (k : Block) (e : Env) : (startRead k e).1.outputs = none := by
  obtain ⟨-, hs⟩ | ⟨hm, -⟩ := startRead_cases k e
  · exact Block.outputs_of_not_frame (by simp [hs])
  · exact Block.outputs_of_busy (Block.busy_of_mode (by simp [hm]))

theorem pollGate_outputs (k : Block) (e : Env) : (pollGate k e).2.1.outputs = none := by
  obtain h | h := pollGate_blk k e <;> rw [h] <;> exact Block.outputs_of_begun rfl

/-- A strobe of `READ_FRAME` or `POLL` that is not refused makes the start step or the gate (R80, R120). -/
theorem step_strobe_blk {s t : State} {c : OpCode} {rest : List Input} (hin : s.caller.inputs = .strobe c :: rest) (hc : c = 1 ∨ c = 2)
    (h : step s = .next t) : t.blk = (startRead s.blk s.env).1 ∨ t.blk = (pollGate s.blk s.env).2.1 := by
  simp only [step, hin] at h
  rcases hc with rfl | rfl
  · obtain ⟨-, rfl⟩ := whenIdle_next (show strobeReadFrame (s.setInputs rest) = .next t from h)
    exact .inl (by simp)
  · obtain ⟨-, rfl⟩ := whenIdle_next (show strobePoll (s.setInputs rest) = .next t from h)
    exact .inr (by simp)

/-! ### Who writes the latches (R21) -/

/-- Outside a cycle a block that goes on by itself writes no latch (R21, R110). -/
theorem GoesOn.raw_of_not_polling {p : Params} {k k' : Block} {e e' : Env} (hgo : GoesOn p k e k' e') (hp : k.polling = false) :
    k'.raw = k.raw := by
  cases hgo with
  | stays => rfl
  | exchanges =>
    obtain ⟨hraw, -, -, -, hpolling⟩ := exchange_side p k e
    obtain ⟨-, -, -, hside⟩ := (exchange p (k, e)).1.executed_side
    rw [hp] at hpolling
    unfold Block.concluded
    split
    · rw [if_neg (by simp [hpolling])]
      exact (hside hpolling).1.trans hraw
    · exact hraw

/-- A move of the block that is no reset keeps the latches, or belongs to a running cycle or an issued `POLL`. -/
theorem Moved.raw_cases {s : State} {k : Block} {e : Env} (hmoved : Moved s k e) :
    k.raw = s.blk.raw ∨ s.blk.polling = true ∨ ∃ rest, s.caller.inputs = .issue 2 :: rest := by
  cases hmoved with
  | stays | arrives | linkSet => exact .inl rfl
  | reads => exact .inl (readFrame_side _ _ _).1.1
  | polls rest _ hin => exact .inr (.inr ⟨rest, hin⟩)
  | readBegins => exact .inl (startRead_side _ _).1
  | pollBegins => left; obtain h | h := pollGate_blk s.blk s.env <;> rw [h] <;> rfl
  | goesOn hgo =>
    cases hp : s.blk.polling
    · exact .inl (hgo.raw_of_not_polling hp)
    · exact .inr (.inl rfl)

/-! ### Frames outside a cycle (R110) -/

/-- An accepted frame's last byte is its checksum (R57). -/
theorem checksum_frameBytes_of_isFrame {h : Byte} {p : Payload} (hf : isFrame (frameBytes h p) = true) :
    checksum (frameBytes h p) = p.csum :=
  ((isFrame_iff _).1 hf).2.symm

/-- Outside a cycle an accepted frame fills the reader's registers, and nothing is applied. -/
theorem runFrame_outside_cycle {h : Byte} (kind : Kind) {p : Payload} {k : Block} (hp : k.polling = false)
    (hf : isFrame (frameBytes h p) = true) :
    runFrame h kind p k =
      { k with buf := frameBytes h p, sum := p.csum, idx := 0, mode := .idle, status := .frame, outValid := true } := by
  have hsum := checksum_frameBytes_of_isFrame hf
  simp [runFrame, hp, Block.takeCandidate, Block.finish, hsum, verdict]

/-- Every frame row executed outside a cycle does so, and nothing else of the machine changes. -/
theorem exec_frame_outside_cycle {i : Instr} {h : Byte} {kind : Kind} {p : Payload} {s : State} (hi : frameRow i = some (h, kind, p))
    (hp : s.blk.polling = false) (hf : isFrame (frameBytes h p) = true) :
    exec i s = .next { s with
      blk := { s.blk with buf := frameBytes h p, sum := p.csum, idx := 0, mode := .idle, status := .frame, outValid := true } } := by
  rw [exec_of_frameRow hi, runFrame_outside_cycle kind hp hf]; rfl

end Sys2Proof.Machine

namespace Sys2Proof.Proofs
open Sys2Proof.Machine

/-- Settles O25: a `READ_FRAME` leaves the poll's registers and the latches, and ends where the source falls silent or a limit is set. -/
theorem readFrameLeavesLatchesAndPollRegisters : Obligations.ReadFrameLeavesLatchesAndPollRegisters := by
  intro s hb
  obtain ⟨⟨hraw, hresult, hpcnt, happlied, hpolling⟩, -⟩ := readFrame_side s.params s.blk s.env
  refine ⟨_, exec_readFrame hb, ?_⟩
  simp only [closeRead_blk, closeRead_params, closeRead_draws, closeRead_inputs, State.put_blk]
  exact ⟨hraw, hresult, hpcnt, happlied, hpolling.trans (Block.busy_eq_false.1 hb).2, rfl, rfl, rfl, readFrame_ends s.params s.blk s.env⟩

/-- An issued `READ_FRAME` shows the outputs of its frame where it has ended with one, and else none (R18, R101). -/
theorem outputs_after_readFrame {s t : State} (h : exec .readFrame s = .next t) :
    (t.blk.mode = .idle → t.blk.status = .frame → t.blk.outputs = some ⟨frameWord t.blk.buf, kindCode (classify t.blk.buf[1]),
      (fieldsOf t.blk.buf).x, (fieldsOf t.blk.buf).y, (fieldsOf t.blk.buf).z, fieldSigned (classify t.blk.buf[1])⟩) ∧
    (t.blk.mode ≠ .idle ∨ t.blk.status ≠ .frame → t.blk.outputs = none) := by
  obtain ⟨hb, hblk⟩ := exec_readFrame_next h
  rw [hblk]
  refine ⟨fun hm hs => ?_, ?_⟩
  · have hpolling := (readFrame_polling s.params s.blk s.env).trans (Block.busy_eq_false.1 hb).2
    exact Block.outputs_of_frame hs (readFrame_ended hm).outValid (Block.busy_eq_false.2 ⟨hm, hpolling⟩)
  · rintro (hm | hs)
    · exact Block.outputs_of_busy (Block.busy_of_mode hm)
    · exact Block.outputs_of_not_frame hs

/-- Settles O26: outputs need an idle block, `STATUS` FRAME and a reader that has ended since the last start; an ended cycle has all three
exactly where its last reader met a frame, and a deferred or a begun operation lacks one. -/
theorem outputsAfterReadFrame : Obligations.OutputsAfterReadFrame := by
  refine ⟨fun s t h => outputs_after_readFrame h, fun s t h => ?_, fun s t c rest hin hc h => ?_, fun k => Block.outputs_of_busy⟩
  · obtain ⟨-, hblk⟩ := exec_poll_next h
    rw [hblk]
    refine ⟨poll_deferred_outputs s.params, fun hup hlen hp hs => ?_, ?_⟩
    · obtain ⟨hm, hout⟩ := poll_restsReadable s.params hup hlen hp
      exact Block.outputs_of_frame hs hout (Block.busy_eq_false.2 ⟨hm, hp⟩)
    · rintro (hp | hs)
      · exact Block.outputs_of_busy (Block.busy_of_polling hp)
      · exact Block.outputs_of_not_frame hs
  · obtain h' | h' := step_strobe_blk hin hc h <;> rw [h']
    · exact startRead_outputs _ _
    · exact pollGate_outputs _ _

/-- Settles O57: of the moves of the block that are no reset, only an issued `POLL` and a running cycle reach an apply. -/
theorem onlyPollAndResetWriteLatches : Obligations.OnlyPollAndResetWriteLatches := by
  intro s t hstep hraw
  obtain ⟨rest, hin, -⟩ | ⟨-, -, hmoved⟩ := step_moved hstep
  · exact .inr (.inr ⟨rest, hin⟩)
  · obtain hkept | hp | hissue := hmoved.raw_cases
    · exact absurd hkept hraw
    · exact .inl hp
    · exact .inr (.inl hissue)

/-- Settles O27, phase by phase, status by status and kind by kind. -/
theorem codesOfPhaseStatusAndSign : Obligations.CodesOfPhaseStatusAndSign := by
  refine ⟨⟨rfl, rfl, rfl, ?_⟩, ⟨rfl, rfl, rfl, rfl⟩, ?_, ?_⟩
  · intro m; cases m <;> decide
  · intro k
    unfold Block.frameValid
    cases k.status <;> decide
  · intro kind; cases kind <;> decide

/-- Settles O42: each of the three headers is a frame row. -/
theorem frameOutsideAPollIsNotApplied : Obligations.FrameOutsideAPollIsNotApplied :=
  fun _ _ hp => ⟨exec_frame_outside_cycle rfl hp, exec_frame_outside_cycle rfl hp, exec_frame_outside_cycle rfl hp⟩

/-- Settles O52: both sides of each equation evaluate, `State.reset` being a closed term and idle, so that the accessors answer. -/
theorem resetStateHasTheTableValues : Obligations.ResetStateHasTheTableValues :=
  ⟨rfl, rfl, ⟨_, rfl, rfl⟩, ⟨_, rfl, rfl⟩, ⟨_, rfl, rfl⟩⟩

/-- Settles O53: the invariants hold after any reset. -/
theorem resetMeetsTheRegisterInvariants : Obligations.ResetMeetsTheRegisterInvariants := Block.atReset_inv _

/-- Settles O55: after a reset every latch is zero. -/
theorem resetLatchesAreGenuine : Obligations.ResetLatchesAreGenuine :=
  (State.genuine_iff _).2 ⟨Block.atReset_inv _, Block.atReset_genuineIn _ _⟩

end Sys2Proof.Proofs

namespace Sys2Proof.Machine

/-! ### Strobes that complete at once (R60) -/

/-- A strobe of any operation but `READ_FRAME` and `POLL` is that operation issued. -/
theorem strobe_of_other {c : OpCode} {s : State} (hread : decodeOp c ≠ .readFrame) (hpoll : decodeOp c ≠ .poll) :
    strobe c s = exec (decodeOp c) s := by
  unfold strobe
  split
  · next h => exact absurd h hread
  · next h => exact absurd h hpoll
  · rfl

/-! ### Successive reads on an open and on a closed connection (R33, R34, R155) -/

/-- A connection that stays open is open at the coming exchange. -/
theorem Env.StaysOpen.tick_link {e : Env} (h : e.StaysOpen) : e.tick.link = true := by
  obtain ⟨hlinks, hlink⟩ := h
  obtain ⟨up, rest, hl, h'⟩ | ⟨hl, h'⟩ := e.tick_cases <;> rw [h']
  · exact hlinks up (by simp [hl])
  · exact hlink hl

/-- A read uses up one of the coming changes, and the connection still stays open. -/
theorem Env.StaysOpen.rxRead {e : Env} (h : e.StaysOpen) : e.rxRead.2.StaysOpen := by
  refine ⟨fun up hup => ?_, fun _ => ?_⟩
  · rw [Env.rxRead_links] at hup
    exact h.1 up (List.mem_of_mem_tail hup)
  · rw [Env.rxRead_link]; exact h.tick_link

/-- While the connection stays open, as many attempts as there are bytes held, or fewer, take the oldest of them and nothing else. -/
theorem Env.reads_of_open {e : Env} {n : Nat} (ho : e.StaysOpen) (hn : n ≤ e.fifo.length) :
    (e.reads n).1 = (e.fifo.take n).map some ∧ (e.reads n).2.fifo = e.fifo.drop n ∧ (e.reads n).2.waits = e.waits := by
  induction n generalizing e with
  | zero => simp
  | succ n ih =>
    obtain ⟨b, rest, hf⟩ := List.exists_cons_of_length_pos (l := e.fifo) (by omega)
    have hread := Env.rxRead_of_fifo ho.tick_link hf
    have hopen := ho.rxRead
    rw [hread] at hopen
    obtain ⟨hanswers, hfifo, hwaits⟩ := ih hopen (by rw [hf] at hn; simpa using hn)
    rw [Env.reads_succ, hread, hf]
    exact ⟨congrArg (some b :: ·) hanswers, hfifo, hwaits.trans e.tick_waits⟩

/-- A read attempt on a closed connection gets no data and removes nothing. -/
theorem Env.rxRead_of_closed {e : Env} (hc : e.tick.link = false) :
    e.rxRead = (none, { e.tick with log := .rxRead none :: e.log }) := by
  obtain ⟨-, h⟩ | ⟨ho, -⟩ | ⟨ho, -⟩ | ⟨ho, -⟩ := e.rxRead_cases
  · exact h
  all_goals rw [hc] at ho; cases ho

/-- On a connection that has gone away for good, so does every attempt. -/
theorem Env.reads_of_closed {e : Env} (n : Nat) (hc : e.link = false) (hl : e.links = []) :
    (e.reads n).1 = List.replicate n none ∧ (e.reads n).2.fifo = e.fifo ∧ (e.reads n).2.waits = e.waits := by
  induction n generalizing e with
  | zero => simp
  | succ n ih =>
    have htick := Env.tick_of_steady hl
    have hread := Env.rxRead_of_closed (e := e) (by rw [htick, hc])
    rw [htick] at hread
    rw [Env.reads_succ, hread]
    obtain ⟨hanswers, hfifo, hwaits⟩ := ih (e := { e with log := .rxRead none :: e.log }) hc hl
    exact ⟨congrArg (none :: ·) hanswers, hfifo, hwaits⟩

end Sys2Proof.Machine

namespace Sys2Proof.Proofs
open Sys2Proof.Machine

/-- Settles O60: by induction on the attempts, each of which takes the oldest byte of an open connection and none of a closed one. -/
theorem bufferedBytesAreReadable : Obligations.BufferedBytesAreReadable := by
  refine ⟨fun e n ho hn => ?_, fun e n hc hl => Env.reads_of_closed n hc hl⟩
  obtain ⟨hanswers, hfifo, hwaits⟩ := Env.reads_of_open ho hn
  exact ⟨hanswers, by simp [hfifo], hwaits⟩

/-- Settles O45: an operation code decodes to its own operation, and only `READ_FRAME` and `POLL` are begun by a strobe. -/
theorem stepRunsTheIssuedOperation : Obligations.StepRunsTheIssuedOperation := by
  intro s c rest i hdecode
  obtain rfl : decodeOp c = i := by simpa [decode_op] using hdecode
  refine ⟨fun hin => ?_, fun hin hread hpoll => ?_⟩
  · simp only [step, hin, State.setInputs]
  · simp only [step, hin, strobe_of_other hread hpoll, State.setInputs]

end Sys2Proof.Proofs

namespace Sys2Proof.Machine

/-! ### Exchanges that only read (R30, R36, R40) -/

theorem bytesRead_append (new old : List Exchange) : bytesRead (new ++ old) = bytesRead old ++ bytesRead new := by
  simp [bytesRead]

theorem ReadOnly.refl (e : Env) : ReadOnly e e :=
  ⟨[], [], [], 0, [], by simp [bytesRead]⟩

/-- One run of exchanges behind another: the second takes bytes only if the first has taken no more than bytes, and answers only if the
first has not come to the tail. -/
theorem ReadOnly.trans {e e' e'' : Env} (h : ReadOnly e e') (h' : ReadOnly e' e'') : ReadOnly e e'' := by
  obtain ⟨new, held, waited, m, changes, hlog, hfifo, hwaits, hlinks, hlink, htail, hbytes, hempty, hspent⟩ := h
  obtain ⟨new', held', waited', m', changes', hlog', hfifo', hwaits', hlinks', hlink', htail', hbytes', hempty', hspent'⟩ := h'
  have hheld : e'.fifo = [] → held' = [] ∧ e''.fifo = [] := fun h => by simpa [h] using hfifo'
  have hwaited : e'.waits = [] → waited' = [] ∧ e''.waits = [] := fun h => by simpa [h] using hwaits'
  refine ⟨new' ++ new, held ++ held', waited ++ waited', m + m', changes ++ changes', ?_, ?_, ?_, ?_, ?_, ?_, ?_, ?_, ?_⟩
  · rw [hlog', hlog, List.append_assoc]
  · rw [hfifo, hfifo', List.append_assoc]
  · rw [hwaits, hwaits', List.append_assoc]
  · rw [hlinks, hlinks', List.append_assoc]
  · rw [hlink', hlink]; simp [List.getLastD_eq_getLast?, List.getLast?_append]
  · rw [htail', htail]
  · rw [bytesRead_append, hbytes, hbytes', htail, List.reduceOption_append, List.replicate_add, List.reduceOption_append]
    by_cases hm : m = 0
    · by_cases hw : waited = []
      · simp [hm, hw]
      · simp [hm, (hheld (hempty hw)).1]
    · obtain ⟨hf, hw⟩ := hspent hm
      simp [(hheld hf).1, (hwaited hw).1]
  · intro hw
    by_cases h1 : waited = []
    · exact hempty' (by simpa [h1] using hw)
    · exact (hheld (hempty h1)).2
  · intro hm
    by_cases h1 : m = 0
    · exact hspent' (by omega)
    · obtain ⟨hf, hw⟩ := hspent h1
      exact ⟨(hheld hf).2, (hwaited hw).2⟩

/-- The passing of an exchange uses up at most one coming change. -/
theorem Env.tick_readOnly (e : Env) : ReadOnly e e.tick := by
  obtain ⟨up, rest, hl, h⟩ | ⟨-, h⟩ := e.tick_cases <;> rw [h]
  · exact ⟨[], [], [], 0, [up], by simp [bytesRead, hl]⟩
  · exact .refl e

/-- Logging an exchange that returned no byte takes nothing. -/
theorem Env.logged_readOnly (e : Env) {x : Exchange} (h : bytesRead [x] = []) : ReadOnly e { e with log := x :: e.log } :=
  ⟨[x], [], [], 0, [], by simp [h]⟩

/-- So does an exchange that finds the connection and returns no byte. -/
theorem Env.tick_logged_readOnly (e : Env) {x : Exchange} (h : bytesRead [x] = []) : ReadOnly e { e.tick with log := x :: e.log } := by
  simpa using e.tick_readOnly.trans (e.tick.logged_readOnly h)

/-- A read attempt on an open connection takes the oldest byte, else the oldest answer, else the tail's. -/
theorem Env.receive_readOnly (e : Env) : ReadOnly e e.receive.2 := by
  unfold Env.receive
  split
  · next b rest hf => exact ⟨[.rxRead (some b)], [b], [], 0, [], by simp [bytesRead, hf]⟩
  · next hf =>
    split
    · next a rest hw => exact ⟨[.rxRead a], [], [a], 0, [], by cases a <;> simp [bytesRead, hf, hw, List.reduceOption]⟩
    · next hw =>
      exact ⟨[.rxRead e.tail], [], [], 1, [], by cases e.tail <;> simp [bytesRead, hf, hw, List.reduceOption]⟩

theorem Env.rxRead_readOnly (e : Env) : ReadOnly e e.rxRead.2 := by
  unfold Env.rxRead
  split
  · exact e.tick_readOnly.trans e.tick.receive_readOnly
  · exact e.tick_logged_readOnly rfl

theorem Env.linkUp_readOnly (e : Env) : ReadOnly e e.linkUp.2 := e.tick_logged_readOnly rfl

theorem Env.rxCount_readOnly (e : Env) : ReadOnly e e.rxCount.2 := e.logged_readOnly rfl

theorem Env.reads_readOnly (n : Nat) (e : Env) : ReadOnly e (e.reads n).2 := by
  induction n generalizing e with
  | zero => exact .refl e
  | succ n ih => exact e.rxRead_readOnly.trans (ih e.rxRead.2)

theorem readFrame_readOnly (p : Params) (k : Block) (e : Env) : ReadOnly e (readFrame p k e).2 := by
  obtain ⟨n, h⟩ := readFrame_env p k e
  rw [h]
  exact e.linkUp_readOnly.trans (Env.reads_readOnly n _)

theorem pollLoop_readOnly (p : Params) (n : Nat) (k : Block) (e : Env) : ReadOnly e (pollLoop p n k e).2 := by
  refine pollLoop_induct p (fun _ e' => ReadOnly e e') (fun r => ReadOnly e r.2) ?_ ?_ ?_ n k e (.refl e)
  · intro k e' h _
    exact h.trans (readFrame_readOnly p k e')
  · intro k e' h
    exact h
  · intro k e' h _
    exact h.trans (readFrame_readOnly p k e')

theorem poll_readOnly (p : Params) (k : Block) (e : Env) : ReadOnly e (poll p k e).2 := by
  have hgate : ReadOnly e e.linkUp.2.rxCount.2 := e.linkUp_readOnly.trans e.linkUp.2.rxCount_readOnly
  obtain ⟨-, h⟩ | ⟨-, -, h⟩ | ⟨-, -, h⟩ := poll_cases p k e <;> rw [h]
  · exact e.linkUp_readOnly
  · exact hgate
  · exact hgate.trans (pollLoop_readOnly p 4 _ _)

/-- The gate samples the link, and the count only where the link is up (R121, R122). -/
theorem pollGate_env (k : Block) (e : Env) : (pollGate k e).2.2 = if e.tick.link then e.linkUp.2.rxCount.2 else e.linkUp.2 := by
  unfold pollGate Env.linkUp
  cases e.tick.link
  · rfl
  · dsimp only; split <;> rfl

theorem pollGate_readOnly (k : Block) (e : Env) : ReadOnly e (pollGate k e).2.2 := by
  rw [pollGate_env]
  split
  · exact e.linkUp_readOnly.trans e.linkUp.2.rxCount_readOnly
  · exact e.linkUp_readOnly

theorem exchange_readOnly (p : Params) (k : Block) (e : Env) : ReadOnly e (exchange p (k, e)).2 := by
  obtain ⟨-, h⟩ | ⟨-, h⟩ := exchange_cases p k e <;> rw [h]
  · rw [startRead_env]; exact e.linkUp_readOnly
  · exact e.rxRead_readOnly

/-- Every move of the block only reads; the two moves left out are the environment's own. -/
theorem Moved.readOnly {s : State} {k : Block} {e : Env} (hmoved : Moved s k e) (harrive : ∀ b rest, s.caller.inputs ≠ .arrive b :: rest)
    (hlink : ∀ u rest, s.caller.inputs ≠ .setLink u :: rest) : ReadOnly s.env e := by
  cases hmoved with
  | stays => exact .refl _
  | arrives b rest hin => exact absurd hin (harrive b rest)
  | linkSet u rest hin => exact absurd hin (hlink u rest)
  | reads => exact readFrame_readOnly _ _ _
  | polls => exact poll_readOnly _ _ _
  | readBegins => rw [startRead_env]; exact s.env.linkUp_readOnly
  | pollBegins => exact pollGate_readOnly _ _
  | goesOn hgo =>
    cases hgo with
    | stays => exact .refl _
    | exchanges => exact exchange_readOnly _ _ _

/-! ### A reader at work on a closed connection (R33, R155) -/

/-- A reader at work that gets no data ends, with `NO_DATA` while hunting and `UNDERRUN` while collecting (R82, R85). -/
theorem answerStep_none (p : Params) {k : Block} (hw : k.mode ≠ .idle) :
    answerStep p none k = k.finish (if k.mode = .hunt then .noData else .underrun) := by
  cases hm : k.mode
  · exact absurd hm hw
  · simp [answerStep, hm]
  · simp [answerStep, hm]

/-- A reader that has ended without a candidate has fetched nothing. -/
theorem Block.executed_of_no_candidate {k : Block} (h : k.status = .noData ∨ k.status = .underrun) : k.executed = k := by
  rcases h with h | h <;> simp [Block.executed, h]

@[simp] theorem Block.counted_status (p : Params) (k : Block) : (k.counted p).status = k.status := by
  unfold Block.counted; split <;> rfl

/-- A reader that has ended without a candidate is closed, and closing it writes neither its phase, its status nor a latch. -/
theorem conclude_of_no_candidate {s : State} (hm : s.blk.mode = .idle) (h : s.blk.status = .noData ∨ s.blk.status = .underrun) :
    ∃ v, conclude s = .next v ∧ v.blk.mode = .idle ∧ v.blk.status = s.blk.status ∧ v.blk.raw = s.blk.raw ∧ v.env = s.env := by
  refine ⟨_, conclude_ended hm, ?_⟩
  rw [Block.executed_of_no_candidate h, closeReader_blk, closeReader_env]
  split <;> simp [hm]

/-- The exchange of a reader at work on a closed connection ends it. -/
theorem exchange_of_closed (p : Params) {k : Block} {e : Env} (hw : k.mode ≠ .idle) (hc : e.tick.link = false) :
    exchange p (k, e) = (k.finish (if k.mode = .hunt then .noData else .underrun), e.rxRead.2) := by
  obtain ⟨hm, -⟩ | ⟨-, h⟩ := exchange_cases p k e
  · exact absurd hm hw
  · rw [h, Env.rxRead_of_closed hc, answerStep_none p hw]

/-- Left to itself, it ends so in the next step, whatever bytes are held. -/
theorem carryOn_of_closed {s : State} (hw : s.blk.mode ≠ .idle) (hc : s.env.tick.link = false) :
    ∃ v, carryOn s = .next v ∧ v.blk.mode = .idle ∧ v.blk.status = (if s.blk.mode = .hunt then .noData else .underrun) ∧
      v.blk.raw = s.blk.raw ∧ v.env.fifo = s.env.fifo := by
  rw [carryOn_of_busy (Block.busy_of_mode hw), exchange_of_closed s.params hw hc]
  obtain ⟨v, hv, hmode, hstatus, hraw, henv⟩ := conclude_of_no_candidate
    (s := s.put (s.blk.finish (if s.blk.mode = .hunt then .noData else .underrun), s.env.rxRead.2)) rfl
    (by rw [State.put_blk, Block.finish_status]; split <;> simp)
  refine ⟨v, hv, hmode, hstatus, hraw, ?_⟩
  rw [henv, State.put_env, Env.rxRead_of_closed hc, Env.tick_fifo]

/-! ### The environment's own moves (R33, R40) -/

theorem step_of_arrive {s : State} {b : Byte} {rest : List Input} (hin : s.caller.inputs = .arrive b :: rest) :
    step s = .next ((s.setInputs rest).setEnv (s.env.arrive b)) := by
  simp only [step, hin]

theorem step_of_setLink {s : State} {u : Bool} {rest : List Input} (hin : s.caller.inputs = .setLink u :: rest) :
    step s = .next ((s.setInputs rest).setEnv (s.env.setLink u)) := by
  simp only [step, hin]

/-- A connection that has been set stays as it was set. -/
@[simp] theorem Env.setLink_tick (u : Bool) (e : Env) : (e.setLink u).tick = e.setLink u := Env.tick_of_steady rfl

/-- On a connection that has been closed the next attempt gets no data, and all bytes and answers held stay. -/
theorem Env.rxRead_setLink_false (e : Env) :
    (e.setLink false).rxRead.1 = none ∧ (e.setLink false).rxRead.2.fifo = e.fifo ∧ (e.setLink false).rxRead.2.waits = e.waits := by
  rw [Env.rxRead_of_closed (by rw [Env.setLink_tick]; rfl), Env.setLink_tick]
  exact ⟨rfl, rfl, rfl⟩

end Sys2Proof.Machine

namespace Sys2Proof.Proofs
open Sys2Proof.Machine

/-- Settles O59: every move of the block is a run of exchanges that only read, a reset makes none, and a reader at work on a connection
that has been closed gets no data. -/
theorem stepOnlyReadsTheStream : Obligations.StepOnlyReadsTheStream := by
  intro s t hstep
  refine ⟨fun harrive hlink => ?_, fun b rest hin => ?_, fun u rest hin => ?_⟩
  · obtain ⟨rest, -, rfl⟩ | ⟨-, -, hmoved⟩ := step_moved hstep
    · exact .refl _
    · exact hmoved.readOnly harrive hlink
  · obtain rfl := Host.Outcome.next.inj ((step_of_arrive hin).symm.trans hstep)
    rfl
  · obtain rfl := Host.Outcome.next.inj ((step_of_setLink hin).symm.trans hstep)
    refine ⟨rfl, congrArg Env.link (s.env.setLink_tick u), ?_, ?_⟩
    · rintro rfl
      exact s.env.rxRead_setLink_false
    · rintro rfl hw rest' hq
      rw [step_of_quiet hq]
      exact carryOn_of_closed hw (congrArg Env.link (s.env.setLink_tick false))

end Sys2Proof.Proofs

namespace Sys2Proof
open Sys2Proof.Machine

/-! ### Instructions as frame rows and operations (R58, R60) -/

/-- Every instruction is a frame row or the operation of some select code. -/
theorem Instr.frameRow_or_operation (i : Instr) : (∃ h kind p, frameRow i = some (h, kind, p)) ∨ ∃ c : OpCode, decodeOp c = i := by
  cases i with
  | frameAcc | frameGyro | frameAngle | frameUnknown => exact .inl ⟨_, _, _, rfl⟩
  | readFrame => exact .inr ⟨1, rfl⟩
  | poll => exact .inr ⟨2, rfl⟩
  | getAcc => exact .inr ⟨4, rfl⟩
  | getGyro => exact .inr ⟨5, rfl⟩
  | getAngle => exact .inr ⟨6, rfl⟩
  | reservedOp0 => exact .inr ⟨0, rfl⟩
  | reservedOp3 => exact .inr ⟨3, rfl⟩
  | reservedOp7 => exact .inr ⟨7, rfl⟩

/-- A frame row's bytes are those of its header and operands (R50). -/
theorem encode_of_frameRow {i : Instr} {h : Byte} {kind : Kind} {p : Payload} (hi : frameRow i = some (h, kind, p)) :
    encode i = (frameBytes h p).toList := by
  cases i <;> simp [frameRow] at hi <;> obtain ⟨rfl, -, rfl⟩ := hi <;> rfl

/-- A well-formed frame row is decoded from its own header and operands. -/
theorem decodeFrame_of_frameRow {i : Instr} {h : Byte} {kind : Kind} {p : Payload} (hi : frameRow i = some (h, kind, p))
    (hwf : i.wf = true) : decodeFrame (frameBytes h p) = i := by
  cases i <;> simp [frameRow] at hi <;> obtain ⟨rfl, -, rfl⟩ := hi
  case frameUnknown => simp [decodeFrame, classify_unmapped hwf]
  all_goals simp [decodeFrame]

theorem wf_decodeFrame (b : FrameBuf) : (decodeFrame b).wf = true := by
  obtain ⟨hc, -⟩ | ⟨hc, -⟩ | ⟨hc, -⟩ | ⟨hc, hu⟩ := classify_cases b[1] <;> simp [decodeFrame, hc, Instr.wf]
  exact hu

/-- What a candidate decodes to has the candidate's bytes. -/
theorem encode_decodeFrame {b : FrameBuf} (hm : b[0] = Config.marker) : encode (decodeFrame b) = b.toList := by
  rw [encode_of_frameRow (frameRow_decodeFrame b), frameBytes_payloadOf b hm]

theorem wf_decodeOp (c : OpCode) : (decodeOp c).wf = true := by
  revert c; decide

/-- An operation stands as its select code in one byte. -/
theorem encode_decodeOp (c : OpCode) : encode (decodeOp c) = [c.setWidth 8] := by
  revert c; decide

/-! ### What the decoder reads and refuses (R53, R59, R60) -/

theorem decode_of_no_instruction {x : Byte} {rest : List Byte} (hm : x ≠ Config.marker) (h8 : 8 ≤ x.toNat) :
    decode (x :: rest) = .error (.notAnInstruction x) := by
  simp only [decode, if_neg hm, if_neg (Nat.not_lt.2 h8)]

theorem decode_of_short_frame {rest : List Byte} (h : rest.length < 10) :
    decode (Config.marker :: rest) = .error (.shortFrame (rest.length + 1)) := by
  rw [decode, if_pos rfl]
  rintro b1 b2 b3 b4 b5 b6 b7 b8 b9 b10 rest' rfl
  simp at h; omega

/-- All that the decoder can read: a frame's eleven bytes that begin with the marker, or an operation code. -/
theorem decode_cases {bs rest : List Byte} {i : Instr} (h : decode bs = .ok (i, rest)) :
    (∃ b : FrameBuf, b[0] = Config.marker ∧ bs = b.toList ++ rest ∧ i = decodeFrame b) ∨
    ∃ c : OpCode, bs = c.setWidth 8 :: rest ∧ i = decodeOp c := by
  unfold decode at h
  split at h
  · cases h
  · next x tl =>
    split at h
    · next hm =>
      split at h
      · next b1 b2 b3 b4 b5 b6 b7 b8 b9 b10 rest' =>
        cases h
        exact .inl ⟨#v[x, b1, b2, b3, b4, b5, b6, b7, b8, b9, b10], hm, rfl, rfl⟩
      · cases h
    · split at h
      · next h8 =>
        cases h
        refine .inr ⟨x.setWidth 3, ?_, rfl⟩
        congr 1
        apply BitVec.eq_of_toNat_eq
        simp; omega
      · cases h

/-! ### The frame word (R51) -/

/-- Byte `i` of the frame word is frame byte `i`. -/
theorem frameWord_byte (b : FrameBuf) (i : Nat) (h : i < 11) : (frameWord b).extractLsb' (8 * i) 8 = b[i] := by
  change BitVec.extractLsb' (n := 8 + 8 + 8 + 8 + 8 + 8 + 8 + 8 + 8 + 8 + 8) (8 * i) 8 (frameWord b) = b[i]
  unfold frameWord
  interval_cases i <;> simp (disch := decide) only [extractLsb'_append_high, extractLsb'_append_low, BitVec.extractLsb'_eq_self,
    Nat.reduceMul, Nat.reduceSub]

/-- Two neighbouring bytes of a word are one 16-bit field, the lower byte less significant (R54). -/
theorem extractLsb'_sixteen {n : Nat} (w : BitVec n) (k : Nat) :
    w.extractLsb' k 16 = pair (w.extractLsb' k 8) (w.extractLsb' (k + 8) 8) := by
  ext j hj
  rw [pair, BitVec.getElem_extractLsb', BitVec.getElem_append]
  split
  · rw [BitVec.getElem_extractLsb']
  · rw [BitVec.getElem_extractLsb', show k + 8 + (j - 8) = k + j by omega]

/-- Bytes `i` and `i + 1` of a frame are bits `8i+15:8i` of its word. -/
theorem frameWord_field (b : FrameBuf) (i : Nat) (h : i + 1 < 11) :
    (frameWord b).extractLsb' (8 * i) 16 = pair b[i] b[i + 1] := by
  rw [extractLsb'_sixteen, frameWord_byte b i (by omega), ← Nat.mul_succ, frameWord_byte b (i + 1) h]

/-! ### Table words (R63) -/

/-- The bytes of a frame word as a buffer. -/
def wordBytes (w : FrameWord) : FrameBuf := Vector.ofFn fun i => w.extractLsb' (8 * i.val) 8

theorem wordBytes_getElem (w : FrameWord) (i : Nat) (h : i < 11) : (wordBytes w)[i] = w.extractLsb' (8 * i) 8 := by
  simp [wordBytes]

theorem wordBytes_frameWord (b : FrameBuf) : wordBytes (frameWord b) = b := by
  ext i hi : 1
  rw [wordBytes_getElem, frameWord_byte b i hi]

theorem tableBytes_eq_wordBytes (w : FrameWord) : tableBytes 88 w.toNat = (wordBytes w).toList := by
  rw [tableBytes_frame]; rfl

theorem tableBytes_frameWord (b : FrameBuf) : tableBytes 88 (frameWord b).toNat = b.toList := by
  rw [tableBytes_eq_wordBytes, wordBytes_frameWord]

/-- An operation code in a table word of 8 bits is the first of its bytes. -/
theorem tableBytes_op (c : OpCode) : tableBytes 8 c.toNat = c.setWidth 8 :: List.replicate 10 0 := by
  revert c; decide

theorem decodeTableWord_frame {w : FrameWord} (hm : (wordBytes w)[0] = Config.marker) :
    decodeTableWord 88 w.toNat = some (decodeFrame (wordBytes w)) := by
  have h := decode_frame (wordBytes w) [] hm
  rw [List.append_nil] at h
  rw [decodeTableWord, tableBytes_eq_wordBytes, h]

theorem decodeTableWord_frameWord {b : FrameBuf} (hm : b[0] = Config.marker) :
    decodeTableWord 88 (frameWord b).toNat = some (decodeFrame b) := by
  have h := decodeTableWord_frame (w := frameWord b)
  rw [wordBytes_frameWord] at h
  exact h hm

theorem decodeTableWord_op (c : OpCode) : decodeTableWord 8 c.toNat = some (decodeOp c) := by
  rw [decodeTableWord, tableBytes_op, decode_op]

/-- The UNKNOWN row's mask covers the marker alone. -/
theorem toNat_and_ff (w : FrameWord) : w.toNat &&& 0xFF = (wordBytes w)[0].toNat := by
  rw [wordBytes_getElem, BitVec.extractLsb'_toNat]
  exact Nat.and_two_pow_sub_one_eq_mod w.toNat 8

/-- A known kind's mask covers the marker and the header. -/
theorem toNat_and_ffff (w : FrameWord) : w.toNat &&& 0xFFFF = (wordBytes w)[1].toNat * 256 + (wordBytes w)[0].toNat := by
  have h := congrArg BitVec.toNat (extractLsb'_sixteen w 0)
  rw [pair_toNat, BitVec.extractLsb'_toNat, Nat.shiftRight_zero] at h
  rw [wordBytes_getElem, wordBytes_getElem]
  exact (Nat.and_two_pow_sub_one_eq_mod w.toNat 16).trans h

/-- So a frame word matches a known kind's row exactly when it has the row's header. -/
theorem toNat_and_ffff_eq_iff {w : FrameWord} (hm : (wordBytes w)[0] = Config.marker) (hdr : Byte) :
    w.toNat &&& 0xFFFF = hdr.toNat * 256 + 0x55 ↔ (wordBytes w)[1] = hdr := by
  rw [toNat_and_ffff, hm, ← BitVec.toNat_inj]
  simp [Config.marker]

/-- The first row of the table that a frame word matches has the name of the frame decoded from it. -/
theorem tableRowOf_frame {w : FrameWord} (hm : (wordBytes w)[0] = Config.marker) :
    (tableRowOf 88 w.toNat).map TableRow.mnemonic = some (decodeFrame (wordBytes w)).mnemonic := by
  have hacc : w.toNat &&& 0xFFFF = 0x5155 ↔ _ := toNat_and_ffff_eq_iff hm Config.hdrAcc
  have hgyro : w.toNat &&& 0xFFFF = 0x5255 ↔ _ := toNat_and_ffff_eq_iff hm Config.hdrGyro
  have hangle : w.toNat &&& 0xFFFF = 0x5355 ↔ _ := toNat_and_ffff_eq_iff hm Config.hdrAngle
  have hunknown : w.toNat &&& 0xFF = 0x55 := (toNat_and_ff w).trans (congrArg BitVec.toNat hm)
  obtain ⟨hc, hh⟩ | ⟨hc, hh⟩ | ⟨hc, hh⟩ | ⟨hc, hh⟩ := classify_cases (wordBytes w)[1]
  · simp [tableRowOf, opcodeTable, decodeFrame, Instr.mnemonic, hc, hacc.2 hh]
  · simp [tableRowOf, opcodeTable, decodeFrame, Instr.mnemonic, hc, hgyro.2 hh]
  · simp [tableRowOf, opcodeTable, decodeFrame, Instr.mnemonic, hc, hangle.2 hh]
  · simp only [unmappedHeader, Bool.and_eq_true, bne_iff_ne] at hh
    obtain ⟨⟨hnacc, hngyro⟩, hnangle⟩ := hh
    simp [tableRowOf, opcodeTable, decodeFrame, Instr.mnemonic, hc, hacc, hgyro, hangle, hunknown, hnacc, hngyro, hnangle]

/-- The first row that an operation code matches has the name of its operation. -/
theorem tableRowOf_op (c : OpCode) : (tableRowOf 3 c.toNat).map TableRow.mnemonic = some (decodeOp c).mnemonic := by
  revert c; decide

end Sys2Proof

namespace Sys2Proof.Proofs
open Sys2Proof.Machine

/-- Settles O1: a frame row is decoded from its eleven bytes, by its header, and an operation from its select code. -/
theorem decodeOfEncodeIsTheInstruction : Obligations.DecodeOfEncodeIsTheInstruction := by
  intro i rest hwf
  obtain ⟨h, kind, p, hi⟩ | ⟨c, rfl⟩ := i.frameRow_or_operation
  · rw [encode_of_frameRow hi, decode_frame _ rest (frameBytes_marker h p), decodeFrame_of_frameRow hi hwf]
  · rw [encode_decodeOp, List.singleton_append, decode_op]

/-- Settles O2: what the decoder reads is a candidate or an operation code, and both encode to the bytes read. -/
theorem decodedBytesAreTheEncoding : Obligations.DecodedBytesAreTheEncoding := by
  intro bs i rest h
  obtain ⟨b, hm, rfl, rfl⟩ | ⟨c, rfl, rfl⟩ := decode_cases h
  · exact ⟨wf_decodeFrame b, by rw [encode_decodeFrame hm]⟩
  · exact ⟨wf_decodeOp c, by rw [encode_decodeOp, List.singleton_append]⟩

/-- Settles O4: the masks of the frame rows cover the marker and, before the UNKNOWN row, the header, by which the decoder selects. -/
theorem decoderFollowsTableRows : Obligations.DecoderFollowsTableRows := by
  refine ⟨fun w hw => ?_, fun c => ?_⟩
  · have hm : (wordBytes w)[0] = Config.marker := (wordBytes_getElem w 0 (by omega)).trans hw
    obtain ⟨r, hrow, hname⟩ := Option.map_eq_some_iff.1 (tableRowOf_frame hm)
    exact ⟨_, r, decodeTableWord_frame hm, hrow, hname⟩
  · obtain ⟨r, hrow, hname⟩ := Option.map_eq_some_iff.1 (tableRowOf_op c)
    exact ⟨r, decodeTableWord_op c, hrow, hname⟩

/-- Settles O6: each field is two neighbouring bytes of the word. -/
theorem frameWordPacksBytesInOrder : Obligations.FrameWordPacksBytesInOrder :=
  fun b => ⟨frameWord_byte b, frameWord_field b 2 (by omega), frameWord_field b 4 (by omega), frameWord_field b 6 (by omega)⟩

/-- Settles O3: the first byte alone, and after the marker the count of the bytes behind it, decide what is refused. -/
theorem decoderRefusesOtherBytes : Obligations.DecoderRefusesOtherBytes := by
  refine ⟨rfl, fun b rest => ⟨decode_of_no_instruction, ?_⟩⟩
  rintro rfl hlen
  exact decode_of_short_frame hlen

/-- Settles O5: the decoder evaluates on each of the eight words. -/
theorem sampleWordsDecode : Obligations.SampleWordsDecode :=
  ⟨rfl, rfl, rfl, rfl, rfl, rfl, rfl, rfl⟩

end Sys2Proof.Proofs

namespace Sys2Proof
open Sys2Proof.Machine

/-- The plain sum of ten bytes that drops its carries (R56). -/
theorem checksum_toNat (b : FrameBuf) :
    (checksum b).toNat = (b[0].toNat + b[1].toNat + b[2].toNat + b[3].toNat + b[4].toNat + b[5].toNat + b[6].toNat +
      b[7].toNat + b[8].toNat + b[9].toNat) % 256 := by
  simp [checksum, BitVec.toNat_add]

end Sys2Proof

namespace Sys2Proof.Proofs
open Sys2Proof.Machine

/-- Settles O11: both sides of the validity predicate's two equations are numbers of one byte. -/
theorem checksumIsTheSumModulo256 : Obligations.ChecksumIsTheSumModulo256 := by
  intro b
  refine ⟨checksum_toNat b, ?_⟩
  rw [isFrame_iff, ← BitVec.toNat_inj, ← BitVec.toNat_inj, checksum_toNat]
  rfl

/-- Settles O48: a reserved code leaves the idle block it is started from as it is. -/
theorem reservedCodesChangeNothing : Obligations.ReservedCodesChangeNothing :=
  fun s hb =>
    have hsame : whenIdle s (fun s => s) = .next s := whenIdle_of_idle hb
    ⟨hsame, hsame, hsame⟩

end Sys2Proof.Proofs

namespace Sys2Proof.Machine

/-! ### A frame row executed (R59, R76, R110) -/

/-- All that a frame row can do to the block: it takes the candidate, and applies it where it is accepted in a cycle. -/
theorem runFrame_cases (h : Byte) (kind : Kind) (p : Payload) (k : Block) :
    runFrame h kind p k = k.takeCandidate (frameBytes h p) ∨
    runFrame h kind p k = (k.takeCandidate (frameBytes h p)).apply kind p.fields := by
  unfold runFrame
  dsimp only
  split
  · exact .inr rfl
  · exact .inl rfl

@[simp] theorem runFrame_buf (h : Byte) (kind : Kind) (p : Payload) (k : Block) : (runFrame h kind p k).buf = frameBytes h p := by
  obtain h' | h' := runFrame_cases h kind p k <;> simp [h']
@[simp] theorem runFrame_status (h : Byte) (kind : Kind) (p : Payload) (k : Block) :
    (runFrame h kind p k).status = verdict p.csum (checksum (frameBytes h p)) := by
  obtain h' | h' := runFrame_cases h kind p k <;> simp [h']
@[simp] theorem runFrame_pcnt (h : Byte) (kind : Kind) (p : Payload) (k : Block) : (runFrame h kind p k).pcnt = k.pcnt := by
  obtain h' | h' := runFrame_cases h kind p k <;> simp [h']
@[simp] theorem runFrame_polling (h : Byte) (kind : Kind) (p : Payload) (k : Block) : (runFrame h kind p k).polling = k.polling := by
  obtain h' | h' := runFrame_cases h kind p k <;> simp [h']

/-- A complete candidate has one of two outcomes (R76). -/
theorem verdict_cases (last sum : Byte) : verdict last sum = .frame ∨ verdict last sum = .badChecksum := by
  unfold verdict
  split
  · exact .inl rfl
  · exact .inr rfl

/-- A reader that a complete candidate `b` has ended executes the row that `b` decodes to, which fills `SUM` and `STATUS` itself. -/
theorem Block.executed_of_complete (b : FrameBuf) (last sum : Byte) (k : Block) :
    (({ k with buf := b } : Block).finish (verdict last sum)).executed = runFrame b[1] (classify b[1]) (payloadOf b) k := by
  unfold Block.executed
  obtain hs | hs := verdict_cases last sum <;> rw [hs] <;> rfl

/-! ### The last byte of a candidate (R76, R86) -/

theorem answerStep_last (p : Params) {k : Block} (hm : k.mode = .collect) (hi : k.idx = 10) (x : Byte) :
    answerStep p (some x) k = ({ k with buf := k.buf.set 10 x } : Block).finish (verdict x k.sum) := by
  simp [answerStep, collectByte, hm, hi, Block.store, verdict]

/-- The step that takes the last byte of a candidate executes its row and closes the reader. -/
theorem step_of_last_byte {s : State} {rest : List Input} {x : Byte} {e : Env} {b : FrameBuf} (hq : QuietNext s rest)
    (hm : s.blk.mode = .collect) (hi : s.blk.idx = 10) (hread : s.env.rxRead = (some x, e)) (hb : s.blk.buf.set 10 x = b) :
    step s = .next (closeReader { s with
      blk := runFrame b[1] (classify b[1]) (payloadOf b) s.blk, env := e, caller := ⟨rest, s.caller.reply⟩ }) := by
  have hw : s.blk.mode ≠ .idle := by simp [hm]
  have hexchange : exchange s.params (s.blk, s.env) = (({ s.blk with buf := b } : Block).finish (verdict x s.blk.sum), e) := by
    obtain ⟨hidle, -⟩ | ⟨-, h⟩ := exchange_cases s.params s.blk s.env
    · exact absurd hidle hw
    · rw [h, hread, answerStep_last s.params hm hi, hb]
  rw [step_of_quiet hq, carryOn_of_busy (s := { s with caller := ⟨rest, s.caller.reply⟩ }) (Block.busy_of_mode hw), hexchange,
    conclude_ended rfl, State.put_blk, Block.executed_of_complete]
  rfl

/-! ### Words placed where the machine fetches (R60, R63, R124) -/

theorem withFetchWord_op (s : State) (c : OpCode) : s.withFetchWord 8 c.toNat = s.withOp c := by
  have h8 : (c.setWidth 8).toNat < 8 := by simp; omega
  have hc : (c.setWidth 8).setWidth 3 = c := by ext i hi; simp
  simp only [State.withFetchWord, tableBytes_op, List.headD_cons, if_pos h8, hc]

theorem withFetchWord_frame (s : State) {b : FrameBuf} (hm : b[0] = Config.marker) :
    s.withFetchWord 88 (frameWord b).toNat = s.withFrameBytes b.toList := by
  have hhead : b.toList.headD 0 = Config.marker := by
    rw [← hm, List.headD_eq_head?_getD, List.head?_eq_getElem?]
    simp
  rw [State.withFetchWord, tableBytes_frameWord]
  simp only [hhead]
  rfl

/-- The first iteration of a cycle is counted and the cycle goes on, where its reader met a whole candidate (R120, R125). -/
theorem afterIteration_first {s : State} (hn : s.blk.pcnt = 0) (hs : s.blk.status ≠ .noData) :
    afterIteration s = { s with blk := { s.blk with pcnt := 1 } } := by
  obtain ⟨-, hgo⟩ := afterIteration_counted s
  obtain ⟨ht, hcount⟩ := hgo (by simp [hn]) (fun h => hs h.2)
  have hone : (afterIteration s).blk.pcnt = 1 := Fin.ext (by rw [hcount, hn]; rfl)
  rw [ht, hone]

theorem closeReader_of_polling {s : State} (hp : s.blk.polling = true) : closeReader s = afterIteration s := by
  unfold closeReader; rw [if_pos hp]

/-- A candidate placed so is taken, executed and counted in one step. -/
theorem step_withFrameBytes (s : State) (b : FrameBuf) :
    step (s.withFrameBytes b.toList) = .next (afterIteration { s with
      blk := runFrame b[1] (classify b[1]) (payloadOf b) { s.blk with polling := true, pcnt := 0 }
      env := { s.env with links := [], link := true, log := .rxRead (some b[10]) :: s.env.log } }) := by
  have hbuf : (Vector.ofFn fun i : Fin 11 => b.toList.getD i.val 0) = b := by
    ext i hi : 1
    simp
  have hread := Env.rxRead_of_fifo (e := (s.withFrameBytes b.toList).env) rfl rfl
  have hstep := step_of_last_byte (b := b) (.inl rfl) rfl rfl hread (by simp [State.withFrameBytes])
  rw [hstep, closeReader_of_polling (by simp [State.withFrameBytes])]
  simp only [State.withFrameBytes, hbuf]
  rfl

end Sys2Proof.Machine

namespace Sys2Proof.Proofs
open Sys2Proof.Machine

/-- Settles O46: an operation is the next one issued, and a frame's last byte is taken, its row executed and the iteration counted in
one step. -/
theorem fetchWordIsTheNextInstruction : Obligations.FetchWordIsTheNextInstruction := by
  refine ⟨fun s c => ⟨decodeTableWord_op c, ?_⟩, fun s b hm => ?_⟩
  · rw [withFetchWord_op]; rfl
  · refine ⟨decodeFrame b, _, decodeTableWord_frameWord hm, exec_of_frameRow (frameRow_decodeFrame b) _, ?_, ?_⟩
    · rw [State.setBlk_blk, runFrame_buf, frameBytes_payloadOf b hm]
    · rw [withFetchWord_frame s hm, step_withFrameBytes, afterIteration_first (by simp)]
      · rfl
      · obtain hs | hs := verdict_cases (payloadOf b).csum (checksum (frameBytes b[1] (payloadOf b))) <;> simp [hs]

end Sys2Proof.Proofs

namespace Sys2Proof.Machine

/-! ### A `READ_FRAME` answered (R70) -/

theorem readReply_eq (k : Block) : readReply k = .read k.status (if k.status = .frame then some k.buf else none) := by
  simp [readReply, Block.frameValid]

theorem closeRead_of_idle {s : State} (hm : s.blk.mode = .idle) : closeRead s = s.setReply (some (readReply s.blk)) := by
  simp [closeRead, hm]

theorem closeRead_of_working {s : State} (hw : s.blk.mode ≠ .idle) : closeRead s = s := by
  unfold closeRead
  split
  · contradiction
  · rfl

/-- An issued `READ_FRAME` that ends leaves the reader's block and environment, and answers the caller. -/
theorem exec_readFrame_of_ended {s : State} {k : Block} {e : Env} (hb : s.blk.busy = false)
    (h : readFrame s.params s.blk s.env = (k, e)) (hm : k.mode = .idle) :
    exec .readFrame s = .next { s with blk := k, env := e, caller := ⟨s.caller.inputs, some (readReply k)⟩ } := by
  rw [exec_readFrame hb, h, closeRead_of_idle (by exact hm)]
  rfl

/-! ### The operation on given answers (R71 to R77) -/

/-- A `READ_FRAME` that ends in its hunt: `BUF` is not written (R72, R90). -/
theorem Block.afterDiscards_finish (p : Params) (n : Nat) (k : Block) :
    (k.beginHunt.afterDiscards p.huntLimit n).finish .noData =
      { k with sum := 0, idx := 0, huntCnt := countAfter p n, mode := .idle, status := .noData, outValid := true } := by
  simp [Block.afterDiscards, Block.finish, Block.beginHunt, countAfter]

theorem readFrame_of_down {p : Params} {k : Block} {e e' : Env} (hl : e.linkUp = (false, e')) :
    readFrame p k e = (k.beginHunt.finish .noData, e') := by
  simp [readFrame, hl]

/-! With the link up, the hunt decides (R72). -/

theorem readFrame_of_over {p : Params} {k k' : Block} {e e1 e' : Env} (hl : e.linkUp = (true, e1))
    (h : hunt p (huntBound p e1) k.beginHunt e1 = .over k' e') : readFrame p k e = (k', e') := by
  simp only [readFrame, hl, h]

theorem readFrame_of_going {p : Params} {k k' : Block} {e e1 e' : Env} (hl : e.linkUp = (true, e1))
    (h : hunt p (huntBound p e1) k.beginHunt e1 = .going k' e') : readFrame p k e = (k', e') := by
  simp only [readFrame, hl, h]

theorem readFrame_of_found {p : Params} {k k' : Block} {e e1 e' : Env} (hl : e.linkUp = (true, e1))
    (h : hunt p (huntBound p e1) k.beginHunt e1 = .found k' e') : readFrame p k e = collect Config.bodyLen k'.markerFound e' := by
  simp only [readFrame, hl, h]

/-- A candidate is the marker, nine bytes and a last one (R50). -/
theorem marker_body_last {b : FrameBuf} (hb : b[0] = Config.marker) :
    ∃ (c : List Byte) (x : Byte), b.toList = Config.marker :: c ++ [x] ∧ c.length = 9 := by
  obtain ⟨⟨l⟩, hl⟩ := b
  match l, hl with
  | [x0, x1, x2, x3, x4, x5, x6, x7, x8, x9, x10], _ =>
    obtain rfl : x0 = Config.marker := hb
    exact ⟨[x1, x2, x3, x4, x5, x6, x7, x8, x9], x10, rfl, rfl⟩

section
variable {p : Params} {k : Block} {e e1 e' : Env} {g c : List Byte}

/-- The hunt of a `READ_FRAME` that is given garbage within the limit and then an answer that ends it. -/
theorem hunt_begun_of_reads {x : Option Byte} (hg : Garbage g) (hlim : LimitAllows p g.length) (hx : x = none ∨ x = some Config.marker)
    (h : e1.reads (g.length + 1) = (g.map some ++ [x], e')) :
    (x = none → hunt p (huntBound p e1) k.beginHunt e1 = .over ((k.beginHunt.afterDiscards p.huntLimit g.length).finish .noData) e') ∧
    (x = some Config.marker → hunt p (huntBound p e1) k.beginHunt e1 = .found (k.beginHunt.afterDiscards p.huntLimit g.length) e') := by
  have hroom : Room p.huntLimit k.beginHunt.huntCnt g.length := fun m hm => by simpa using hlim m hm
  have hbound := Env.garbage_length g x e1 e' hg hx h
  exact hunt_of_reads p g _ k.beginHunt e1 e' x hg hroom (by unfold huntBound; omega) h

/-- The hunt runs dry (R72). -/
theorem readFrame_of_dry (hl : e.linkUp = (true, e1)) (hg : Garbage g) (hlim : LimitAllows p g.length)
    (h : e1.reads (g.length + 1) = (g.map some ++ [none], e')) :
    readFrame p k e = ((k.beginHunt.afterDiscards p.huntLimit g.length).finish .noData, e') := by
  exact readFrame_of_over hl ((hunt_begun_of_reads hg hlim (.inl rfl) h).1 rfl)

/-- The hunt reaches `HUNT_LIMIT` (R92). -/
theorem readFrame_of_limit (hl : e.linkUp = (true, e1)) (hg : Garbage g) (hlim : p.huntLimit = some g.length) (h1 : 1 ≤ g.length)
    (h : e1.reads g.length = (g.map some, e')) :
    readFrame p k e = ((k.beginHunt.afterDiscards p.huntLimit g.length).finish .noData, e') := by
  have hbound : g.length ≤ huntBound p e1 := by simp only [huntBound, hlim, Option.getD_some]; omega
  exact readFrame_of_over hl (hunt_of_limit p g _ k.beginHunt e1 e' hg h1 (by simpa using hlim) hbound h)

/-- The hunt finds the marker, and the collection takes what follows (R73). -/
theorem readFrame_of_marker {n : Nat} {a : List (Option Byte)} (hl : e.linkUp = (true, e1)) (hg : Garbage g)
    (hlim : LimitAllows p g.length) (h : e1.reads (g.length + 1 + n) = (g.map some ++ some Config.marker :: a, e')) :
    ∃ e2, readFrame p k e = collect Config.bodyLen (k.collecting p g []) e2 ∧ e2.reads n = (a, e') := by
  rw [Env.reads_add, List.append_cons] at h
  obtain ⟨ha, he⟩ := Prod.mk.inj h
  obtain ⟨hfound, hrest⟩ := List.append_inj ha (by simp)
  exact ⟨(e1.reads (g.length + 1)).2,
    readFrame_of_found hl ((hunt_begun_of_reads hg hlim (.inr rfl) (Prod.ext hfound rfl)).2 rfl), Prod.ext hrest he⟩

/-- A candidate is cut short after `c` (R77). -/
theorem readFrame_of_underrun (hl : e.linkUp = (true, e1)) (hg : Garbage g) (hlim : LimitAllows p g.length) (hc : c.length ≤ 9)
    (h : e1.reads (g.length + c.length + 2) = (g.map some ++ some Config.marker :: (c.map some ++ [none]), e')) :
    readFrame p k e = ((k.collecting p g c).finish .underrun, e') := by
  rw [show g.length + c.length + 2 = g.length + 1 + (c.length + 1) by omega] at h
  obtain ⟨e2, hread, hrest⟩ := readFrame_of_marker (k := k) hl hg hlim h
  have hidx : (k.collecting p g []).idx.val = 1 := rfl
  rw [hread, collect_of_underrun c _ _ e2 e' (by omega) (by unfold Config.bodyLen; omega) hrest]
  rfl

/-- A candidate is completed: `BUF` holds it, and its last byte alone decides (R73 to R76). -/
theorem readFrame_of_candidate {b : FrameBuf} (hl : e.linkUp = (true, e1)) (hg : Garbage g) (hlim : LimitAllows p g.length)
    (hb : b[0] = Config.marker) (h : e1.reads (g.length + 11) = (g.map some ++ b.toList.map some, e')) :
    readFrame p k e = ({ k with
      buf := b, sum := checksum b, idx := 0, mode := .idle, huntCnt := countAfter p g.length
      status := verdict b[10] (checksum b), outValid := true }, e') := by
  obtain ⟨c, x, hbytes, hc⟩ := marker_body_last hb
  rw [hbytes, show g.length + 11 = g.length + 1 + (c.length + 1) by omega, List.cons_append, List.map_cons, List.map_append] at h
  obtain ⟨e2, hread, hrest⟩ := readFrame_of_marker (k := k) hl hg hlim h
  have hidx : (k.collecting p g []).idx.val = 1 := rfl
  rw [hread, collect_of_complete c x _ _ e2 e' (by omega) (by unfold Config.bodyLen; omega) hrest,
    ← Block.collecting_complete p g c x k b hc hbytes]
  rfl

end

end Sys2Proof.Machine

namespace Sys2Proof.Machine

/-! ### The functional form (R93) -/

/-- A byte that a hunt discards, among the answers of the environment. -/
def isGarbageAnswer (r : Option Byte) : Bool := r != none && r != some Config.marker

/-- Answers without an empty one are bytes. -/
theorem exists_bytes {l : List (Option Byte)} (h : none ∉ l) : ∃ c : List Byte, l = c.map some := by
  induction l with
  | nil => exact ⟨[], rfl⟩
  | cons a l ih =>
    obtain ⟨c, rfl⟩ := ih fun hl => h (List.mem_cons_of_mem a hl)
    cases a with
    | none => exact absurd List.mem_cons_self h
    | some b => exact ⟨b :: c, rfl⟩

/-- Answers that a hunt discards are garbage bytes. -/
theorem exists_garbage {l : List (Option Byte)} (h : ∀ a ∈ l, isGarbageAnswer a = true) : ∃ g, Garbage g ∧ l = g.map some := by
  obtain ⟨g, rfl⟩ := exists_bytes (l := l) fun hl => by simpa [isGarbageAnswer] using h none hl
  exact ⟨g, fun b hb => by simpa [isGarbageAnswer] using h (some b) (List.mem_map_of_mem hb), rfl⟩

/-- Answers up to the first empty one. -/
theorem exists_bytes_before_none {l : List (Option Byte)} {j : Nat} (h : l.findIdx? (· == none) = some j) :
    ∃ c : List Byte, c.length = j ∧ c.map some ++ [none] <+: l := by
  obtain ⟨hj, hnone, hbefore⟩ := List.findIdx?_eq_some_iff_getElem.1 h
  obtain ⟨c, hc⟩ := exists_bytes (l := l.take j) fun hl => by
    obtain ⟨i, hi, hli⟩ := List.mem_take_iff_getElem.1 hl
    exact hbefore i (by omega) (by simp [hli])
  have hlj : l[j] = none := by simpa using hnone
  refine ⟨c, by have := congrArg List.length hc; simp at this; omega, ?_⟩
  rw [← hc, ← hlj, List.take_append_getElem]
  exact List.take_prefix _ _

/-- Answers begin with the garbage a hunt discards, and then one that ends it, if any. -/
theorem answers_after_garbage (a : List (Option Byte)) :
    ∃ (g : List Byte) (rest : List (Option Byte)), Garbage g ∧ a = g.map some ++ rest ∧
      (a.takeWhile isGarbageAnswer).length = g.length ∧ (∀ x ∈ rest.head?, x = none ∨ x = some Config.marker) := by
  obtain ⟨g, hg, htake⟩ := exists_garbage (l := a.takeWhile isGarbageAnswer) fun _ hx => List.mem_takeWhile_imp hx
  refine ⟨g, a.dropWhile isGarbageAnswer, hg, by rw [← htake, List.takeWhile_append_dropWhile], by rw [htake, List.length_map],
    fun x hx => ?_⟩
  have hx' : isGarbageAnswer x = false := by
    have := List.head?_dropWhile_not isGarbageAnswer a
    rw [Option.mem_def.1 hx] at this
    exact this
  cases x <;> simp_all [isGarbageAnswer]

/-- Ten bytes behind the marker are a candidate. -/
theorem exists_candidate {c : List (Option Byte)} (h10 : 10 ≤ c.length) (h : ∀ x ∈ c.take 10, (x == none) = false) :
    ∃ b : FrameBuf, b[0] = Config.marker ∧ b.toList.map some <+: some Config.marker :: c ∧
      Config.marker :: (c.take 10).reduceOption = b.toList := by
  obtain ⟨d, hd⟩ := exists_bytes (l := c.take 10) fun hn => by simpa using h none hn
  have hlen : d.length = 10 := by simpa [h10] using (congrArg List.length hd).symm
  obtain ⟨b, hb⟩ := FrameBuf.exists_of_length (l := Config.marker :: d) (by simp [hlen])
  have hm : b.toList[0]? = some Config.marker := by rw [hb]; rfl
  refine ⟨b, by simpa using hm, ?_, ?_⟩
  · rw [hb, List.map_cons, List.prefix_cons_inj, ← hd]
    exact List.take_prefix _ _
  · rw [hb, hd]
    simp [List.reduceOption]

theorem getLastD_toList (b : FrameBuf) : b.toList.getLastD 0 = b[10] := by
  rw [List.getLastD_eq_getLast?, List.getLast?_eq_getElem?]
  simp

/-- What the functional form says decides how the answers begin (R93). -/
theorem readFrameForm_cases {a : List (Option Byte)} {st : Status} {fr : Option (List Byte)} {att : Nat}
    (h : readFrameForm a = some (st, fr, att)) :
    ∃ g, Garbage g ∧
      ((g.map some ++ [none] <+: a ∧ st = .noData ∧ fr = none ∧ att = g.length + 1) ∨
       (∃ c : List Byte, c.length ≤ 9 ∧ g.map some ++ some Config.marker :: (c.map some ++ [none]) <+: a ∧
          st = .underrun ∧ fr = none ∧ att = g.length + c.length + 2) ∨
       (∃ b : FrameBuf, b[0] = Config.marker ∧ g.map some ++ b.toList.map some <+: a ∧ st = verdict b[10] (checksum b) ∧
          fr = (if st = .frame then some b.toList else none) ∧ att = g.length + 11)) := by
  obtain ⟨g, rest, hg, rfl, hlen, hhead⟩ := answers_after_garbage a
  refine ⟨g, hg, ?_⟩
  have hdrop : (g.map some ++ rest).drop g.length = rest := List.drop_left' (List.length_map some)
  unfold isGarbageAnswer at hlen
  simp only [readFrameForm, hlen, hdrop] at h
  match rest, hhead, h with
  | [], _, h => cases h
  | none :: rest, _, h =>
    cases h
    exact .inl ⟨by simp, rfl, rfl, rfl⟩
  | some x :: c, hhead, h =>
    obtain rfl : x = Config.marker := by simpa using hhead
    dsimp only at h
    split at h
    · next j hj =>
      cases h
      obtain ⟨c', hlen', hpre⟩ := exists_bytes_before_none hj
      have hshort := hpre.length_le
      simp at hshort
      refine .inr (.inl ⟨c', by omega, ?_, rfl, rfl, by rw [hlen']⟩)
      rw [List.prefix_append_right_inj, List.prefix_cons_inj]
      exact hpre.trans (List.take_prefix _ _)
    · next hfull =>
      split at h
      · cases h
      · next h10 =>
        obtain ⟨b, hm, hpre, hbytes⟩ := exists_candidate (by omega) (List.findIdx?_eq_none_iff.1 hfull)
        rw [hbytes, getLastD_toList, ← partialSum, ← checksum_eq_partialSum] at h
        refine .inr (.inr ⟨b, hm, (List.prefix_append_right_inj _).2 hpre, ?_⟩)
        unfold verdict
        split at h <;> cases h <;> simp [*]

/-- The first of the coming answers, where they are known, and the environment after them. -/
theorem Env.reads_of_prefix {e : Env} {n : Nat} {l : List (Option Byte)} (h : l <+: (e.reads n).1) :
    e.reads l.length = (l, (e.reads l.length).2) := by
  have hle : l.length ≤ n := by simpa using h.length_le
  refine Prod.ext ?_ rfl
  exact (List.prefix_of_prefix_length_le (Env.reads_prefix hle e) h (by simp)).eq_of_length (by simp)

/-- Where the functional form decides an operation without `HUNT_LIMIT`, `READ_FRAME` ends as it says (R93). -/
theorem readFrame_of_form {p : Params} {e e1 : Env} {n : Nat} {st : Status} {fr : Option (List Byte)} {att : Nat} (k : Block)
    (hl : e.linkUp = (true, e1)) (hlim : p.huntLimit = none) (h : readFrameForm (e1.reads n).1 = some (st, fr, att)) :
    ∃ k', readFrame p k e = (k', (e1.reads att).2) ∧ k'.mode = .idle ∧ k'.status = st ∧
      fr = if st = .frame then some k'.buf.toList else none := by
  obtain ⟨g, hg, ⟨hpre, rfl, rfl, rfl⟩ | ⟨c, hc, hpre, rfl, rfl, rfl⟩ | ⟨b, hm, hpre, rfl, rfl, rfl⟩⟩ := readFrameForm_cases h
  all_goals
    have hallows : LimitAllows p g.length := fun m hm => by simp [hlim] at hm
    have hreads := Env.reads_of_prefix hpre
    simp only [List.length_append, List.length_map, List.length_cons, List.length_nil, Vector.length_toList, Nat.zero_add] at hreads
  · exact ⟨_, readFrame_of_dry hl hg hallows hreads, rfl, rfl, rfl⟩
  · exact ⟨_, readFrame_of_underrun hl hg hallows hc hreads, rfl, rfl, rfl⟩
  · exact ⟨_, readFrame_of_candidate hl hg hallows hm hreads, rfl, rfl, rfl⟩

end Sys2Proof.Machine

namespace Sys2Proof.Proofs
open Sys2Proof.Machine

/-- Settles O18: the link sample is the only exchange of a `READ_FRAME` that finds the link down. -/
theorem readFrameWithLinkDown : Obligations.ReadFrameWithLinkDown := by
  intro s e hb hl
  obtain rfl : s.env.linkUp.2 = e := by rw [hl]
  have hdown : s.env.tick.link = false := congrArg Prod.fst hl
  refine ⟨exec_readFrame_of_ended hb (readFrame_of_down hl) rfl, ?_, by simp, by simp⟩
  rw [Env.linkUp_log, hdown]

/-- Settles O19: the hunt discards the garbage and ends at the answer without data. -/
theorem readFrameRunsDry : Obligations.ReadFrameRunsDry := by
  intro s e e' g hb hl hg hlim hreads
  rw [exec_readFrame_of_ended hb (readFrame_of_dry hl hg hlim hreads) rfl, Block.afterDiscards_finish]
  rfl

/-- Settles O20: the hunt ends at the byte with which its count reaches the limit. -/
theorem readFrameReachesHuntLimit : Obligations.ReadFrameReachesHuntLimit := by
  intro s e e' g hb hl hg hlim h1 hreads
  have hcount : countAfter s.params g.length = g.length := by simp [countAfter, hlim]
  rw [exec_readFrame_of_ended hb (readFrame_of_limit hl hg hlim h1 hreads) rfl, Block.afterDiscards_finish, hcount]
  rfl

/-- Settles O21: the collection has stored and summed the marker and `c` when it meets the answer without data. -/
theorem readFrameUnderruns : Obligations.ReadFrameUnderruns := by
  intro s e e' g c hb hl hg hlim hc hreads
  obtain ⟨buf, hcollecting, hbuf⟩ := Block.collecting_spec s.params g c s.blk hc
  refine ⟨buf, ?_, hbuf⟩
  rw [exec_readFrame_of_ended hb (readFrame_of_underrun hl hg hlim hc hreads) rfl, hcollecting]
  rfl

/-- Settles O22: the collection has stored `b` and summed its first ten bytes when it compares the last. -/
theorem readFrameCompletesCandidate : Obligations.ReadFrameCompletesCandidate := by
  intro s e e' g b hb hl hg hlim hm hreads
  rw [exec_readFrame_of_ended hb (readFrame_of_candidate hl hg hlim hm hreads) rfl, readReply_eq]
  unfold verdict
  split <;> rfl

/-- Settles O23: what decides the functional form are the first answers that `READ_FRAME` gets. -/
theorem readFrameIsItsFunctionalForm : Obligations.ReadFrameIsItsFunctionalForm := by
  intro s e n st fr att hb hl hlim hform
  obtain ⟨k, hread, hm, rfl, rfl⟩ := readFrame_of_form s.blk hl hlim hform
  refine ⟨_, exec_readFrame_of_ended hb hread hm, rfl, hm, rfl, congrArg some (readReply_eq k), ?_, ?_⟩
  · intro b hb
    split at hb <;> simp_all
  · split <;> simp_all

end Sys2Proof.Proofs

namespace Sys2Proof.Machine

/-! ### Steps of the reader (R81 to R86) -/

theorem startRead_of_up {k : Block} {e e' : Env} (hl : e.linkUp = (true, e')) : startRead k e = (k.beginHunt, e') := by
  simp [startRead, hl, Block.beginHunt]

theorem startRead_of_down {k : Block} {e e' : Env} (hl : e.linkUp = (false, e')) :
    startRead k e = (k.beginHunt.finish .noData, e') := by
  simp [startRead, hl, Block.beginHunt, Block.finish]

theorem readerStep_of_working (p : Params) {k : Block} {e e' : Env} {r : Option Byte} (hw : k.mode ≠ .idle)
    (hread : e.rxRead = (r, e')) : readerStep p (k, e) = (answerStep p r k, e') := by
  cases hm : k.mode <;> simp_all [readerStep]

/-- A busy block whose reader is at work makes a step of the reader. -/
theorem exchange_of_working (p : Params) {m : Block × Env} (hw : m.1.mode ≠ .idle) : exchange p m = readerStep p m := by
  cases hm : m.1.mode <;> simp_all [exchange]

theorem exchange_of_idle (p : Params) {k : Block} (e : Env) (hm : k.mode = .idle) : exchange p (k, e) = startRead k e := by
  simp [exchange, hm]

/-- A byte other than the marker is discarded: it is counted where there is a limit, and ends the hunt where it reaches it (R84). -/
theorem answerStep_garbage (p : Params) {k : Block} {b : Byte} (hm : k.mode = .hunt) (hb : b ≠ Config.marker) :
    answerStep p (some b) k = if (k.countDiscard p.huntLimit).limitReached p.huntLimit
      then (k.countDiscard p.huntLimit).finish .noData else k.countDiscard p.huntLimit := by
  simp [answerStep, hm, huntByte, hb]

theorem answerStep_marker (p : Params) {k : Block} (hm : k.mode = .hunt) : answerStep p (some Config.marker) k = k.markerFound := by
  simp [answerStep, hm, huntByte, Block.markerFound]

/-- A byte of the candidate that is not its last is stored, summed and counted (R86). -/
theorem answerStep_take (p : Params) {k : Block} {b : Byte} (hm : k.mode = .collect) (h9 : k.idx.val ≤ 9) :
    answerStep p (some b) k = k.take b := by
  simp [answerStep, hm, collectByte, h9, Block.take]

theorem answerStep_hunt_none (p : Params) {k : Block} (hm : k.mode = .hunt) : answerStep p none k = k.finish .noData := by
  simp [answerStep, hm]

theorem answerStep_collect_none (p : Params) {k : Block} (hm : k.mode = .collect) : answerStep p none k = k.finish .underrun := by
  simp [answerStep, hm]

/-! ### Runs of the reader -/

/-- From `m` to `m'` in `n` byte steps, before the last of which the reader has not ended. -/
def ReaderRuns (p : Params) (n : Nat) (m m' : Block × Env) : Prop :=
  (readerStep p)^[n] m = m' ∧ ∀ j < n, ((readerStep p)^[j] m).1.mode ≠ .idle

theorem ReaderRuns.refl (p : Params) (m : Block × Env) : ReaderRuns p 0 m m := ⟨rfl, by simp⟩

theorem readerRuns_succ {p : Params} {n : Nat} {m m' : Block × Env} :
    ReaderRuns p (n + 1) m m' ↔ m.1.mode ≠ .idle ∧ ReaderRuns p n (readerStep p m) m' := by
  unfold ReaderRuns
  rw [Function.iterate_succ_apply]
  constructor
  · rintro ⟨hm', hw⟩
    exact ⟨hw 0 (by omega), hm', fun j hj => hw (j + 1) (by omega)⟩
  · rintro ⟨h0, hm', hw⟩
    refine ⟨hm', fun j hj => ?_⟩
    cases j with
    | zero => exact h0
    | succ j => exact hw j (by omega)

/-- A reader that has ended makes no further step. -/
theorem ReaderRuns.of_idle {p : Params} {n : Nat} {m m' : Block × Env} (hm : m.1.mode = .idle) (h : ReaderRuns p n m m') :
    n = 0 ∧ m = m' := by
  cases n with
  | zero => exact ⟨rfl, h.1⟩
  | succ n => exact absurd hm (readerRuns_succ.1 h).1

theorem ReaderRuns.trans {p : Params} {n n' : Nat} {m m' m'' : Block × Env} (h : ReaderRuns p n m m') (h' : ReaderRuns p n' m' m'') :
    ReaderRuns p (n + n') m m'' := by
  induction n generalizing m with
  | zero =>
    obtain rfl : m = m' := h.1
    rwa [Nat.zero_add]
  | succ n ih =>
    obtain ⟨hw, h⟩ := readerRuns_succ.1 h
    rw [Nat.succ_add]
    exact readerRuns_succ.2 ⟨hw, ih h⟩

/-- One answer, and then a run. -/
theorem ReaderRuns.head {p : Params} {n : Nat} {k : Block} {e e' : Env} {r : Option Byte} {m' : Block × Env} (hw : k.mode ≠ .idle)
    (hread : e.rxRead = (r, e')) (h : ReaderRuns p n (answerStep p r k, e') m') : ReaderRuns p (n + 1) (k, e) m' :=
  readerRuns_succ.2 ⟨hw, readerStep_of_working p hw hread ▸ h⟩

/-- Where a hunt leaves the byte-step machine: the marker stored and a candidate begun, the reader ended, or hunting on. -/
def HuntEnd.reader : HuntEnd → Block × Env
  | .found k e => (k.markerFound, e)
  | .over k e => (k, e)
  | .going k e => (k, e)

/-- The hunting steps follow the hunt loop (R82 to R84, R87). -/
theorem readerRuns_hunt (p : Params) (n : Nat) {k : Block} (e : Env) (hm : k.mode = .hunt) :
    ∃ j, ReaderRuns p j (k, e) (hunt p n k e).reader := by
  have hw : k.mode ≠ .idle := by simp [hm]
  induction n generalizing k e with
  | zero => exact ⟨0, .refl p _⟩
  | succ n ih =>
    rcases hread : e.rxRead with ⟨_ | b, e'⟩ <;> simp only [hunt, hread]
    · exact ⟨1, .head hw hread (answerStep_hunt_none p hm ▸ .refl p _)⟩
    · by_cases hb : b = Config.marker
      · subst hb
        rw [if_pos rfl]
        exact ⟨1, .head hw hread (answerStep_marker p hm ▸ .refl p _)⟩
      · have hstep := answerStep_garbage p hm hb
        rw [if_neg hb]
        split at hstep
        · next hlim =>
          rw [if_pos hlim]
          exact ⟨1, .head hw hread (hstep ▸ .refl p _)⟩
        · next hlim =>
          rw [if_neg hlim]
          obtain ⟨j, hj⟩ := ih (k := k.countDiscard p.huntLimit) e' (by simpa using hm) (by simpa using hw)
          exact ⟨j + 1, .head hw hread (hstep ▸ hj)⟩

/-- The collecting steps follow the collect loop (R85 to R87). -/
theorem readerRuns_collect (p : Params) (n : Nat) {k : Block} (e : Env) (hm : k.mode = .collect) :
    ∃ j, ReaderRuns p j (k, e) (collect n k e) := by
  have hw : k.mode ≠ .idle := by simp [hm]
  induction n generalizing k e with
  | zero => exact ⟨0, .refl p _⟩
  | succ n ih =>
    rcases hread : e.rxRead with ⟨_ | b, e'⟩ <;> simp only [collect, hread]
    · exact ⟨1, .head hw hread (answerStep_collect_none p hm ▸ .refl p _)⟩
    · split
      · next h9 =>
        obtain ⟨j, hj⟩ := ih (k := k.take b) e' hm hw
        exact ⟨j + 1, .head hw hread (answerStep_take p hm h9 ▸ hj)⟩
      · next h9 =>
        have h10 : k.idx = 10 := Fin.ext (by have := k.idx.isLt; simp; omega)
        refine ⟨1, .head hw hread ?_⟩
        rw [answerStep_last p hm h10]
        have hstore : k.store b = { k with buf := k.buf.set 10 b } := by simp [Block.store, h10]
        rw [hstore]
        simpa using ReaderRuns.refl p _

/-- The start step and the byte steps after it come to where `READ_FRAME` does (R87). -/
theorem readerRuns_readFrame (p : Params) (k : Block) (e : Env) : ∃ n, ReaderRuns p n (startRead k e) (readFrame p k e) := by
  rcases hl : e.linkUp with ⟨_ | _, e1⟩
  · rw [startRead_of_down hl, readFrame_of_down hl]
    exact ⟨0, .refl p _⟩
  · rw [startRead_of_up hl]
    obtain ⟨n, hn⟩ := readerRuns_hunt p (huntBound p e1) (k := k.beginHunt) e1 rfl
    rcases hh : hunt p (huntBound p e1) k.beginHunt e1 with ⟨k', e'⟩ | ⟨k', e'⟩ | ⟨k', e'⟩ <;> rw [hh] at hn
    · obtain ⟨j, hj⟩ := readerRuns_collect p Config.bodyLen (k := k'.markerFound) e' rfl
      exact ⟨n + j, readFrame_of_found hl hh ▸ hn.trans hj⟩
    · exact ⟨n, readFrame_of_over hl hh ▸ hn⟩
    · exact ⟨n, readFrame_of_going hl hh ▸ hn⟩

/-- The machine left to itself makes a run of its reader one step at a time, and concludes it in the last step. -/
theorem run_of_readerRuns {s : State} {n : Nat} {m m' : Block × Env} (hin : s.caller.inputs = []) (hw : m.1.mode ≠ .idle)
    (h : ReaderRuns s.params n m m') : run n (s.put m) = conclude (s.put m') := by
  induction n generalizing m with
  | zero =>
    obtain rfl : m = m' := h.1
    exact (conclude_going hw).symm
  | succ n ih =>
    obtain ⟨-, h⟩ := readerRuns_succ.1 h
    have hstep : step (s.put m) = conclude (s.put (readerStep s.params m)) := by
      rw [← exchange_of_working s.params hw]
      simp only [step, State.put_caller, hin]
      exact carryOn_of_busy (Block.busy_of_mode hw)
    by_cases hm : (readerStep s.params m).1.mode = .idle
    · obtain ⟨rfl, rfl⟩ := h.of_idle hm
      rw [run_succ 0 (hstep.trans (conclude_ended hm)), run, conclude_ended hm]
    · rw [run_succ n (hstep.trans (conclude_going hm)), ih hm h]

/-! ### The end of a reader (R70, R124) -/

theorem closeReader_of_standalone {s : State} (hp : s.blk.polling = false) : closeReader s = closeRead s := by
  unfold closeReader; rw [if_neg (by simp [hp])]

/-- A stand-alone reader that has ended answers the caller, and its candidate changes nothing more. -/
theorem conclude_standalone {s : State} (hended : s.blk.Ended) (hp : s.blk.polling = false) :
    conclude s = .next (s.setReply (some (readReply s.blk))) := by
  have hexecuted : s.setBlk s.blk.executed = s := by rw [Block.executed_of_ended hended, if_neg (by simp [hp])]; rfl
  rw [conclude_ended hended.mode, hexecuted, closeReader_of_standalone hp, closeRead_of_idle hended.mode]

/-- In a poll cycle its frame, if any, is applied, and the iteration is counted. -/
theorem conclude_in_cycle {s : State} (hended : s.blk.Ended) (hp : s.blk.polling = true) :
    ∃ t, conclude s = .next t ∧ IterationCounted (s.setBlk s.blk.applyRead) t := by
  obtain ⟨t, ht, hcounted⟩ := conclude_counted hended.mode hp
  rw [Block.executed_of_ended hended, if_pos hp] at hcounted
  exact ⟨t, ht, hcounted⟩

/-- A stand-alone reader that has ended, or hunts on, is closed as the issued operation is. -/
theorem conclude_eq_closeRead {s : State} (hended : s.blk.mode = .idle → s.blk.Ended) (hp : s.blk.polling = false) :
    conclude s = .next (closeRead s) := by
  by_cases hm : s.blk.mode = .idle
  · rw [conclude_standalone (hended hm) hp, closeRead_of_idle hm]
  · rw [conclude_going hm, closeRead_of_working hm]

/-- A strobe of `READ_FRAME` to an idle block makes the start step (R81). -/
theorem step_strobe_readFrame {s : State} {rest : List Input} (hin : s.caller.inputs = .strobe 1 :: rest) (hb : s.blk.busy = false) :
    step s = .next (closeRead (({ s with caller := ⟨rest, none⟩ } : State).put (startRead s.blk s.env))) := by
  simp only [step, hin]
  exact whenIdle_of_idle (f := fun s => closeRead ((s.setReply none).put (startRead s.blk s.env))) (s := s.setInputs rest) hb

/-- Left to itself, a busy block makes one exchange and concludes it. -/
theorem step_of_quiet_busy {s : State} {rest : List Input} (hq : QuietNext s rest) (hb : s.blk.busy = true) :
    step s = conclude (({ s with caller := ⟨rest, s.caller.reply⟩ } : State).put (exchange s.params (s.blk, s.env))) := by
  rw [step_of_quiet hq]
  exact carryOn_of_busy (s := { s with caller := ⟨rest, s.caller.reply⟩ }) hb

/-- Of a reader at work the exchange is one answer. -/
theorem step_of_working {s : State} {rest : List Input} (hq : QuietNext s rest) (hw : s.blk.mode ≠ .idle) :
    step s = conclude { s with
      blk := answerStep s.params s.env.rxRead.1 s.blk, env := s.env.rxRead.2, caller := ⟨rest, s.caller.reply⟩ } := by
  rw [step_of_quiet_busy hq (Block.busy_of_mode hw), exchange_of_working _ hw, readerStep_of_working _ hw rfl]
  rfl

/-- Between two iterations of a cycle it is the start step of the next one. -/
theorem step_between_iterations {s : State} {rest : List Input} (hq : QuietNext s rest) (hm : s.blk.mode = .idle)
    (hp : s.blk.polling = true) :
    step s = conclude (({ s with caller := ⟨rest, s.caller.reply⟩ } : State).put (startRead s.blk s.env)) := by
  rw [step_of_quiet_busy hq (Block.busy_of_polling hp), exchange_of_idle s.params s.env hm]

/-- The strobed operation, left to itself, comes to the state of the issued one (R8, R87). -/
theorem run_strobed_readFrame {s : State} (hin : s.caller.inputs = [.strobe 1]) (hb : s.blk.busy = false) :
    ∃ n, run n s = .next (closeRead (({ s with caller := ⟨[], none⟩ } : State).put (readFrame s.params s.blk s.env))) := by
  have hstep := step_strobe_readFrame hin hb
  obtain ⟨n, hn⟩ := readerRuns_readFrame s.params s.blk s.env
  by_cases hm : (startRead s.blk s.env).1.mode = .idle
  · obtain ⟨-, hsame⟩ := hn.of_idle hm
    exact ⟨1, by rw [run_succ 0 hstep, run, hsame]⟩
  · have hpolling := (readFrame_polling s.params s.blk s.env).trans (Block.busy_eq_false.1 hb).2
    rw [closeRead_of_working (by exact hm)] at hstep
    refine ⟨n + 1, ?_⟩
    rw [run_succ n hstep, run_of_readerRuns (s := { s with caller := ⟨[], none⟩ }) rfl hm hn]
    exact conclude_eq_closeRead readFrame_ended hpolling

end Sys2Proof.Machine

namespace Sys2Proof.Proofs
open Sys2Proof.Machine

/-- Settles O14: the three hunting answers are no data, the marker and garbage. -/
theorem huntingByteSteps : Obligations.HuntingByteSteps := by
  intro p k e e' r hm hread
  rw [readerStep_of_working p (by simp [hm]) hread]
  refine ⟨?_, ?_, fun b hr hb => ?_⟩
  · rintro rfl
    rw [answerStep_hunt_none p hm]
  · rintro rfl
    exact congrArg (·, e') (answerStep_marker p hm)
  · subst hr
    rw [answerStep_garbage p hm hb]
    refine ⟨fun hlim => ?_, fun n _ hlim hne => ?_, fun n hlim heq => ?_⟩
    · simp [hlim, Block.limitReached]
    · simp [hlim, Block.limitReached, Block.countDiscard, Ne.symm hne]
    · simp [hlim, Block.limitReached, Block.countDiscard, heq]

/-- Settles O15: the three collecting answers are no data, a byte up to `IDX` 9 and the last byte. -/
theorem collectingByteSteps : Obligations.CollectingByteSteps := by
  intro p k e e' r hm hread
  rw [readerStep_of_working p (by simp [hm]) hread]
  refine ⟨?_, ?_⟩
  · rintro rfl
    rw [answerStep_collect_none p hm]
  · rintro b rfl
    refine ⟨fun h9 => ?_, fun h10 hsum => ?_, fun h10 hsum => ?_⟩
    · have hnext : nextIdx k.idx = ⟨k.idx.val + 1, by omega⟩ := Fin.ext (nextIdx_val h9)
      rw [answerStep_take p hm h9, Block.take, Block.advance]
      simp [hnext, Block.accumulate, Block.store]
    · rw [answerStep_last p hm (Fin.ext h10), verdict, if_pos hsum]
    · rw [answerStep_last p hm (Fin.ext h10), verdict, if_neg hsum]

/-- Settles O13: with the link up the start step begins a hunt; with it down the reader has ended without a candidate, so that it is
closed at once. -/
theorem startStepMakesNoReadAttempt : Obligations.StartStepMakesNoReadAttempt := by
  intro s rest up e hl
  have he : s.env.linkUp.2 = e := by rw [hl]
  refine ⟨by simp [← he], by simp [← he], fun hin hb => ?_, fun hq hm hp => ?_⟩
  · rw [step_strobe_readFrame hin hb]
    constructor
    · rintro rfl
      rw [startRead_of_up hl, closeRead_of_working (by simp)]
      rfl
    · rintro rfl
      rw [startRead_of_down hl, closeRead_of_idle (by simp)]
      rfl
  · rw [step_between_iterations hq hm hp]
    constructor
    · rintro rfl
      rw [startRead_of_up hl, conclude_going (by simp)]
      rfl
    · rintro rfl
      rw [startRead_of_down hl]
      exact conclude_counted (s := State.put { s with caller := ⟨rest, s.caller.reply⟩ } (s.blk.beginHunt.finish .noData, e)) rfl hp

/-- Settles O16: an idle block stays, and a reader at work meets its invariant, so that an answer that ends it ends it as the reader
ends. -/
theorem runningReaderTakesOneAnswerAStep : Obligations.RunningReaderTakesOneAnswerAStep := by
  refine ⟨fun s rest hq hb => ?_, fun s rest hq hw hinv => ?_⟩
  · rw [step_of_quiet hq]
    exact carryOn_of_idle hb
  · intro k s'
    have hstep : step s = conclude s' := step_of_working hq hw
    have hpolling : k.polling = s.blk.polling := (answerStep_side s.params s.env.rxRead.1 s.blk).2.2.2.2
    have hended : k.mode = .idle → k.Ended := (s.blk.inv_iff.1 hinv).2.answerStep_ended hw
    rw [hstep]
    refine ⟨conclude_going (s := s'), fun hi hp => ?_, fun hi hp => ?_⟩
    · rw [conclude_standalone (s := s') (hended hi) (hpolling.trans hp), readReply_eq]
      rfl
    · exact conclude_in_cycle (s := s') (hended hi) (hpolling.trans hp)

/-- Settles O17: the hunting steps follow the hunt loop and the collecting steps the collect loop. -/
theorem byteStepsAgreeWithReadFrame : Obligations.ByteStepsAgreeWithReadFrame := readerRuns_readFrame

/-- Settles O38: the strobe makes the start step, the steps that follow make the byte steps of O17, and the reader that ends, if it
ends, answers the caller as the issued operation does. -/
theorem strobedReadFrameEqualsIssuedReadFrame : Obligations.StrobedReadFrameEqualsIssuedReadFrame := by
  intro s hb hin
  refine ⟨_, exec_readFrame hb, ?_⟩
  obtain ⟨n, hn⟩ := run_strobed_readFrame (s := { s with caller := ⟨[.strobe 1], s.caller.reply⟩ }) rfl hb
  exact ⟨n, by rw [hn, State.setReply, hin]⟩

end Sys2Proof.Proofs

namespace Sys2Proof.Machine

/-! ### Hunts that never end (R92, R173) -/

/-- For ever the environment answers with bytes that a hunt discards. -/
def Env.Endless (e : Env) : Prop := ∀ n, ∀ a ∈ (e.reads n).1, ∃ b, a = some b ∧ b ≠ Config.marker

theorem Env.Endless.reads {e : Env} (h : e.Endless) (m : Nat) : (e.reads m).2.Endless := by
  intro n a ha
  refine h (m + n) a ?_
  rw [Env.reads_add]
  exact List.mem_append_right _ ha

theorem Env.Endless.rxRead {e : Env} (h : e.Endless) : (∃ b, e.rxRead.1 = some b ∧ b ≠ Config.marker) ∧ e.rxRead.2.Endless :=
  ⟨h 1 _ (by simp [Env.reads_succ]), h.reads 1⟩

/-- A machine left to itself, hunting without a limit and without an answer to the caller, against such an environment. -/
structure State.HuntsForEver (s : State) : Prop where
  inputs : s.caller.inputs = []
  reply : s.caller.reply = none
  limit : s.params.huntLimit = none
  mode : s.blk.mode = .hunt
  endless : s.env.Endless

/-- Each step discards one byte. -/
theorem State.HuntsForEver.step {s : State} (h : s.HuntsForEver) : ∃ t, step s = .next t ∧ t.HuntsForEver := by
  obtain ⟨hin, hreply, hlim, hm, hendless⟩ := h
  obtain ⟨⟨b, hread, hb⟩, hrest⟩ := hendless.rxRead
  have hanswer : answerStep s.params s.env.rxRead.1 s.blk = s.blk := by
    rw [hread, answerStep_garbage s.params hm hb, hlim]
    rfl
  rw [step_of_working (.inr ⟨hin, rfl⟩) (by simp [hm]), hanswer, conclude_going (by simp [hm])]
  exact ⟨_, rfl, rfl, hreply, hlim, hm, hrest⟩

theorem State.HuntsForEver.run {s : State} (h : s.HuntsForEver) (n : Nat) : ∃ t, run n s = .next t ∧ t.HuntsForEver := by
  induction n generalizing s with
  | zero => exact ⟨s, rfl, h⟩
  | succ n ih =>
    obtain ⟨t, hstep, ht⟩ := h.step
    rw [run_succ n hstep]
    exact ih ht

/-- `READ_FRAME` begins such a hunt and leaves it running. -/
theorem readFrame_of_endless {p : Params} {k : Block} {e e1 : Env} (hl : e.linkUp = (true, e1)) (hlim : p.huntLimit = none)
    (h : e1.Endless) : readFrame p k e = (k.beginHunt, (e1.reads (huntBound p e1)).2) :=
  readFrame_of_going hl (hunt_of_garbage p _ k.beginHunt e1 hlim (h _))

/-! ### A candidate that is no frame (R76, R144) -/

/-- A wrong checksum byte: the candidate fills the reader's registers, and nothing is applied. -/
theorem runFrame_of_bad_checksum {h : Byte} (kind : Kind) {p : Payload} (k : Block) (hbad : p.csum ≠ checksum (frameBytes h p)) :
    runFrame h kind p k = { k with
      buf := frameBytes h p, sum := checksum (frameBytes h p), idx := 0, mode := .idle, status := .badChecksum, outValid := true } := by
  simp [runFrame, Block.frameValid, Block.takeCandidate, Block.finish, verdict, hbad]

theorem exec_frame_of_bad_checksum {i : Instr} {h : Byte} {kind : Kind} {p : Payload} (s : State)
    (hi : frameRow i = some (h, kind, p)) (hbad : p.csum ≠ checksum (frameBytes h p)) :
    exec i s = .next (s.setBlk { s.blk with
      buf := frameBytes h p, sum := checksum (frameBytes h p), idx := 0, mode := .idle, status := .badChecksum, outValid := true }) := by
  rw [exec_of_frameRow hi, runFrame_of_bad_checksum kind s.blk hbad]

/-! ### A candidate decoded whole (R76) -/

@[simp] theorem runFrame_mode (h : Byte) (kind : Kind) (p : Payload) (k : Block) : (runFrame h kind p k).mode = .idle := by
  obtain h' | h' := runFrame_cases h kind p k <;> simp [h']

/-- Eleven bytes that the decoder reads to their end are a candidate: an operation code takes one byte. -/
theorem decode_candidate {b : FrameBuf} {i : Instr} (h : decode b.toList = .ok (i, [])) : i = decodeFrame b := by
  obtain ⟨b', -, hbytes, rfl⟩ | ⟨c, hbytes, -⟩ := decode_cases h
  · rw [List.append_nil] at hbytes
    rw [Vector.toList_inj.1 hbytes]
  · have hlen := congrArg List.length hbytes
    simp at hlen

end Sys2Proof.Machine

namespace Sys2Proof.Proofs
open Sys2Proof.Machine

/-- Settles O24: the operation leaves the block hunting, and each further step discards one byte more. -/
theorem endlessHuntNeverEnds : Obligations.EndlessHuntNeverEnds := by
  intro s e hb hin hl hlim hendless
  have hread := readFrame_of_endless (k := s.blk) hl hlim hendless
  rw [exec_readFrame hb, hread, closeRead_of_working (by simp)]
  refine ⟨_, rfl, rfl, rfl, fun n => ?_⟩
  have hstarts : State.HuntsForEver ((s.setReply none).put (s.blk.beginHunt, (e.reads (huntBound s.params e)).2)) :=
    ⟨hin, rfl, hlim, rfl, Env.Endless.reads hendless _⟩
  obtain ⟨u, hu, hhunts⟩ := hstarts.run n
  exact ⟨u, hu, hhunts.mode, hhunts.reply⟩

/-- Settles O41: each of the four headers is a frame row. -/
theorem badChecksumDiscardsTheFrame : Obligations.BadChecksumDiscardsTheFrame := by
  intro h p s hbad
  refine ⟨?_, ?_, ?_, fun _ _ _ => exec_frame_of_bad_checksum s rfl hbad⟩ <;> rintro rfl <;>
    exact exec_frame_of_bad_checksum s rfl hbad

/-- Settles O44: the step executes the candidate's row and closes the reader, alone or in a cycle. -/
theorem lastByteExecutesTheFrame : Obligations.LastByteExecutesTheFrame := by
  intro s rest x e i hq hm hi hread hdecode
  obtain rfl := decode_candidate hdecode
  refine ⟨_, exec_of_frameRow (frameRow_decodeFrame _) _, fun hp => ?_, fun hp => ?_⟩ <;>
    rw [step_of_last_byte hq hm hi hread rfl]
  · rw [closeReader_of_standalone (by simpa using hp), closeRead_of_idle (by simp), readReply_eq]
    rfl
  · refine ⟨_, rfl, ?_⟩
    rw [closeReader_of_polling (by simpa using hp)]
    exact afterIteration_counted _

end Sys2Proof.Proofs

namespace Sys2Proof

/-! ### What decoding reads (R100, R103, R105) -/

theorem unmappedHeader_iff (h : Byte) : unmappedHeader h = true ↔ h ≠ 0x51 ∧ h ≠ 0x52 ∧ h ≠ 0x53 := by
  simp [unmappedHeader, Config.hdrAcc, Config.hdrGyro, Config.hdrAngle, and_assoc]

/-- Each kind's headers (R58, R100). -/
theorem classify_iff (h : Byte) :
    (classify h = .acc ↔ h = 0x51) ∧ (classify h = .gyro ↔ h = 0x52) ∧ (classify h = .angle ↔ h = 0x53) ∧
    (classify h = .unknown ↔ h ≠ 0x51 ∧ h ≠ 0x52 ∧ h ≠ 0x53) := by
  obtain ⟨-, rfl⟩ | ⟨-, rfl⟩ | ⟨-, rfl⟩ | ⟨hc, hu⟩ := classify_cases h
  · decide
  · decide
  · decide
  · obtain ⟨hacc, hgyro, hangle⟩ := (unmappedHeader_iff h).1 hu
    rw [hc]
    exact ⟨iff_of_false nofun hacc, iff_of_false nofun hgyro, iff_of_false nofun hangle, iff_of_true rfl ⟨hacc, hgyro, hangle⟩⟩

/-- Buffers that agree on bytes 1 to 7 decode alike (R105, R112). -/
theorem decodeFields_congr {b b' : FrameBuf} (h : ∀ i (hi : i < 11), 1 ≤ i → i ≤ 7 → b[i] = b'[i]) :
    decodeFields b = decodeFields b' := by
  simp [decodeFields, fieldsOf, h]

@[simp] theorem decodeFields_frameBytes (h : Byte) (p : Payload) : decodeFields (frameBytes h p) = (classify h, p.fields) := by
  simp [decodeFields]

/-- The reserved bytes are the last two summands of a frame's checksum (R55, R56). -/
theorem checksum_frameBytes (h : Byte) (p : Payload) :
    checksum (frameBytes h p) = checksum (frameBytes h { p with rsv0 := 0, rsv1 := 0 }) + p.rsv0 + p.rsv1 := by
  simp [checksum, frameBytes]

end Sys2Proof

namespace Sys2Proof.Machine

/-! ### Readings of a field (R104) -/

theorem signed16_eq_signExtend (v : Field16) : signed16 v = (v.signExtend 17).toInt := by
  rw [BitVec.toInt_signExtend_of_le (by decide), signed16, BitVec.toInt_eq_toNat_cond]
  split <;> split <;> omega

theorem unsigned16_eq_zeroExtend (v : Field16) : unsigned16 v = (v.zeroExtend 17).toInt := by
  have hnat : (v.zeroExtend 17).toNat = v.toNat := BitVec.toNat_setWidth_of_le (by decide)
  rw [BitVec.toInt_eq_toNat_of_lt (by omega), hnat, unsigned16]

/-! ### Applies (R110, R112) -/

/-- Every kind's apply at once: the latches it stores, and `APPLIED`, which an UNKNOWN frame keeps. -/
theorem Block.apply_eq (kind : Kind) (v : Fields) (k : Block) :
    k.apply kind v = { k with raw := k.raw.store kind v, applied := kind != .unknown || k.applied } := by
  cases kind <;> rfl

theorem Raw.store_comm {i j : Kind} (hij : i ≠ j) (r : Raw) (u v : Fields) : (r.store i u).store j v = (r.store j v).store i u := by
  cases i <;> cases j <;> simp_all [Raw.store]

@[simp] theorem Raw.store_store (kind : Kind) (r : Raw) (u v : Fields) : (r.store kind u).store kind v = r.store kind v := by
  cases kind <;> rfl

/-! ### Accepted frames (R76, R106 to R110) -/

/-- An accepted candidate's registers: its checksum byte is the sum, and the result is a frame. -/
theorem Block.takeCandidate_of_isFrame {h : Byte} {p : Payload} (k : Block) (hf : isFrame (frameBytes h p) = true) :
    k.takeCandidate (frameBytes h p) =
      { k with buf := frameBytes h p, sum := p.csum, idx := 0, mode := .idle, status := .frame, outValid := true } := by
  simp [Block.takeCandidate, Block.finish, checksum_frameBytes_of_isFrame hf, verdict]

/-- An accepted frame in a cycle is taken and applied (R124), and nothing but the block changes. -/
theorem exec_frame_in_cycle {i : Instr} {h : Byte} {kind : Kind} {p : Payload} {s : State} (hi : frameRow i = some (h, kind, p))
    (hp : s.blk.polling = true) (hf : isFrame (frameBytes h p) = true) :
    exec i s = .next (s.setBlk (({ s.blk with
      buf := frameBytes h p, sum := p.csum, idx := 0, mode := .idle, status := .frame, outValid := true } : Block).apply
        kind p.fields)) := by
  rw [exec_of_frameRow hi, runFrame, Block.takeCandidate_of_isFrame s.blk hf]
  simp [Block.frameValid, hp]

end Sys2Proof.Machine

namespace Sys2Proof.Proofs
open Sys2Proof.Machine

/-- Settles O7: each field is a pair whose later byte is the more significant. -/
theorem fieldsAreLittleEndian : Obligations.FieldsAreLittleEndian :=
  fun b => ⟨pair_toNat b[2] b[3], pair_toNat b[4] b[5], pair_toNat b[6] b[7]⟩

/-- Settles O8: the decoded kind is the class of byte 1. -/
theorem headerAloneSelectsTheKind : Obligations.HeaderAloneSelectsTheKind :=
  ⟨classify_iff, fun _ _ hheader => ⟨congrArg classify hheader, rfl⟩, rfl, rfl, rfl, rfl⟩

/-- Settles O9: the ACC and GYRO reading is the signed one, the ANGLE reading the unsigned one, of one 16-bit pattern. -/
theorem fieldReadingFollowsTheKind : Obligations.FieldReadingFollowsTheKind := by
  intro v
  have hvalue : signed16 v = if v.toNat ≤ 0x7FFF then (v.toNat : Int) else (v.toNat : Int) - 65536 := by
    unfold signed16
    split <;> split <;> omega
  refine ⟨hvalue, rfl, rfl, signed16_eq_signExtend v, unsigned16_eq_zeroExtend v, ?_⟩
  simp only [fieldValue, unsigned16, hvalue]
  split <;> omega

/-- Settles O10: the four bytes written lie outside bytes 1 to 7. -/
theorem decoderReadsBytesOneToSeven : Obligations.DecoderReadsBytesOneToSeven := by
  intro b m r0 r1 c k b'
  have hdecode : decodeFields b' = decodeFields b := by
    refine decodeFields_congr fun i hi h1 h7 => ?_
    simp only [b', Vector.getElem_set]
    rw [if_neg (by omega), if_neg (by omega), if_neg (by omega), if_neg (by omega)]
  exact ⟨hdecode, by rw [hdecode]⟩

/-- Settles O12: both checksums are the one of the frame with zero reserved bytes, plus their own. -/
theorem reservedBytesMoveOnlyTheChecksum : Obligations.ReservedBytesMoveOnlyTheChecksum := by
  intro h p r0 r1
  refine ⟨?_, by rw [decodeFields_frameBytes, decodeFields_frameBytes]; rfl⟩
  rw [checksum_frameBytes h p, checksum_frameBytes h { p with rsv0 := r0, rsv1 := r1 }]
  ring

/-- Settles O35: each kind's case of `apply`. -/
theorem applyWritesOneLatchGroup : Obligations.ApplyWritesOneLatchGroup :=
  fun _ _ => ⟨rfl, rfl, rfl, rfl⟩

/-- Settles O36: an apply is a latch store and a disjunction on `APPLIED`, and each of the two commutes and absorbs. -/
theorem appliesOfDifferentKindsCommute : Obligations.AppliesOfDifferentKindsCommute := by
  intro i j u v k
  simp only [Block.apply_eq]
  refine ⟨fun hij => ?_, ?_⟩
  · rw [Raw.store_comm hij, Bool.or_left_comm]
  · rw [Raw.store_store, Bool.or_self_left]

/-- Settles O39: the three known kinds, taken and applied. -/
theorem knownFrameIsAppliedInAPoll : Obligations.KnownFrameIsAppliedInAPoll := by
  intro p s hp
  refine ⟨fun hf => ?_, fun hf => ?_, fun hf => ?_⟩ <;> rw [exec_frame_in_cycle rfl hp hf] <;> rfl

/-- Settles O40: in a cycle the apply of an UNKNOWN frame is nothing, and outside there is none. -/
theorem unknownFrameChangesNoLatch : Obligations.UnknownFrameChangesNoLatch := by
  intro h p s _ hf
  cases hp : s.blk.polling
  · exact exec_frame_outside_cycle rfl hp hf
  · rw [exec_frame_in_cycle rfl hp hf]; rfl

end Sys2Proof.Proofs

namespace Sys2Proof.Machine

/-! ### A `POLL` answered (R120, R126) -/

theorem closePoll_of_ended {s : State} (hp : s.blk.polling = false) : closePoll s = s.setReply (some (.poll s.blk.pollResult)) := by
  simp [closePoll, hp]

theorem closePoll_of_running {s : State} (hp : s.blk.polling = true) : closePoll s = s := by
  simp [closePoll, hp]

/-- An issued `POLL` that ends leaves the cycle's block and environment, and answers the caller. -/
theorem exec_poll_of_ended {s : State} {k : Block} {e : Env} (hb : s.blk.busy = false) (h : poll s.params s.blk s.env = (k, e))
    (hp : k.polling = false) :
    exec .poll s = .next { s with blk := k, env := e, caller := ⟨s.caller.inputs, some (.poll k.pollResult)⟩ } := by
  rw [exec_poll hb, h, closePoll_of_ended (by exact hp)]
  rfl

/-! ### The gate (R121, R122) -/

theorem Env.linkUp_log_of {e e' : Env} {up : Bool} (hl : e.linkUp = (up, e')) : e'.log = .linkUp up :: e.log := by
  obtain ⟨rfl, rfl⟩ := Prod.mk.inj hl
  exact e.linkUp_log

theorem poll_of_down (p : Params) (k : Block) {e e' : Env} (hl : e.linkUp = (false, e')) : poll p k e = (k.beginPoll.defer, e') := by
  simp [poll, pollGate, hl]

theorem poll_below_threshold (p : Params) (k : Block) {e : Env} (hup : e.linkUp.1 = true) (hlen : e.fifo.length ≤ 43) :
    poll p k e = (k.beginPoll.defer, e.linkUp.2.rxCount.2) := by
  obtain ⟨hdown, -⟩ | ⟨-, -, h⟩ | ⟨-, hlen', -⟩ := poll_cases p k e
  · rw [hup] at hdown; cases hdown
  · exact h
  · omega

theorem poll_above_threshold (p : Params) (k : Block) {e : Env} (hup : e.linkUp.1 = true) (hlen : 44 ≤ e.fifo.length) :
    poll p k e = pollLoop p 4 k.beginPoll.openCycle e.linkUp.2.rxCount.2 := by
  obtain ⟨hdown, -⟩ | ⟨-, hlen', -⟩ | ⟨-, -, h⟩ := poll_cases p k e
  · rw [hup] at hdown; cases hdown
  · omega
  · exact h

/-! ### What a cycle leaves (R126, R127, R173) -/

theorem cycleResult_iff (m : PollReturnMode) (a : Bool) : cycleResult m a = true ↔ m = .cycleRan ∨ a = true := by
  cases m <;> simp [cycleResult]

/-- What a cycle leaves: it has ended at rest, with its result in `POLL_RESULT`, or hunts in one of its iterations. -/
def Block.CycleLeft (p : Params) (k : Block) : Prop :=
  (k.polling = false ∧ k.pollResult = cycleResult p.returnMode k.applied ∧ k.pcnt = 0 ∧ k.mode = .idle) ∨
  (k.polling = true ∧ k.mode = .hunt)

theorem pollLoop_cycleLeft (p : Params) (n : Nat) {k : Block} (e : Env) (hp : k.polling = true) (hm : k.mode = .idle) :
    (pollLoop p n k e).1.CycleLeft p := by
  refine pollLoop_induct p (fun k _ => k.polling = true ∧ k.mode = .idle) (fun r => r.1.CycleLeft p) ?_ ?_ ?_ n k e ⟨hp, hm⟩
  · rintro k e ⟨hp, -⟩ hhunt
    exact .inr ⟨(readFrame_polling p k e).trans hp, hhunt⟩
  · rintro k e ⟨-, hm⟩
    exact .inl ⟨rfl, rfl, rfl, hm⟩
  · rintro k e ⟨hp, -⟩ hm
    exact ⟨(afterRead_fields p k e).2.2.1.trans hp, (afterRead_rests p hm).1⟩

/-- A `POLL` of an idle block leaves the same, and one that its gate has deferred has ended with the result false. -/
theorem poll_result (p : Params) {k : Block} (e : Env) (hb : k.busy = false) :
    ((poll p k e).1.polling = false ∧
      ((poll p k e).1.pollResult = true ↔
        e.linkUp.1 = true ∧ 44 ≤ e.fifo.length ∧ (p.returnMode = .cycleRan ∨ (poll p k e).1.applied = true)) ∧
      (poll p k e).1.pcnt = 0 ∧ (poll p k e).1.mode = .idle) ∨
    ((poll p k e).1.polling = true ∧ (poll p k e).1.mode = .hunt) := by
  obtain ⟨hm, hp⟩ := Block.busy_eq_false.1 hb
  obtain ⟨hdown, h⟩ | ⟨-, hlen, h⟩ | ⟨hup, hlen, h⟩ := poll_cases p k e <;> rw [h]
  · exact .inl ⟨hp, iff_of_false (by simp) fun hup => Bool.noConfusion (hdown.symm.trans hup.1), rfl, hm⟩
  · exact .inl ⟨hp, by simp [Nat.not_le.2 hlen], rfl, hm⟩
  · refine (pollLoop_cycleLeft p 4 e.linkUp.2.rxCount.2 (k := k.beginPoll.openCycle) rfl hm).imp_left ?_
    rintro ⟨hended, hresult, hrest⟩
    exact ⟨hended, by rw [hresult, cycleResult_iff]; exact ⟨fun hmode => ⟨hup, hlen, hmode⟩, fun h => h.2.2⟩, hrest⟩

/-- Every reader of a cycle ends where the source falls silent or `HUNT_LIMIT` is at least 1, and so does the cycle. -/
theorem pollLoop_ends (p : Params) (n : Nat) (k : Block) (e : Env) (h : e.tail = none ∨ ∃ n, 1 ≤ n ∧ p.huntLimit = some n) :
    (pollLoop p n k e).1.polling = false := by
  refine pollLoop_induct p (fun _ e => e.tail = none ∨ ∃ n, 1 ≤ n ∧ p.huntLimit = some n) (fun r => r.1.polling = false)
    ?_ ?_ ?_ n k e h
  · intro k e h hhunt
    rw [readFrame_ends p k e h] at hhunt; cases hhunt
  · intro k e _
    rfl
  · intro k e h _
    rwa [readFrame_env_tail]

theorem poll_ends (p : Params) {k : Block} {e : Env} (hb : k.busy = false) (h : e.tail = none ∨ ∃ n, 1 ≤ n ∧ p.huntLimit = some n) :
    (poll p k e).1.polling = false := by
  obtain ⟨-, hp⟩ := Block.busy_eq_false.1 hb
  obtain ⟨-, h'⟩ | ⟨-, -, h'⟩ | ⟨-, -, h'⟩ := poll_cases p k e <;> rw [h']
  · exact hp
  · exact hp
  · exact pollLoop_ends p 4 _ _ (by simpa using h)

/-- A cycle in which `APPLIED` is clear at the end has never stored a latch (R110, R124). -/
theorem pollLoop_raw (p : Params) (n : Nat) {k : Block} {e : Env} (h : (pollLoop p n k e).1.applied = false) :
    (pollLoop p n k e).1.raw = k.raw := by
  refine pollLoop_induct p (fun k' _ => k'.applied = false → k'.raw = k.raw) (fun r => r.1.applied = false → r.1.raw = k.raw)
    ?_ ?_ ?_ n k e (fun _ => rfl) h
  · intro k' e hraw _ happlied
    obtain ⟨⟨hr, -, -, ha, -⟩, -⟩ := readFrame_side p k' e
    exact hr.trans (hraw (ha ▸ happlied))
  · intro k' e hraw
    exact hraw
  · intro k' e hraw _ happlied
    obtain ⟨hset, hkept⟩ := afterRead_applied p k' e
    exact (hkept happlied).trans (hraw (by simpa [happlied] using hset))

theorem poll_raw (p : Params) {k : Block} {e : Env} (h : (poll p k e).1.applied = false) : (poll p k e).1.raw = k.raw := by
  obtain ⟨-, h'⟩ | ⟨-, -, h'⟩ | ⟨-, -, h'⟩ := poll_cases p k e <;> rw [h'] at h ⊢
  · rfl
  · rfl
  · exact pollLoop_raw p 4 h

/-! ### The exchanges of a cycle (R33, R122, R123, R125) -/

/-- An open gate samples each of the two once. -/
theorem gate_samples (e : Env) :
    linkSamples e.linkUp.2.rxCount.2.log = linkSamples e.log + 1 ∧ countSamples e.linkUp.2.rxCount.2.log = countSamples e.log + 1 := by
  simp

/-- A `READ_FRAME` samples the link once and the count never. -/
theorem readFrame_samples (p : Params) (k : Block) (e : Env) :
    linkSamples (readFrame p k e).2.log = linkSamples e.log + 1 ∧ countSamples (readFrame p k e).2.log = countSamples e.log := by
  obtain ⟨n, h⟩ := readFrame_env p k e
  obtain ⟨-, hlink, hcount⟩ := Env.reads_measures n e.linkUp.2
  rw [h, hlink, hcount]
  simp

/-- A cycle that ends made as many reader invocations as were left to it, or fewer, though at least one, where it may stop early. -/
theorem pollLoop_samples (p : Params) (n : Nat) {k : Block} (e : Env) (hp : k.polling = true) (hn : k.pcnt.val + n = 4)
    (hended : (pollLoop p n k e).1.polling = false) :
    countSamples (pollLoop p n k e).2.log = countSamples e.log ∧
    ∃ j, linkSamples (pollLoop p n k e).2.log = linkSamples e.log + j ∧ j ≤ n ∧
      (n ≠ 0 → 1 ≤ j) ∧ (p.stopOnNoData = false → j = n) := by
  induction n generalizing k e with
  | zero => exact ⟨rfl, 0, rfl, by omega, by omega, fun _ => rfl⟩
  | succ n ih =>
    obtain ⟨-, hpcnt, hpolling, -⟩ := afterRead_fields p k e
    obtain ⟨hlink, hcount⟩ := readFrame_samples p k e
    obtain ⟨-, h⟩ | ⟨-, ⟨hstop, h⟩ | ⟨-, h⟩⟩ := pollLoop_succ p n k e (by omega) <;> rw [h] at hended ⊢
    · rw [readFrame_polling, hp] at hended; cases hended
    · refine ⟨hcount, 1, hlink, by omega, fun _ => le_rfl, fun hparam => ?_⟩
      simp [Block.stopsEarly, hparam] at hstop
    · have hbelow : (afterRead p k e).pcnt.val + n = 4 := by rw [hpcnt, nextPcnt_val (by omega)]; omega
      obtain ⟨hcount', j, hlink', hj, -, hall⟩ := ih (readFrame p k e).2 (hpolling.trans hp) hbelow hended
      exact ⟨hcount'.trans hcount, j + 1, by omega, by omega, fun _ => by omega, fun hparam => by rw [hall hparam]⟩

end Sys2Proof.Machine

namespace Sys2Proof.Proofs
open Sys2Proof.Machine

/-- Settles O28: the gate defers the `POLL` at its link sample. -/
theorem pollWithLinkDown : Obligations.PollWithLinkDown := by
  intro s e hb hl
  have hended : s.blk.beginPoll.defer.polling = false := (Block.busy_eq_false.1 hb).2
  obtain rfl : s.env.linkUp.2 = e := by rw [hl]
  exact ⟨exec_poll_of_ended hb (poll_of_down s.params s.blk hl) hended, Env.linkUp_log_of hl, s.env.linkUp_fifo, s.env.linkUp_waits⟩

/-- Settles O29: the gate defers the `POLL` at its count. -/
theorem pollBelowThreshold : Obligations.PollBelowThreshold := by
  intro s e hb hl hlen
  have hended : s.blk.beginPoll.defer.polling = false := (Block.busy_eq_false.1 hb).2
  have hup : s.env.linkUp.1 = true := by rw [hl]
  obtain rfl : s.env.linkUp.2 = e := by rw [hl]
  rw [Env.linkUp_fifo] at hlen
  refine ⟨?_, s.env.linkUp_fifo⟩
  rw [exec_poll_of_ended hb (poll_below_threshold s.params s.blk hup hlen) hended, Env.rxCount_snd, Env.linkUp_log_of hl]
  rfl

/-- Settles O47: an accessor of an idle block only sets the reply. -/
theorem accessorsReturnTheLatches : Obligations.AccessorsReturnTheLatches :=
  ⟨fun _ hb => ⟨whenIdle_of_idle (f := fun s => s.setReply (some (.fields .acc s.blk.raw.acc))) hb,
    whenIdle_of_idle (f := fun s => s.setReply (some (.fields .gyro s.blk.raw.gyro))) hb,
    whenIdle_of_idle (f := fun s => s.setReply (some (.fields .angle s.blk.raw.angle))) hb⟩, rfl⟩

/-- Settles O30: a `POLL` is deferred, has ended its cycle, or hunts in it, and closing it answers the caller in the first two. -/
theorem pollResultSaysTheCycleRan : Obligations.PollResultSaysTheCycleRan := by
  intro s hb
  refine ⟨_, exec_poll hb, ?_⟩
  simp only [closePoll_blk, State.put_blk]
  refine ⟨fun hp => ?_, fun hp => ?_, poll_ends s.params hb⟩
  · obtain ⟨-, hresult, hrest⟩ | ⟨hrunning, -⟩ := poll_result s.params s.env hb
    · exact ⟨hresult, by rw [closePoll_of_ended (by exact hp)]; rfl, hrest⟩
    · rw [hp] at hrunning; cases hrunning
  · obtain ⟨hended, -⟩ | ⟨-, hhunt⟩ := poll_result s.params s.env hb
    · rw [hp] at hended; cases hended
    · exact ⟨hhunt, by rw [closePoll_of_running (by exact hp)]; rfl⟩

/-- Settles O32: the gate makes one sample and one count, and each invocation one more sample. -/
theorem pollInvokesTheReaderFourTimes : Obligations.PollInvokesTheReaderFourTimes := by
  intro s t hexec hended hup hlen
  obtain ⟨hb, -⟩ := exec_poll_next hexec
  rw [exec_poll hb, poll_above_threshold s.params s.blk hup hlen, Host.Outcome.next.injEq] at hexec
  subst hexec
  rw [closePoll_blk] at hended
  obtain ⟨hcount, j, hlink, hj4, hj1, hall⟩ := pollLoop_samples s.params 4 _ rfl rfl hended
  obtain ⟨hgateLink, hgateCount⟩ := gate_samples s.env
  rw [closePoll_env, State.put_env]
  exact ⟨hcount.trans hgateCount, fun hparam => by rw [hlink, hgateLink, hall hparam], by omega, by omega⟩

/-- Settles O34: nothing but an apply, which sets `APPLIED`, stores a latch. -/
theorem pollThatAppliesNothingKeepsLatches : Obligations.PollThatAppliesNothingKeepsLatches := by
  intro s hb
  refine ⟨_, exec_poll hb, ?_⟩
  simp only [closePoll_blk, closePoll_params, closePoll_draws, closePoll_inputs]
  exact ⟨poll_raw s.params, rfl, rfl, rfl⟩

end Sys2Proof.Proofs

namespace Sys2Proof.Machine

/-! ### A cycle, iteration by iteration (R120, R125) -/

theorem Block.stopsEarly_iff {p : Params} {k : Block} : k.stopsEarly p = true ↔ StopsForNoData p k := by
  simp [Block.stopsEarly, StopsForNoData]

/-- The loop of R120 ends after its first iteration that stops it, and else after the last one left to it. -/
theorem pollLoop_of_iterations (p : Params) {n j : Nat} {m : Block × Env} (hn : m.1.pcnt.val + n = 4) (h1 : 1 ≤ j) (hj : j ≤ n)
    (hidle : ∀ i, 1 ≤ i → i ≤ j → ((iteration p)^[i] m).1.mode = .idle)
    (hgo : ∀ i, 1 ≤ i → i < j → ¬ StopsForNoData p ((iteration p)^[i] m).1)
    (hlast : j = n ∨ StopsForNoData p ((iteration p)^[j] m).1) :
    pollLoop p n m.1 m.2 = (((iteration p)^[j] m).1.endCycle p, ((iteration p)^[j] m).2) := by
  induction n generalizing j m with
  | zero => omega
  | succ n ih =>
    obtain ⟨hmode, hpcnt, -⟩ := afterRead_fields p m.1 m.2
    obtain ⟨hhunt, -⟩ | ⟨-, h⟩ := pollLoop_succ p n m.1 m.2 (by omega)
    · have hfirst : (afterRead p m.1 m.2).mode = .idle := hidle 1 le_rfl h1
      rw [hmode, hhunt] at hfirst; cases hfirst
    · obtain rfl | ⟨i, rfl⟩ : j = 1 ∨ ∃ i, j = i + 2 := by
        rcases j with _ | _ | i
        · omega
        · exact .inl rfl
        · exact .inr ⟨i, rfl⟩
      · obtain ⟨-, h⟩ | ⟨hstop, h⟩ := h <;> rw [h]
        · rfl
        · obtain hlast | hlast := hlast
          · obtain rfl : n = 0 := by omega
            rfl
          · rw [Block.stopsEarly_iff.2 (show StopsForNoData p (afterRead p m.1 m.2) from hlast)] at hstop; cases hstop
      · obtain ⟨hstop, -⟩ | ⟨-, h⟩ := h
        · exact absurd (Block.stopsEarly_iff.1 hstop) (hgo 1 le_rfl (by omega))
        · have hbelow : (iteration p m).1.pcnt.val + n = 4 := by
            rw [show (iteration p m).1.pcnt = nextPcnt m.1.pcnt from hpcnt, nextPcnt_val (by omega)]; omega
          rw [h]
          exact ih (m := iteration p m) (j := i + 1) hbelow (by omega) (by omega) (fun i h1 hi => hidle (i + 1) (by omega) (by omega))
            (fun i h1 hi => hgo (i + 1) (by omega) (by omega)) (hlast.imp_left (by omega))

/-- So does an issued `POLL` that its gate lets through. -/
theorem exec_poll_of_iterations {s : State} {j : Nat} {m : Block × Env} (hb : s.blk.busy = false) (hup : s.env.linkUp.1 = true)
    (hlen : 44 ≤ s.env.fifo.length) (hm : m = (s.blk.beginPoll.openCycle, s.env.linkUp.2.rxCount.2)) (h1 : 1 ≤ j) (hj : j ≤ 4)
    (hidle : ∀ i, 1 ≤ i → i ≤ j → ((iteration s.params)^[i] m).1.mode = .idle)
    (hgo : ∀ i, 1 ≤ i → i < j → ¬ StopsForNoData s.params ((iteration s.params)^[i] m).1)
    (hlast : j = 4 ∨ StopsForNoData s.params ((iteration s.params)^[j] m).1) :
    exec .poll s = .next { s with
      blk := ((iteration s.params)^[j] m).1.endCycle s.params
      env := ((iteration s.params)^[j] m).2
      caller := ⟨s.caller.inputs, some (.poll (cycleResult s.params.returnMode ((iteration s.params)^[j] m).1.applied))⟩ } := by
  have hloop := pollLoop_of_iterations s.params (n := 4) (by rw [hm]; rfl) h1 hj hidle hgo hlast
  have hpoll := poll_above_threshold s.params s.blk hup hlen
  rw [hm] at hloop ⊢
  exact exec_poll_of_ended hb (hpoll.trans hloop) rfl

/-- A first iteration that stops the cycle is its only one. -/
theorem exec_poll_of_first_stop {s : State} {k : Block} {e : Env} (hb : s.blk.busy = false) (hup : s.env.linkUp.1 = true)
    (hlen : 44 ≤ s.env.fifo.length) (hiter : iteration s.params (s.blk.beginPoll.openCycle, s.env.linkUp.2.rxCount.2) = (k, e))
    (hm : k.mode = .idle) (hstop : StopsForNoData s.params k) :
    exec .poll s = .next { s with
      blk := k.endCycle s.params
      env := e
      caller := ⟨s.caller.inputs, some (.poll (cycleResult s.params.returnMode k.applied))⟩ } := by
  have h := exec_poll_of_iterations (j := 1) hb hup hlen rfl le_rfl (by omega)
  rw [Function.iterate_one, hiter] at h
  refine h (fun i h1 hi => ?_) (fun i h1 hi => by omega) (.inr hstop)
  obtain rfl : i = 1 := by omega
  rwa [Function.iterate_one, hiter]

/-- A link that is up and stays so is sampled so. -/
theorem Env.linkUp_of_steady {e : Env} (hlink : e.link = true) (hlinks : e.links = []) :
    e.linkUp = (true, { e with log := .linkUp true :: e.log }) := by
  simp only [Env.linkUp, Env.tick_of_steady hlinks, hlink]

/-- An iteration that hunts in vain is counted, and applies nothing (R72, R124). -/
theorem iteration_of_dry {p : Params} {k : Block} {e e1 e' : Env} {g : List Byte} (hl : e.linkUp = (true, e1)) (hg : Garbage g)
    (hlim : LimitAllows p g.length) (h : e1.reads (g.length + 1) = (g.map some ++ [none], e')) :
    iteration p (k, e) = ({ k with
      sum := 0, idx := 0, huntCnt := countAfter p g.length, mode := .idle, status := .noData
      pcnt := nextPcnt k.pcnt, outValid := true }, e') := by
  rw [iteration, readFrame_of_dry hl hg hlim h, Block.afterDiscards_finish, Block.applyRead_of_not_frame (by simp)]
  rfl

/-! ### Accepted frames, one after the other (R123, R124) -/

theorem Env.StaysOpen.reads {e : Env} (h : e.StaysOpen) (n : Nat) : (e.reads n).2.StaysOpen := by
  induction n generalizing e with
  | zero => exact h
  | succ n ih => exact ih h.rxRead

theorem Env.StaysOpen.linkUp {e : Env} (h : e.StaysOpen) : e.linkUp.2.StaysOpen := by
  refine ⟨fun up hup => ?_, fun _ => h.tick_link⟩
  rw [Env.linkUp_links] at hup
  exact h.1 up (List.mem_of_mem_tail hup)

/-- Where the marker is the next byte, no limit comes into play (R72, R73, R92). -/
theorem hunt_of_marker (p : Params) (n : Nat) (k : Block) {e e' : Env} (h : e.rxRead = (some Config.marker, e')) :
    hunt p (n + 1) k e = .found k e' := by
  simp [hunt, h]

/-- A `READ_FRAME` that is given a candidate at once: whatever the limit, nothing is discarded. -/
theorem readFrame_of_candidate_at_once {p : Params} {k : Block} {e e1 e' : Env} {b : FrameBuf} (hl : e.linkUp = (true, e1))
    (hb : b[0] = Config.marker) (h : e1.reads 11 = (b.toList.map some, e')) :
    readFrame p k e = ({ k with
      buf := b, sum := checksum b, idx := 0, mode := .idle, huntCnt := 0
      status := verdict b[10] (checksum b), outValid := true }, e') := by
  obtain ⟨c, x, hbytes, hc⟩ := marker_body_last hb
  rw [hbytes, List.cons_append, List.map_cons, List.map_append] at h
  obtain ⟨e2, hmarker, hrest⟩ := Env.reads_cons h
  have hcollecting : k.beginHunt.markerFound = k.collecting p [] [] := by simp [Block.collecting]
  have hidx : (k.collecting p [] []).idx.val = 1 := rfl
  have hcount : countAfter p ([] : List Byte).length = 0 := by simp [countAfter]
  rw [readFrame_of_found hl (hunt_of_marker p _ k.beginHunt hmarker), hcollecting,
    collect_of_complete c x _ _ e2 e' (by omega) (by unfold Config.bodyLen; omega) (by rw [hc]; exact hrest), ← hcount,
    ← Block.collecting_complete p [] c x k b hc hbytes]
  rfl

/-- The block after an iteration that met the accepted frame `b`. -/
def Block.afterFrame (k : Block) (b : FrameBuf) : Block :=
  ({ k with
    buf := b, sum := checksum b, idx := 0, mode := .idle, huntCnt := 0, status := .frame
    pcnt := nextPcnt k.pcnt, outValid := true } : Block).apply (decodeFields b).1 (decodeFields b).2

/-- An iteration on a connection that stays open takes an accepted frame that is first in the receiver, and nothing else. -/
theorem iteration_of_frame (p : Params) (k : Block) {e : Env} {b : FrameBuf} {rest : List Byte} (ho : e.StaysOpen)
    (hb : isFrame b = true) (hf : e.fifo = b.toList ++ rest) :
    ∃ e', iteration p (k, e) = (k.afterFrame b, e') ∧ e'.StaysOpen ∧ e'.fifo = rest ∧ e'.waits = e.waits ∧
      readAttempts e'.log = readAttempts e.log + 11 := by
  obtain ⟨hmarker, hsum⟩ := (isFrame_iff b).1 hb
  have hl : e.linkUp = (true, e.linkUp.2) := Prod.ext ho.tick_link rfl
  have hlen : b.toList.length = 11 := by simp
  obtain ⟨hanswers, hfifo, hwaits⟩ := Env.reads_of_open (n := 11) ho.linkUp (by simp [hf])
  obtain ⟨hattempts, -⟩ := Env.reads_measures 11 e.linkUp.2
  rw [Env.linkUp_fifo, hf, List.take_left' hlen] at hanswers
  rw [Env.linkUp_fifo, hf, List.drop_left' hlen] at hfifo
  refine ⟨(e.linkUp.2.reads 11).2, ?_, ho.linkUp.reads 11, hfifo, by rw [hwaits, Env.linkUp_waits], by rw [hattempts]; simp⟩
  rw [iteration, readFrame_of_candidate_at_once hl hmarker (Prod.ext hanswers rfl), verdict_eq_frame.2 hsum]
  rfl

@[simp] theorem Block.afterFrame_mode (k : Block) (b : FrameBuf) : (k.afterFrame b).mode = .idle := by simp [Block.afterFrame]
@[simp] theorem Block.afterFrame_status (k : Block) (b : FrameBuf) : (k.afterFrame b).status = .frame := by simp [Block.afterFrame]
@[simp] theorem Block.afterFrame_pcnt (k : Block) (b : FrameBuf) : (k.afterFrame b).pcnt = nextPcnt k.pcnt := by simp [Block.afterFrame]

/-- A loop that is given accepted frames for all the iterations left to it applies them in their order. -/
theorem pollLoop_of_frames (p : Params) (bs : List FrameBuf) {k : Block} {e : Env} {rest : List Byte} (hn : k.pcnt.val + bs.length = 4)
    (ho : e.StaysOpen) (hbs : ∀ b ∈ bs, isFrame b = true) (hf : e.fifo = bs.flatMap Vector.toList ++ rest) :
    ∃ e', pollLoop p bs.length k e = ((bs.foldl Block.afterFrame k).endCycle p, e') ∧ e'.fifo = rest ∧ e'.waits = e.waits ∧
      readAttempts e'.log = readAttempts e.log + 11 * bs.length := by
  induction bs generalizing k e with
  | nil => exact ⟨e, rfl, hf, rfl, rfl⟩
  | cons b bs ih =>
    rw [List.length_cons] at hn ⊢
    obtain ⟨e1, hiter, ho1, hf1, hwaits1, hattempts1⟩ := iteration_of_frame p k ho (hbs b (by simp))
      (rest := bs.flatMap Vector.toList ++ rest) (by simpa using hf)
    obtain ⟨hafter, henv⟩ := Prod.mk.inj (show (afterRead p k e, (readFrame p k e).2) = _ from hiter)
    obtain ⟨e', hloop, hrest, hwaits, hattempts⟩ := ih (k := k.afterFrame b) (e := e1)
      (by rw [Block.afterFrame_pcnt, nextPcnt_val (by omega)]; omega) ho1 (fun x hx => hbs x (by simp [hx])) hf1
    refine ⟨e', ?_, hrest, hwaits.trans hwaits1, by omega⟩
    have hmode := (afterRead_fields p k e).1
    rw [hafter, Block.afterFrame_mode] at hmode
    obtain ⟨hhunt, -⟩ | ⟨-, ⟨hstop, -⟩ | ⟨-, h⟩⟩ := pollLoop_succ p bs.length k e (by omega)
    · rw [hhunt] at hmode; cases hmode
    · rw [hafter] at hstop; simp [Block.stopsEarly] at hstop
    · rw [h, hafter, henv, hloop, List.foldl_cons]

end Sys2Proof.Machine

namespace Sys2Proof.Proofs
open Sys2Proof.Machine

/-- Settles O33: the loop ends after the first iteration that stops it, or its fourth; a dry first hunt is such an iteration under the set
parameter. -/
theorem pollStopsOnNoData : Obligations.PollStopsOnNoData := by
  refine ⟨?_, fun s e e' g hb hparam hlink hlinks hlen hg hlim he hreads => ?_⟩
  · intro s j hb hup hlen h1 hj m hidle hgo hlast
    exact exec_poll_of_iterations hb hup hlen rfl h1 hj hidle hgo hlast
  · have hsample := Env.linkUp_of_steady hlink hlinks
    have hiter : iteration s.params (s.blk.beginPoll.openCycle, s.env.linkUp.2.rxCount.2) = _ :=
      iteration_of_dry (by rw [hsample]; exact Env.linkUp_of_steady hlink hlinks) hg hlim (he ▸ hreads)
    have hpolling : s.blk.polling = false := (Block.busy_eq_false.1 hb).2
    rw [exec_poll_of_first_stop hb (by rw [hsample]) hlen hiter rfl ⟨hparam, rfl⟩]
    simp [Block.endCycle, Block.openCycle, Block.beginPoll, hpolling]

/-- Settles O31: the loop applies the four frames, each of which is first in the receiver when its iteration starts. -/
theorem pollAppliesFourFramesInOrder : Obligations.PollAppliesFourFramesInOrder := by
  intro s b0 b1 b2 b3 rest hb hlink hlinks h0 h1 h2 h3 hf put applied
  have hopen : s.env.StaysOpen := ⟨by simp [hlinks], fun _ => hlink⟩
  have hpolling : s.blk.polling = false := (Block.busy_eq_false.1 hb).2
  have hlen : 44 ≤ s.env.fifo.length := by simp [hf]; omega
  obtain ⟨e', hloop, hrest, hwaits, hattempts⟩ := pollLoop_of_frames s.params [b0, b1, b2, b3] (k := s.blk.beginPoll.openCycle)
    (e := s.env.linkUp.2.rxCount.2) (rest := rest) rfl hopen.linkUp (by simp [h0, h1, h2, h3]) (by simp [hf])
  have hpoll := (poll_above_threshold s.params s.blk hopen.tick_link hlen).trans hloop
  refine ⟨_, exec_poll_of_ended hb hpoll rfl, ?_, hrest, by simpa using hwaits, by simpa using hattempts, rfl⟩
  simp [Block.afterFrame, Block.apply_eq, Block.endCycle, Block.openCycle, Block.beginPoll, applied, put, hpolling, Bool.or_comm,
    Bool.or_assoc]

end Sys2Proof.Proofs

namespace Sys2Proof.Machine

/-! ### Runs one behind another -/

theorem run_add {s t : State} {n : Nat} (m : Nat) (h : run n s = .next t) : run (n + m) s = run m t := by
  induction n generalizing s with
  | zero =>
    obtain rfl : s = t := by simpa [run] using h
    rw [Nat.zero_add]
  | succ n ih =>
    rw [Nat.succ_add]
    simp only [run] at h ⊢
    cases hstep : step s with
    | next u => rw [hstep] at h; exact ih h
    | fault f => rw [hstep] at h; cases h
    | refused r => rw [hstep] at h; cases h

/-! ### An iteration of a strobed cycle (R81, R87, R124) -/

/-- A run of the reader makes one read attempt a step. -/
theorem ReaderRuns.env {p : Params} {n : Nat} {m m' : Block × Env} (h : ReaderRuns p n m m') : m'.2 = (m.2.reads n).2 := by
  induction n generalizing m with
  | zero => exact congrArg Prod.snd h.1.symm
  | succ n ih =>
    obtain ⟨hw, h⟩ := readerRuns_succ.1 h
    have hstep : (readerStep p m).2 = m.2.rxRead.2 := congrArg Prod.snd (readerStep_of_working p hw rfl)
    rw [ih h, hstep, Env.reads_succ]

/-- Reads that leave the same environment are as many. -/
theorem Env.reads_injective {e : Env} {m n : Nat} (h : (e.reads m).2 = (e.reads n).2) : m = n := by
  obtain ⟨hm, -⟩ := Env.reads_measures m e
  obtain ⟨hn, -⟩ := Env.reads_measures n e
  rw [h] at hm
  omega

/-- Between two iterations of a cycle, a machine left to itself makes the start step of the next one and then a step for each read attempt
of its `READ_FRAME`, the last of which concludes it. -/
theorem run_of_readFrame {s : State} {n : Nat} (hin : s.caller.inputs = []) (hm : s.blk.mode = .idle) (hp : s.blk.polling = true)
    (henv : (readFrame s.params s.blk s.env).2 = (s.env.linkUp.2.reads n).2) :
    run (n + 1) s = conclude (s.put (readFrame s.params s.blk s.env)) := by
  obtain ⟨j, hj⟩ := readerRuns_readFrame s.params s.blk s.env
  have hreads := hj.env
  rw [startRead_env, henv] at hreads
  obtain rfl : n = j := Env.reads_injective hreads
  have hstep : step s = conclude (s.put (startRead s.blk s.env)) := by
    rw [step_between_iterations (.inr ⟨hin, rfl⟩) hm hp, ← hin]
  by_cases hidle : (startRead s.blk s.env).1.mode = .idle
  · obtain ⟨rfl, hsame⟩ := hj.of_idle hidle
    rw [run_succ 0 (hstep.trans (conclude_ended hidle)), run, ← conclude_ended hidle, hsame]
  · rw [run_succ n (hstep.trans (conclude_going hidle)), run_of_readerRuns hin hidle hj]

/-- Concluding an iteration of a cycle applies its frame, if any, and counts it. -/
theorem conclude_iteration {s : State} (hm : (readFrame s.params s.blk s.env).1.mode = .idle) (hp : s.blk.polling = true) :
    conclude (s.put (readFrame s.params s.blk s.env)) = .next
      (if (afterRead s.params s.blk s.env).pcnt.val = 4 ∨ (afterRead s.params s.blk s.env).stopsEarly s.params = true
        then closePoll (s.put ((afterRead s.params s.blk s.env).endCycle s.params, (readFrame s.params s.blk s.env).2))
        else s.put (afterRead s.params s.blk s.env, (readFrame s.params s.blk s.env).2)) := by
  have hpolling : (readFrame s.params s.blk s.env).1.polling = true := (readFrame_polling _ _ _).trans hp
  have hafter : (readFrame s.params s.blk s.env).1.applyRead.countRead = afterRead s.params s.blk s.env :=
    (Block.countRead_applyRead _).symm
  rw [conclude_ended (by exact hm), State.put_blk, Block.executed_of_ended (readFrame_ended hm), if_pos hpolling,
    closeReader_of_polling (by simpa using hpolling), afterIteration]
  simp only [State.setBlk_blk, hafter, State.setBlk_params, State.put_params]
  rfl

/-! ### A strobed cycle (R8, R120) -/

/-- The gate of a `POLL` defers it, or opens a cycle of at most four iterations. -/
theorem pollGate_cases (p : Params) (k : Block) (e : Env) :
    ((pollGate k e).2.1 = k.beginPoll.defer ∧ poll p k e = (pollGate k e).2) ∨
    ((pollGate k e).2.1 = k.beginPoll.openCycle ∧ poll p k e = pollLoop p 4 (pollGate k e).2.1 (pollGate k e).2.2) := by
  unfold poll pollGate
  split
  · exact .inl ⟨rfl, rfl⟩
  · split
    · exact .inl ⟨rfl, rfl⟩
    · exact .inr ⟨rfl, rfl⟩

/-- Between two iterations of a cycle, a machine left to itself comes to where the loop ends, or hunts on. -/
theorem run_of_pollLoop {n : Nat} {s : State} (hin : s.caller.inputs = []) (hm : s.blk.mode = .idle) (hp : s.blk.polling = true)
    (hn : s.blk.pcnt.val + n = 4) (h1 : 1 ≤ n) :
    ∃ j, run j s = .next (closePoll (s.put (pollLoop s.params n s.blk s.env))) := by
  induction n generalizing s with
  | zero => omega
  | succ n ih =>
    obtain ⟨i, hreads⟩ := readFrame_env s.params s.blk s.env
    have hrun := run_of_readFrame hin hm hp hreads
    obtain ⟨-, hpcnt, hpolling, -⟩ := afterRead_fields s.params s.blk s.env
    have hcount : (afterRead s.params s.blk s.env).pcnt.val = s.blk.pcnt.val + 1 := by rw [hpcnt, nextPcnt_val (by omega)]
    obtain ⟨hhunt, h⟩ | ⟨hidle, h⟩ := pollLoop_succ s.params n s.blk s.env (by omega)
    · refine ⟨i + 1, ?_⟩
      rw [hrun, h, conclude_going (by simp [hhunt]), closePoll_of_running ((readFrame_polling _ _ _).trans hp)]
    · have hconclude := hrun.trans (conclude_iteration hidle hp)
      obtain ⟨hstop, h⟩ | ⟨hgo, h⟩ := h
      · exact ⟨i + 1, by rw [hconclude, if_pos (.inr hstop), h]⟩
      · obtain rfl | hpos := Nat.eq_zero_or_pos n
        · exact ⟨i + 1, by rw [hconclude, if_pos (.inl (by omega)), h]; rfl⟩
        · rw [if_neg (by simp [hgo]; omega)] at hconclude
          obtain ⟨j, hj⟩ := ih (s := s.put (afterRead s.params s.blk s.env, (readFrame s.params s.blk s.env).2)) hin
            (afterRead_rests s.params hidle).1 (hpolling.trans hp) (by simp; omega) hpos
          exact ⟨i + 1 + j, by rw [run_add j hconclude, hj, h]; rfl⟩

/-- A strobe of `POLL` to an idle block makes the gate (R120). -/
theorem step_strobe_poll {s : State} {rest : List Input} (hin : s.caller.inputs = .strobe 2 :: rest) (hb : s.blk.busy = false) :
    step s = .next (closePoll (({ s with caller := ⟨rest, none⟩ } : State).put (pollGate s.blk s.env).2)) := by
  simp only [step, hin]
  exact whenIdle_of_idle (f := fun s => closePoll ((s.setReply none).put (pollGate s.blk s.env).2)) (s := s.setInputs rest) hb

/-- The strobed operation, left to itself, comes to the state of the issued one. -/
theorem run_strobed_poll {s : State} (hin : s.caller.inputs = [.strobe 2]) (hb : s.blk.busy = false) :
    ∃ n, run n s = .next (closePoll (({ s with caller := ⟨[], none⟩ } : State).put (poll s.params s.blk s.env))) := by
  have hstep := step_strobe_poll hin hb
  obtain ⟨hm, -⟩ := Block.busy_eq_false.1 hb
  obtain ⟨-, h⟩ | ⟨hopened, h⟩ := pollGate_cases s.params s.blk s.env
  · exact ⟨1, by rw [run_succ 0 hstep, run, h]⟩
  · rw [closePoll_of_running (by simp [hopened])] at hstep
    obtain ⟨j, hj⟩ := run_of_pollLoop (n := 4) (s := State.put { s with caller := ⟨[], none⟩ } (pollGate s.blk s.env).2) rfl
      (by simp [hopened, hm]) (by simp [hopened]) (by simp [hopened]) (by omega)
    exact ⟨j + 1, by rw [run_succ j hstep, hj, h]; rfl⟩

/-! ### Iterations with and without a candidate (R71, R72, R77, R92, R124) -/

/-- A `READ_FRAME` that ends without a candidate: it leaves `BUF` after NO_DATA, and writes its own registers alone. -/
theorem readFrame_of_no_candidate {p : Params} {e e' : Env} {n : Nat} {st : Status} (k : Block) (h : EndsWithoutCandidate p e n st e') :
    ∃ (m : Nat) (buf : FrameBuf) (sum : Byte) (cnt : Nat), n = m + 1 ∧ (e.linkUp.2.reads m).2 = e' ∧
      readFrame p k e = ({ k with
        buf := buf, sum := sum, huntCnt := cnt, idx := 0, mode := .idle, status := st, outValid := true }, e') ∧
      (st = .noData → buf = k.buf) ∧ (st = .noData ∨ st = .underrun) := by
  obtain ⟨rfl, rfl, hl⟩ | ⟨e1, g, hl, hg, h⟩ := h
  · exact ⟨0, k.buf, 0, 0, rfl, by rw [hl]; rfl, readFrame_of_down hl, fun _ => rfl, .inl rfl⟩
  obtain ⟨rfl, rfl, hlim, hreads⟩ | ⟨rfl, rfl, h1, hlim, hreads⟩ | ⟨c, rfl, rfl, hlim, hc, hreads⟩ := h
  · refine ⟨g.length + 1, k.buf, 0, countAfter p g.length, rfl, by rw [hl, hreads], ?_, fun _ => rfl, .inl rfl⟩
    rw [readFrame_of_dry hl hg hlim hreads, Block.afterDiscards_finish]
  · refine ⟨g.length, k.buf, 0, countAfter p g.length, rfl, by rw [hl, hreads], ?_, fun _ => rfl, .inl rfl⟩
    rw [readFrame_of_limit hl hg hlim h1 hreads, Block.afterDiscards_finish]
  · obtain ⟨buf, hcollecting, -⟩ := Block.collecting_spec p g c k hc
    refine ⟨g.length + c.length + 2, buf, (Config.marker :: c).foldl (· + ·) 0, countAfter p g.length, rfl,
      by rw [hl, hreads], ?_, nofun, .inr rfl⟩
    rw [readFrame_of_underrun hl hg hlim hc hreads, hcollecting]
    rfl

/-- A reader that ends with the candidate `b` executes its row, which writes `SUM` again. -/
theorem Block.executed_of_candidate (b : FrameBuf) (cnt : Nat) (k : Block) :
    ({ k with
      buf := b, sum := checksum b, idx := 0, mode := .idle, huntCnt := cnt
      status := verdict b[10] (checksum b), outValid := true } : Block).executed =
      runFrame b[1] (classify b[1]) (payloadOf b) { k with huntCnt := cnt } :=
  Block.executed_of_complete b b[10] (checksum b) { k with sum := checksum b, huntCnt := cnt }

/-- Eleven bytes that the decoder reads to their end begin with the marker. -/
theorem marker_of_decode {b : FrameBuf} {i : Instr} (h : decode b.toList = .ok (i, [])) : b[0] = Config.marker := by
  obtain ⟨b', hmarker, hbytes, -⟩ | ⟨c, hbytes, -⟩ := decode_cases h
  · rw [List.append_nil] at hbytes
    rwa [Vector.toList_inj.1 hbytes]
  · have hlen := congrArg List.length hbytes
    simp at hlen

end Sys2Proof.Machine

namespace Sys2Proof.Proofs
open Sys2Proof.Machine

/-- Settles O37: the strobe makes the gate, the steps of each iteration make its `READ_FRAME`, and the one that ends it concludes the
iteration as the loop does. -/
theorem strobedPollEqualsIssuedPoll : Obligations.StrobedPollEqualsIssuedPoll := by
  intro s hb hin
  refine ⟨_, exec_poll hb, ?_⟩
  obtain ⟨n, hn⟩ := run_strobed_poll (s := { s with caller := ⟨[.strobe 2], s.caller.reply⟩ }) rfl hb
  exact ⟨n, by rw [hn, State.setReply, hin]⟩

/-- Settles O43: the steps make the iteration's `READ_FRAME`, and the one that ends it executes what the reader has fetched and counts the
iteration. -/
theorem pollStepExecutesTheNextFrame : Obligations.PollStepExecutesTheNextFrame := by
  refine ⟨fun s e e' g b i hin hm hp hl hg hlim hreads hdecode => ?_, fun s n st e' hin hm hp hends => ?_⟩
  · obtain rfl := decode_candidate hdecode
    have hread := readFrame_of_candidate (k := s.blk) hl hg hlim (marker_of_decode hdecode) hreads
    have hrun := run_of_readFrame (n := g.length + 11) hin hm hp (by rw [hread, hl, hreads])
    rw [hread] at hrun
    refine ⟨_, _, exec_of_frameRow (frameRow_decodeFrame b) _, hrun.trans (conclude_ended rfl), ?_⟩
    rw [State.put_blk, Block.executed_of_candidate, closeReader_of_polling (by simpa using hp)]
    exact afterIteration_counted _
  · obtain ⟨m, buf, sum, cnt, rfl, hreads, hread, hbuf, hst⟩ := readFrame_of_no_candidate s.blk hends
    have hrun := run_of_readFrame (n := m) hin hm hp (by rw [hread, hreads])
    rw [hread] at hrun
    refine ⟨buf, sum, cnt, _, hrun.trans (conclude_ended rfl), ?_, hbuf⟩
    rw [Block.executed_of_no_candidate hst, closeReader_of_polling (by exact hp)]
    exact afterIteration_counted _

end Sys2Proof.Proofs

namespace Sys2Proof.Machine

/-! ### Every step goes on or is refused at a start (R140, R170) -/

/-- A started operation is refused for one reason only: another one runs. -/
theorem whenIdle_next_or_refused (s : State) (f : State → State) :
    (∃ t, whenIdle s f = .next t) ∨ (whenIdle s f = .refused .startWhileBusy ∧ s.blk.busy = true) := by
  cases hb : s.blk.busy with
  | false => exact .inl ⟨_, whenIdle_of_idle hb⟩
  | true => exact .inr ⟨whenIdle_of_busy hb, rfl⟩

/-- No operation code decodes to a frame row, and every other instruction is started through `whenIdle`. -/
theorem exec_decodeOp_eq_whenIdle (c : OpCode) : ∃ f, ∀ s, exec (decodeOp c) s = whenIdle s f := by
  cases hi : decodeOp c with
  | readFrame | poll | getAcc | getGyro | getAngle | reservedOp0 | reservedOp3 | reservedOp7 => exact ⟨_, fun _ => rfl⟩
  | frameAcc | frameGyro | frameAngle | frameUnknown => unfold decodeOp at hi; split at hi <;> cases hi

/-- A strobe is a start too, of the operation's first step where it is only begun. -/
theorem strobe_eq_whenIdle (c : OpCode) : ∃ f, ∀ s, strobe c s = whenIdle s f := by
  by_cases hread : decodeOp c = .readFrame
  · exact ⟨_, fun s => by simp only [strobe, hread]; rfl⟩
  by_cases hpoll : decodeOp c = .poll
  · exact ⟨_, fun s => by simp only [strobe, hpoll]; rfl⟩
  obtain ⟨f, hf⟩ := exec_decodeOp_eq_whenIdle c
  exact ⟨f, fun s => (strobe_of_other hread hpoll).trans (hf s)⟩

/-- A block that goes on by itself always has a next state: what its reader fetches is a frame row, which nothing refuses. -/
theorem carryOn_next (s : State) : ∃ t, carryOn s = .next t := by
  cases hb : s.blk.busy with
  | false => exact ⟨_, carryOn_of_idle hb⟩
  | true =>
    rw [carryOn_of_busy hb]
    by_cases hm : (s.put (exchange s.params (s.blk, s.env))).blk.mode = .idle
    · exact ⟨_, conclude_ended hm⟩
    · exact ⟨_, conclude_going hm⟩

/-- A step that starts an operation is safe, whichever way it is started. -/
theorem SafeStep.of_start {s : State} {c : OpCode} {rest : List Input} {f : State → State}
    (hin : s.caller.inputs = .issue c :: rest ∨ s.caller.inputs = .strobe c :: rest)
    (hstep : step s = whenIdle (s.setInputs rest) f) : SafeStep s := by
  unfold SafeStep
  rw [hstep]
  exact (whenIdle_next_or_refused _ f).imp_right fun ⟨hrefused, hb⟩ => ⟨hrefused, hb, c, rest, hin⟩

end Sys2Proof.Machine

namespace Sys2Proof.Proofs
open Sys2Proof.Machine

/-- Settles O49: by the next input, of which only an operation's start, issued or strobed, can be refused. -/
theorem onlyAStartWhileBusyIsRefused : Obligations.OnlyAStartWhileBusyIsRefused := by
  intro s
  cases hin : s.caller.inputs with
  | nil => exact .inl (by simpa only [step, hin] using carryOn_next s)
  | cons input rest =>
    cases input with
    | quiet => exact .inl (by simpa only [step, hin] using carryOn_next (s.setInputs rest))
    | issue c =>
      obtain ⟨f, hf⟩ := exec_decodeOp_eq_whenIdle c
      exact .of_start (f := f) (.inl hin) (by simp only [step, hin, hf])
    | strobe c =>
      obtain ⟨f, hf⟩ := strobe_eq_whenIdle c
      exact .of_start (f := f) (.inr hin) (by simp only [step, hin, hf])
    | reset => exact .inl ⟨(s.setInputs rest).resetInput, by simp only [step, hin]⟩
    | arrive b => exact .inl ⟨_, step_of_arrive hin⟩
    | setLink up => exact .inl ⟨_, step_of_setLink hin⟩

end Sys2Proof.Proofs

namespace Sys2Proof.Machine

/-! ### A start while busy and the reset input (R160, R161, R162, R170) -/

/-- A start, issued or strobed, is an operation that only an idle block begins. -/
theorem step_eq_whenIdle_of_start {s : State} {c : OpCode} {rest : List Input}
    (hin : s.caller.inputs = .issue c :: rest ∨ s.caller.inputs = .strobe c :: rest) :
    ∃ f, step s = whenIdle (s.setInputs rest) f := by
  obtain hin | hin := hin
  · obtain ⟨f, hf⟩ := exec_decodeOp_eq_whenIdle c
    exact ⟨f, by simp only [step, hin, hf]⟩
  · obtain ⟨f, hf⟩ := strobe_eq_whenIdle c
    exact ⟨f, by simp only [step, hin, hf]⟩

/-- The reset input is taken at once, whatever the block is doing. -/
theorem step_of_reset {s : State} {rest : List Input} (hin : s.caller.inputs = .reset :: rest) :
    step s = .next (s.setInputs rest).resetInput := by
  simp only [step, hin]

end Sys2Proof.Machine

namespace Sys2Proof.Proofs
open Sys2Proof.Machine

/-- Settles O50: taking the input leaves the block busy, and a busy block begins no operation. -/
theorem startWhileBusyIsRefused : Obligations.StartWhileBusyIsRefused := by
  intro s c rest hbusy hin
  obtain ⟨f, hstep⟩ := step_eq_whenIdle_of_start hin
  have hbusy' : (s.setInputs rest).blk.busy = true := by rwa [State.setInputs_blk]
  rw [hstep, whenIdle_of_busy hbusy']

/-- Settles O51: the block becomes the one at reset with free bytes in `BUF`, and neither the environment nor the parameters are
written. -/
theorem resetInputClearsTheBlock : Obligations.ResetInputClearsTheBlock := by
  intro s rest hin
  refine ⟨_, step_of_reset hin, by simp, by simp, by simp, ?_, ?_⟩ <;> rw [State.resetInput_blk] <;> rfl

end Sys2Proof.Proofs
